-- ==== Sys2Proof/Word.lean ====
section
/-! DEFINITION. Words and operand forms: the byte, the 16-bit word and the PPU's address widths (00_scope R7, R9),
and the operand forms an instruction can take (30_encoding R56, R61), one type per set of forms, so that a form the
opcode table does not give an instruction cannot be written down. -/

namespace Sys2Proof

/-- A byte, `u8` of R9. -/
abbrev Byte := BitVec 8

/-- A CPU address or a program counter, `u16` of R9. -/
abbrev Word := BitVec 16

/-- A PPU address (R7: 14 bits, `v & 0x3FFF`). -/
abbrev PpuAddr := BitVec 14

/-- `{hi, lo} = hi << 8 | lo` (R9). -/
def mkWord (hi lo : Byte) : Word := hi ++ lo

/-- `w[15:8]`. -/
def hiByte (w : Word) : Byte := w.extractLsb' 8 8

/-- `w[7:0]`. -/
def loByte (w : Word) : Byte := w.extractLsb' 0 8

/-- `zext_16(b)` (R9). -/
def zext16 (b : Byte) : Word := b.setWidth 16

/-- `sext_16(b)` (R9). -/
def sext16 (b : Byte) : Word := b.signExtend 16

/-- The eight memory forms (R56): the operand bytes an instruction carries, before any indexing. -/
inductive MemForm where
  /-- ZeroPage. -/
  | zp (b : Byte)
  /-- ZeroPage,X. -/
  | zpx (b : Byte)
  /-- ZeroPage,Y. -/
  | zpy (b : Byte)
  /-- Absolute. -/
  | abs (w : Word)
  /-- Absolute,X. -/
  | absx (w : Word)
  /-- Absolute,Y. -/
  | absy (w : Word)
  /-- (Indirect,X). -/
  | indx (b : Byte)
  /-- (Indirect),Y. -/
  | indy (b : Byte)
  deriving DecidableEq, Repr

/-- Where a reading instruction takes its value `M` from (R70): the operand byte, or memory. -/
inductive SrcForm where
  | imm (b : Byte)
  | mem (m : MemForm)
  deriving DecidableEq, Repr

/-- What a shift works on (R70): the accumulator, or memory. -/
inductive RmwForm where
  | acc
  | mem (m : MemForm)
  deriving DecidableEq, Repr

/-- The forms of ADC, AND, CMP, EOR, LDA, ORA and SBC (R61). -/
inductive AluMode where
  | imm (b : Byte)
  | zp (b : Byte)
  | zpx (b : Byte)
  | abs (w : Word)
  | absx (w : Word)
  | absy (w : Word)
  | indx (b : Byte)
  | indy (b : Byte)
  deriving DecidableEq, Repr

/-- The forms of LDX (R90). -/
inductive LdxMode where
  | imm (b : Byte)
  | zp (b : Byte)
  | zpy (b : Byte)
  | abs (w : Word)
  | absy (w : Word)
  deriving DecidableEq, Repr

/-- The forms of LDY (R91). -/
inductive LdyMode where
  | imm (b : Byte)
  | zp (b : Byte)
  | zpx (b : Byte)
  | abs (w : Word)
  | absx (w : Word)
  deriving DecidableEq, Repr

/-- The forms of CPX and CPY (R108, R109). -/
inductive CpMode where
  | imm (b : Byte)
  | zp (b : Byte)
  | abs (w : Word)
  deriving DecidableEq, Repr

/-- The forms of BIT (R110). -/
inductive BitMode where
  | zp (b : Byte)
  | abs (w : Word)
  deriving DecidableEq, Repr

/-- The forms of STA (R92). -/
inductive StaMode where
  | zp (b : Byte)
  | zpx (b : Byte)
  | abs (w : Word)
  | absx (w : Word)
  | absy (w : Word)
  | indx (b : Byte)
  | indy (b : Byte)
  deriving DecidableEq, Repr

/-- The forms of STX (R93). -/
inductive StxMode where
  | zp (b : Byte)
  | zpy (b : Byte)
  | abs (w : Word)
  deriving DecidableEq, Repr

/-- The forms of STY (R94). -/
inductive StyMode where
  | zp (b : Byte)
  | zpx (b : Byte)
  | abs (w : Word)
  deriving DecidableEq, Repr

/-- The forms of INC and DEC (R111, R112). -/
inductive IncMode where
  | zp (b : Byte)
  | zpx (b : Byte)
  | abs (w : Word)
  | absx (w : Word)
  deriving DecidableEq, Repr

/-- The forms of ASL, LSR, ROL and ROR (R117 to R120). -/
inductive ShiftMode where
  | acc
  | zp (b : Byte)
  | zpx (b : Byte)
  | abs (w : Word)
  | absx (w : Word)
  deriving DecidableEq, Repr

/-- The forms of JMP (R122). -/
inductive JmpMode where
  | abs (w : Word)
  | ind (w : Word)
  deriving DecidableEq, Repr

end Sys2Proof
end

