-- ==== Sys2Proof/Syntax.lean ====
section
/-! DEFINITION. The instruction set (30_encoding R60, R61, R64): one constructor per mnemonic of
spec/opcode_table.json; a row of the table is a constructor together with one form of its operand type, or, for the
rows UNKNOWN, the constructor `unknown` with the row's byte. -/

namespace Sys2Proof

/-- An instruction, with its operand bytes as written in the program. -/
inductive Instr where
  -- load, store and transfer (R89 to R100)
  | lda (m : AluMode)
  | ldx (m : LdxMode)
  | ldy (m : LdyMode)
  | sta (m : StaMode)
  | stx (m : StxMode)
  | sty (m : StyMode)
  | tax
  | tay
  | tsx
  | txa
  | txs
  | tya
  -- arithmetic, logic, compare and increment (R102 to R116)
  | adc (m : AluMode)
  | sbc (m : AluMode)
  | and (m : AluMode)
  | ora (m : AluMode)
  | eor (m : AluMode)
  | cmp (m : AluMode)
  | cpx (m : CpMode)
  | cpy (m : CpMode)
  | bit (m : BitMode)
  | inc (m : IncMode)
  | dec (m : IncMode)
  | inx
  | iny
  | dex
  | dey
  -- shift and rotate (R117 to R120)
  | asl (m : ShiftMode)
  | lsr (m : ShiftMode)
  | rol (m : ShiftMode)
  | ror (m : ShiftMode)
  -- control transfer (R122 to R135)
  | jmp (m : JmpMode)
  | jsr (w : Word)
  | rts
  | rti
  | bcc (off : Byte)
  | bcs (off : Byte)
  | beq (off : Byte)
  | bmi (off : Byte)
  | bne (off : Byte)
  | bpl (off : Byte)
  | bvc (off : Byte)
  | bvs (off : Byte)
  | brk
  -- stack, status flags and no-operations (R136 to R148)
  | pha
  | php
  | pla
  | plp
  | clc
  | cld
  | cli
  | clv
  | sec
  | sed
  | sei
  | nop
  /-- One of the 105 unknown opcodes of R64. -/
  | unknown (op : Byte)
  deriving DecidableEq, Repr

end Sys2Proof
end

