-- ==== Sys2Proof/Decode.lean ====
section
/-! DEFINITION. The opcode map (30_encoding R61, R62, R64), the decoder, total on any bytes, and the encoder. A
decoder tells the length from the opcode byte alone (R59), and looks the whole byte up in a table of 151 rows (R57). -/

namespace Sys2Proof

/-- A row of the table R61: the opcode byte, how many operand bytes follow it (R56), its base cycle cost (R63), and
the instruction it names, built from the bytes at `PC0 + 1` and `PC0 + 2` (R58). -/
structure OpRow where
  op : Byte
  operandBytes : Nat
  cycles : Nat
  build : Byte → Byte → Instr

/-- Load, store and transfer rows of R61 (R89 to R100). -/
def loadRows : List OpRow :=
  [⟨0xA9, 1, 2, fun b _ => .lda (.imm b)⟩,
   ⟨0xA5, 1, 3, fun b _ => .lda (.zp b)⟩,
   ⟨0xB5, 1, 4, fun b _ => .lda (.zpx b)⟩,
   ⟨0xAD, 2, 4, fun b c => .lda (.abs (mkWord c b))⟩,
   ⟨0xBD, 2, 4, fun b c => .lda (.absx (mkWord c b))⟩,
   ⟨0xB9, 2, 4, fun b c => .lda (.absy (mkWord c b))⟩,
   ⟨0xA1, 1, 6, fun b _ => .lda (.indx b)⟩,
   ⟨0xB1, 1, 5, fun b _ => .lda (.indy b)⟩] ++
  [⟨0xA2, 1, 2, fun b _ => .ldx (.imm b)⟩,
   ⟨0xA6, 1, 3, fun b _ => .ldx (.zp b)⟩,
   ⟨0xB6, 1, 4, fun b _ => .ldx (.zpy b)⟩,
   ⟨0xAE, 2, 4, fun b c => .ldx (.abs (mkWord c b))⟩,
   ⟨0xBE, 2, 4, fun b c => .ldx (.absy (mkWord c b))⟩] ++
  [⟨0xA0, 1, 2, fun b _ => .ldy (.imm b)⟩,
   ⟨0xA4, 1, 3, fun b _ => .ldy (.zp b)⟩,
   ⟨0xB4, 1, 4, fun b _ => .ldy (.zpx b)⟩,
   ⟨0xAC, 2, 4, fun b c => .ldy (.abs (mkWord c b))⟩,
   ⟨0xBC, 2, 4, fun b c => .ldy (.absx (mkWord c b))⟩] ++
  [⟨0x85, 1, 3, fun b _ => .sta (.zp b)⟩,
   ⟨0x95, 1, 4, fun b _ => .sta (.zpx b)⟩,
   ⟨0x8D, 2, 4, fun b c => .sta (.abs (mkWord c b))⟩,
   ⟨0x9D, 2, 5, fun b c => .sta (.absx (mkWord c b))⟩,
   ⟨0x99, 2, 5, fun b c => .sta (.absy (mkWord c b))⟩,
   ⟨0x81, 1, 6, fun b _ => .sta (.indx b)⟩,
   ⟨0x91, 1, 6, fun b _ => .sta (.indy b)⟩] ++
  [⟨0x86, 1, 3, fun b _ => .stx (.zp b)⟩,
   ⟨0x96, 1, 4, fun b _ => .stx (.zpy b)⟩,
   ⟨0x8E, 2, 4, fun b c => .stx (.abs (mkWord c b))⟩] ++
  [⟨0x84, 1, 3, fun b _ => .sty (.zp b)⟩,
   ⟨0x94, 1, 4, fun b _ => .sty (.zpx b)⟩,
   ⟨0x8C, 2, 4, fun b c => .sty (.abs (mkWord c b))⟩] ++
  [⟨0xAA, 0, 2, fun _ _ => .tax⟩] ++
  [⟨0xA8, 0, 2, fun _ _ => .tay⟩] ++
  [⟨0xBA, 0, 2, fun _ _ => .tsx⟩] ++
  [⟨0x8A, 0, 2, fun _ _ => .txa⟩] ++
  [⟨0x9A, 0, 2, fun _ _ => .txs⟩] ++
  [⟨0x98, 0, 2, fun _ _ => .tya⟩]

/-- ADC, SBC, AND, ORA and EOR rows of R61 (R102 to R106). -/
def aluRows : List OpRow :=
  [⟨0x69, 1, 2, fun b _ => .adc (.imm b)⟩,
   ⟨0x65, 1, 3, fun b _ => .adc (.zp b)⟩,
   ⟨0x75, 1, 4, fun b _ => .adc (.zpx b)⟩,
   ⟨0x6D, 2, 4, fun b c => .adc (.abs (mkWord c b))⟩,
   ⟨0x7D, 2, 4, fun b c => .adc (.absx (mkWord c b))⟩,
   ⟨0x79, 2, 4, fun b c => .adc (.absy (mkWord c b))⟩,
   ⟨0x61, 1, 6, fun b _ => .adc (.indx b)⟩,
   ⟨0x71, 1, 5, fun b _ => .adc (.indy b)⟩] ++
  [⟨0xE9, 1, 2, fun b _ => .sbc (.imm b)⟩,
   ⟨0xE5, 1, 3, fun b _ => .sbc (.zp b)⟩,
   ⟨0xF5, 1, 4, fun b _ => .sbc (.zpx b)⟩,
   ⟨0xED, 2, 4, fun b c => .sbc (.abs (mkWord c b))⟩,
   ⟨0xFD, 2, 4, fun b c => .sbc (.absx (mkWord c b))⟩,
   ⟨0xF9, 2, 4, fun b c => .sbc (.absy (mkWord c b))⟩,
   ⟨0xE1, 1, 6, fun b _ => .sbc (.indx b)⟩,
   ⟨0xF1, 1, 5, fun b _ => .sbc (.indy b)⟩] ++
  [⟨0x29, 1, 2, fun b _ => .and (.imm b)⟩,
   ⟨0x25, 1, 3, fun b _ => .and (.zp b)⟩,
   ⟨0x35, 1, 4, fun b _ => .and (.zpx b)⟩,
   ⟨0x2D, 2, 4, fun b c => .and (.abs (mkWord c b))⟩,
   ⟨0x3D, 2, 4, fun b c => .and (.absx (mkWord c b))⟩,
   ⟨0x39, 2, 4, fun b c => .and (.absy (mkWord c b))⟩,
   ⟨0x21, 1, 6, fun b _ => .and (.indx b)⟩,
   ⟨0x31, 1, 5, fun b _ => .and (.indy b)⟩] ++
  [⟨0x09, 1, 2, fun b _ => .ora (.imm b)⟩,
   ⟨0x05, 1, 3, fun b _ => .ora (.zp b)⟩,
   ⟨0x15, 1, 4, fun b _ => .ora (.zpx b)⟩,
   ⟨0x0D, 2, 4, fun b c => .ora (.abs (mkWord c b))⟩,
   ⟨0x1D, 2, 4, fun b c => .ora (.absx (mkWord c b))⟩,
   ⟨0x19, 2, 4, fun b c => .ora (.absy (mkWord c b))⟩,
   ⟨0x01, 1, 6, fun b _ => .ora (.indx b)⟩,
   ⟨0x11, 1, 5, fun b _ => .ora (.indy b)⟩] ++
  [⟨0x49, 1, 2, fun b _ => .eor (.imm b)⟩,
   ⟨0x45, 1, 3, fun b _ => .eor (.zp b)⟩,
   ⟨0x55, 1, 4, fun b _ => .eor (.zpx b)⟩,
   ⟨0x4D, 2, 4, fun b c => .eor (.abs (mkWord c b))⟩,
   ⟨0x5D, 2, 4, fun b c => .eor (.absx (mkWord c b))⟩,
   ⟨0x59, 2, 4, fun b c => .eor (.absy (mkWord c b))⟩,
   ⟨0x41, 1, 6, fun b _ => .eor (.indx b)⟩,
   ⟨0x51, 1, 5, fun b _ => .eor (.indy b)⟩]

/-- Compare, BIT, increment and decrement rows of R61 (R107 to R116). -/
def compareRows : List OpRow :=
  [⟨0xC9, 1, 2, fun b _ => .cmp (.imm b)⟩,
   ⟨0xC5, 1, 3, fun b _ => .cmp (.zp b)⟩,
   ⟨0xD5, 1, 4, fun b _ => .cmp (.zpx b)⟩,
   ⟨0xCD, 2, 4, fun b c => .cmp (.abs (mkWord c b))⟩,
   ⟨0xDD, 2, 4, fun b c => .cmp (.absx (mkWord c b))⟩,
   ⟨0xD9, 2, 4, fun b c => .cmp (.absy (mkWord c b))⟩,
   ⟨0xC1, 1, 6, fun b _ => .cmp (.indx b)⟩,
   ⟨0xD1, 1, 5, fun b _ => .cmp (.indy b)⟩] ++
  [⟨0xE0, 1, 2, fun b _ => .cpx (.imm b)⟩,
   ⟨0xE4, 1, 3, fun b _ => .cpx (.zp b)⟩,
   ⟨0xEC, 2, 4, fun b c => .cpx (.abs (mkWord c b))⟩] ++
  [⟨0xC0, 1, 2, fun b _ => .cpy (.imm b)⟩,
   ⟨0xC4, 1, 3, fun b _ => .cpy (.zp b)⟩,
   ⟨0xCC, 2, 4, fun b c => .cpy (.abs (mkWord c b))⟩] ++
  [⟨0x24, 1, 3, fun b _ => .bit (.zp b)⟩,
   ⟨0x2C, 2, 4, fun b c => .bit (.abs (mkWord c b))⟩] ++
  [⟨0xE6, 1, 5, fun b _ => .inc (.zp b)⟩,
   ⟨0xF6, 1, 6, fun b _ => .inc (.zpx b)⟩,
   ⟨0xEE, 2, 6, fun b c => .inc (.abs (mkWord c b))⟩,
   ⟨0xFE, 2, 7, fun b c => .inc (.absx (mkWord c b))⟩] ++
  [⟨0xC6, 1, 5, fun b _ => .dec (.zp b)⟩,
   ⟨0xD6, 1, 6, fun b _ => .dec (.zpx b)⟩,
   ⟨0xCE, 2, 6, fun b c => .dec (.abs (mkWord c b))⟩,
   ⟨0xDE, 2, 7, fun b c => .dec (.absx (mkWord c b))⟩] ++
  [⟨0xE8, 0, 2, fun _ _ => .inx⟩] ++
  [⟨0xC8, 0, 2, fun _ _ => .iny⟩] ++
  [⟨0xCA, 0, 2, fun _ _ => .dex⟩] ++
  [⟨0x88, 0, 2, fun _ _ => .dey⟩]

/-- Shift and rotate rows of R61 (R117 to R120). -/
def shiftRows : List OpRow :=
  [⟨0x0A, 0, 2, fun _ _ => .asl (.acc)⟩,
   ⟨0x06, 1, 5, fun b _ => .asl (.zp b)⟩,
   ⟨0x16, 1, 6, fun b _ => .asl (.zpx b)⟩,
   ⟨0x0E, 2, 6, fun b c => .asl (.abs (mkWord c b))⟩,
   ⟨0x1E, 2, 7, fun b c => .asl (.absx (mkWord c b))⟩] ++
  [⟨0x4A, 0, 2, fun _ _ => .lsr (.acc)⟩,
   ⟨0x46, 1, 5, fun b _ => .lsr (.zp b)⟩,
   ⟨0x56, 1, 6, fun b _ => .lsr (.zpx b)⟩,
   ⟨0x4E, 2, 6, fun b c => .lsr (.abs (mkWord c b))⟩,
   ⟨0x5E, 2, 7, fun b c => .lsr (.absx (mkWord c b))⟩] ++
  [⟨0x2A, 0, 2, fun _ _ => .rol (.acc)⟩,
   ⟨0x26, 1, 5, fun b _ => .rol (.zp b)⟩,
   ⟨0x36, 1, 6, fun b _ => .rol (.zpx b)⟩,
   ⟨0x2E, 2, 6, fun b c => .rol (.abs (mkWord c b))⟩,
   ⟨0x3E, 2, 7, fun b c => .rol (.absx (mkWord c b))⟩] ++
  [⟨0x6A, 0, 2, fun _ _ => .ror (.acc)⟩,
   ⟨0x66, 1, 5, fun b _ => .ror (.zp b)⟩,
   ⟨0x76, 1, 6, fun b _ => .ror (.zpx b)⟩,
   ⟨0x6E, 2, 6, fun b c => .ror (.abs (mkWord c b))⟩,
   ⟨0x7E, 2, 7, fun b c => .ror (.absx (mkWord c b))⟩]

/-- Control transfer rows of R61 (R122 to R135). -/
def controlRows : List OpRow :=
  [⟨0x4C, 2, 3, fun b c => .jmp (.abs (mkWord c b))⟩,
   ⟨0x6C, 2, 5, fun b c => .jmp (.ind (mkWord c b))⟩] ++
  [⟨0x20, 2, 6, fun b c => .jsr (mkWord c b)⟩] ++
  [⟨0x60, 0, 6, fun _ _ => .rts⟩] ++
  [⟨0x40, 0, 6, fun _ _ => .rti⟩] ++
  [⟨0x90, 1, 2, fun b _ => .bcc b⟩] ++
  [⟨0xB0, 1, 2, fun b _ => .bcs b⟩] ++
  [⟨0xF0, 1, 2, fun b _ => .beq b⟩] ++
  [⟨0x30, 1, 2, fun b _ => .bmi b⟩] ++
  [⟨0xD0, 1, 2, fun b _ => .bne b⟩] ++
  [⟨0x10, 1, 2, fun b _ => .bpl b⟩] ++
  [⟨0x50, 1, 2, fun b _ => .bvc b⟩] ++
  [⟨0x70, 1, 2, fun b _ => .bvs b⟩] ++
  [⟨0x00, 0, 7, fun _ _ => .brk⟩]

/-- Stack, status-flag and NOP rows of R61 (R136 to R147). -/
def miscRows : List OpRow :=
  [⟨0x48, 0, 3, fun _ _ => .pha⟩] ++
  [⟨0x08, 0, 3, fun _ _ => .php⟩] ++
  [⟨0x68, 0, 4, fun _ _ => .pla⟩] ++
  [⟨0x28, 0, 4, fun _ _ => .plp⟩] ++
  [⟨0x18, 0, 2, fun _ _ => .clc⟩] ++
  [⟨0xD8, 0, 2, fun _ _ => .cld⟩] ++
  [⟨0x58, 0, 2, fun _ _ => .cli⟩] ++
  [⟨0xB8, 0, 2, fun _ _ => .clv⟩] ++
  [⟨0x38, 0, 2, fun _ _ => .sec⟩] ++
  [⟨0xF8, 0, 2, fun _ _ => .sed⟩] ++
  [⟨0x78, 0, 2, fun _ _ => .sei⟩] ++
  [⟨0xEA, 0, 2, fun _ _ => .nop⟩]

/-- The table R61. -/
def opTable : List OpRow :=
  loadRows ++ aluRows ++ compareRows ++ shiftRows ++ controlRows ++ miscRows

/-- The row of a documented opcode byte; none for an unknown one. -/
def opRow (op : Byte) : Option OpRow := opTable.find? fun r => r.op == op

/-- How many operand bytes a step reads after the opcode: those of the form (R56); none for an unknown opcode, whose
skipped bytes are not read (R148). -/
def operandCount (op : Byte) : Nat :=
  match opRow op with
  | some r => r.operandBytes
  | none => 0

/-- The instruction of an opcode byte and the two bytes after it (R58, R61, R64); a form of fewer operand bytes does
not look at the others. -/
def decodeOp (op b c : Byte) : Instr :=
  match opRow op with
  | some r => r.build b c
  | none => .unknown op

/-- Why a list of bytes holds no instruction. No byte value is a reason: all 256 opcode bytes decode (R61, R64). -/
inductive DecodeError where
  /-- No opcode byte. -/
  | noOpcode
  /-- The operand bytes of this opcode are missing. -/
  | truncated (op : Byte)
  deriving DecidableEq, Repr

/-- The first instruction of a list of bytes, with the bytes after it. -/
def decode : List Byte → Except DecodeError (Instr × List Byte)
  | [] => .error .noOpcode
  | op :: rest =>
    match operandCount op, rest with
    | 0, r => .ok (decodeOp op 0 0, r)
    | 1, b :: r => .ok (decodeOp op b 0, r)
    | 2, b :: c :: r => .ok (decodeOp op b c, r)
    | _, _ => .error (.truncated op)

/-! ## Operand forms of each instruction -/

/-- The operand bytes of a memory form, the low byte of an address first (R56). -/
def MemForm.bytes : MemForm → List Byte
  | .zp b | .zpx b | .zpy b | .indx b | .indy b => [b]
  | .abs w | .absx w | .absy w => [loByte w, hiByte w]

def SrcForm.bytes : SrcForm → List Byte
  | .imm b => [b]
  | .mem m => m.bytes

def RmwForm.bytes : RmwForm → List Byte
  | .acc => []
  | .mem m => m.bytes

def AluMode.src : AluMode → SrcForm
  | .imm b => .imm b
  | .zp b => .mem (.zp b)
  | .zpx b => .mem (.zpx b)
  | .abs w => .mem (.abs w)
  | .absx w => .mem (.absx w)
  | .absy w => .mem (.absy w)
  | .indx b => .mem (.indx b)
  | .indy b => .mem (.indy b)

def LdxMode.src : LdxMode → SrcForm
  | .imm b => .imm b
  | .zp b => .mem (.zp b)
  | .zpy b => .mem (.zpy b)
  | .abs w => .mem (.abs w)
  | .absy w => .mem (.absy w)

def LdyMode.src : LdyMode → SrcForm
  | .imm b => .imm b
  | .zp b => .mem (.zp b)
  | .zpx b => .mem (.zpx b)
  | .abs w => .mem (.abs w)
  | .absx w => .mem (.absx w)

def CpMode.src : CpMode → SrcForm
  | .imm b => .imm b
  | .zp b => .mem (.zp b)
  | .abs w => .mem (.abs w)

def BitMode.src : BitMode → SrcForm
  | .zp b => .mem (.zp b)
  | .abs w => .mem (.abs w)

def StaMode.mem : StaMode → MemForm
  | .zp b => .zp b
  | .zpx b => .zpx b
  | .abs w => .abs w
  | .absx w => .absx w
  | .absy w => .absy w
  | .indx b => .indx b
  | .indy b => .indy b

def StxMode.mem : StxMode → MemForm
  | .zp b => .zp b
  | .zpy b => .zpy b
  | .abs w => .abs w

def StyMode.mem : StyMode → MemForm
  | .zp b => .zp b
  | .zpx b => .zpx b
  | .abs w => .abs w

def IncMode.mem : IncMode → MemForm
  | .zp b => .zp b
  | .zpx b => .zpx b
  | .abs w => .abs w
  | .absx w => .absx w

def ShiftMode.rmw : ShiftMode → RmwForm
  | .acc => .acc
  | .zp b => .mem (.zp b)
  | .zpx b => .mem (.zpx b)
  | .abs w => .mem (.abs w)
  | .absx w => .mem (.absx w)

def JmpMode.bytes : JmpMode → List Byte
  | .abs w | .ind w => [loByte w, hiByte w]

/-! ## The encoder -/

/-- The opcode byte of an instruction (R61, R62). -/
def Instr.opcode : Instr → Byte
  | .lda (.imm _) => 0xA9
  | .lda (.zp _) => 0xA5
  | .lda (.zpx _) => 0xB5
  | .lda (.abs _) => 0xAD
  | .lda (.absx _) => 0xBD
  | .lda (.absy _) => 0xB9
  | .lda (.indx _) => 0xA1
  | .lda (.indy _) => 0xB1
  | .ldx (.imm _) => 0xA2
  | .ldx (.zp _) => 0xA6
  | .ldx (.zpy _) => 0xB6
  | .ldx (.abs _) => 0xAE
  | .ldx (.absy _) => 0xBE
  | .ldy (.imm _) => 0xA0
  | .ldy (.zp _) => 0xA4
  | .ldy (.zpx _) => 0xB4
  | .ldy (.abs _) => 0xAC
  | .ldy (.absx _) => 0xBC
  | .sta (.zp _) => 0x85
  | .sta (.zpx _) => 0x95
  | .sta (.abs _) => 0x8D
  | .sta (.absx _) => 0x9D
  | .sta (.absy _) => 0x99
  | .sta (.indx _) => 0x81
  | .sta (.indy _) => 0x91
  | .stx (.zp _) => 0x86
  | .stx (.zpy _) => 0x96
  | .stx (.abs _) => 0x8E
  | .sty (.zp _) => 0x84
  | .sty (.zpx _) => 0x94
  | .sty (.abs _) => 0x8C
  | .tax => 0xAA
  | .tay => 0xA8
  | .tsx => 0xBA
  | .txa => 0x8A
  | .txs => 0x9A
  | .tya => 0x98
  | .adc (.imm _) => 0x69
  | .adc (.zp _) => 0x65
  | .adc (.zpx _) => 0x75
  | .adc (.abs _) => 0x6D
  | .adc (.absx _) => 0x7D
  | .adc (.absy _) => 0x79
  | .adc (.indx _) => 0x61
  | .adc (.indy _) => 0x71
  | .sbc (.imm _) => 0xE9
  | .sbc (.zp _) => 0xE5
  | .sbc (.zpx _) => 0xF5
  | .sbc (.abs _) => 0xED
  | .sbc (.absx _) => 0xFD
  | .sbc (.absy _) => 0xF9
  | .sbc (.indx _) => 0xE1
  | .sbc (.indy _) => 0xF1
  | .and (.imm _) => 0x29
  | .and (.zp _) => 0x25
  | .and (.zpx _) => 0x35
  | .and (.abs _) => 0x2D
  | .and (.absx _) => 0x3D
  | .and (.absy _) => 0x39
  | .and (.indx _) => 0x21
  | .and (.indy _) => 0x31
  | .ora (.imm _) => 0x09
  | .ora (.zp _) => 0x05
  | .ora (.zpx _) => 0x15
  | .ora (.abs _) => 0x0D
  | .ora (.absx _) => 0x1D
  | .ora (.absy _) => 0x19
  | .ora (.indx _) => 0x01
  | .ora (.indy _) => 0x11
  | .eor (.imm _) => 0x49
  | .eor (.zp _) => 0x45
  | .eor (.zpx _) => 0x55
  | .eor (.abs _) => 0x4D
  | .eor (.absx _) => 0x5D
  | .eor (.absy _) => 0x59
  | .eor (.indx _) => 0x41
  | .eor (.indy _) => 0x51
  | .cmp (.imm _) => 0xC9
  | .cmp (.zp _) => 0xC5
  | .cmp (.zpx _) => 0xD5
  | .cmp (.abs _) => 0xCD
  | .cmp (.absx _) => 0xDD
  | .cmp (.absy _) => 0xD9
  | .cmp (.indx _) => 0xC1
  | .cmp (.indy _) => 0xD1
  | .cpx (.imm _) => 0xE0
  | .cpx (.zp _) => 0xE4
  | .cpx (.abs _) => 0xEC
  | .cpy (.imm _) => 0xC0
  | .cpy (.zp _) => 0xC4
  | .cpy (.abs _) => 0xCC
  | .bit (.zp _) => 0x24
  | .bit (.abs _) => 0x2C
  | .inc (.zp _) => 0xE6
  | .inc (.zpx _) => 0xF6
  | .inc (.abs _) => 0xEE
  | .inc (.absx _) => 0xFE
  | .dec (.zp _) => 0xC6
  | .dec (.zpx _) => 0xD6
  | .dec (.abs _) => 0xCE
  | .dec (.absx _) => 0xDE
  | .inx => 0xE8
  | .iny => 0xC8
  | .dex => 0xCA
  | .dey => 0x88
  | .asl .acc => 0x0A
  | .asl (.zp _) => 0x06
  | .asl (.zpx _) => 0x16
  | .asl (.abs _) => 0x0E
  | .asl (.absx _) => 0x1E
  | .lsr .acc => 0x4A
  | .lsr (.zp _) => 0x46
  | .lsr (.zpx _) => 0x56
  | .lsr (.abs _) => 0x4E
  | .lsr (.absx _) => 0x5E
  | .rol .acc => 0x2A
  | .rol (.zp _) => 0x26
  | .rol (.zpx _) => 0x36
  | .rol (.abs _) => 0x2E
  | .rol (.absx _) => 0x3E
  | .ror .acc => 0x6A
  | .ror (.zp _) => 0x66
  | .ror (.zpx _) => 0x76
  | .ror (.abs _) => 0x6E
  | .ror (.absx _) => 0x7E
  | .jmp (.abs _) => 0x4C
  | .jmp (.ind _) => 0x6C
  | .jsr _ => 0x20
  | .rts => 0x60
  | .rti => 0x40
  | .bcc _ => 0x90
  | .bcs _ => 0xB0
  | .beq _ => 0xF0
  | .bmi _ => 0x30
  | .bne _ => 0xD0
  | .bpl _ => 0x10
  | .bvc _ => 0x50
  | .bvs _ => 0x70
  | .brk => 0x00
  | .pha => 0x48
  | .php => 0x08
  | .pla => 0x68
  | .plp => 0x28
  | .clc => 0x18
  | .cld => 0xD8
  | .cli => 0x58
  | .clv => 0xB8
  | .sec => 0x38
  | .sed => 0xF8
  | .sei => 0x78
  | .nop => 0xEA
  | .unknown op => op

/-- The operand bytes of an instruction (R56, R58). -/
def Instr.operands : Instr → List Byte
  | .lda m | .adc m | .sbc m | .and m | .ora m | .eor m | .cmp m => m.src.bytes
  | .ldx m => m.src.bytes
  | .ldy m => m.src.bytes
  | .sta m => m.mem.bytes
  | .stx m => m.mem.bytes
  | .sty m => m.mem.bytes
  | .cpx m | .cpy m => m.src.bytes
  | .bit m => m.src.bytes
  | .inc m | .dec m => m.mem.bytes
  | .asl m | .lsr m | .rol m | .ror m => m.rmw.bytes
  | .jmp m => m.bytes
  | .jsr w => [loByte w, hiByte w]
  | .bcc o | .bcs o | .beq o | .bmi o | .bne o | .bpl o | .bvc o | .bvs o => [o]
  | .tax | .tay | .tsx | .txa | .txs | .tya | .inx | .iny | .dex | .dey | .rts | .rti | .brk => []
  | .pha | .php | .pla | .plp | .clc | .cld | .cli | .clv | .sec | .sed | .sei | .nop => []
  | .unknown _ => []

/-- The bytes of an instruction, in the order they lie in memory. -/
def encode (i : Instr) : List Byte := i.opcode :: i.operands

/-! ## The host's numbering of an instruction's bits -/

/-- The bytes, first byte first, of an instruction whose bits are `w`, bit 0 the least significant bit of the first
byte, and whose bits from `nbits` up are 0: as many bytes as the longest instruction has. -/
def tableBytes (nbits w : Nat) : List Byte :=
  [BitVec.ofNat 8 (w % 2 ^ nbits), BitVec.ofNat 8 (w % 2 ^ nbits / 2 ^ 8), BitVec.ofNat 8 (w % 2 ^ nbits / 2 ^ 16)]

/-- The instruction the decoder reads from those bytes. -/
def decodeTableWord (nbits w : Nat) : Option Instr :=
  match decode (tableBytes nbits w) with
  | .ok (i, _) => some i
  | .error _ => none

end Sys2Proof
end

