-- ==== Sys2Proof/Config.lean ====
section
/-! DEFINITION. What an implementation fixes (00_scope R8). The parameters that have a reference value are the plain
data of `Config`, which a state carries and no step writes, so that a statement about every state is a statement about
every value of them. The parameters without a reference value are opaque constants: free values, of which nothing can
be proved but that they are values. -/

namespace Sys2Proof

/-- `PALETTE_TIMING` (61_ppu_oam R178). -/
inductive PaletteTiming where
  /-- The palette as it stands at frame start, for the whole frame (the reference value). -/
  | frameStart
  /-- The palette as it stands when each pixel is written. -/
  | live
  deriving DecidableEq, Repr

/-- A value of `UNKNOWN_OP_LENGTH` (R8: one of 1, 2, 3). -/
inductive OpLength where
  | one
  | two
  | three
  deriving DecidableEq, Repr

/-- The parameters of R8 that have a reference value. The three functions of an opcode are given by the entries in
which they differ from their reference value; `MAY_CONTINUE`, a function of the PC, by the PCs where it is false. -/
structure Config where
  /-- `CYCLES_PER_SCANLINE`, the N of 61_ppu_oam R195. -/
  cyclesPerScanline : Nat
  /-- `SPRITE_Y_OFFSET` (R188). -/
  spriteYOffset : Nat
  /-- `JMP_INDIRECT_PAGE_WRAP` (40_execution_and_addressing R80). -/
  jmpIndirectPageWrap : Bool
  /-- `PALETTE_TIMING` (R178). -/
  paletteTiming : PaletteTiming
  /-- `BASE_CYCLES` (30_encoding R63), where it is not the column "cycles" of R61. -/
  baseCycles : List (Byte × Nat)
  /-- `UNKNOWN_OP_CYCLES` (R64), where it is not 2. -/
  unknownOpCycles : List (Byte × Nat)
  /-- `UNKNOWN_OP_LENGTH` (R64), where it is not 1. -/
  unknownOpLength : List (Byte × OpLength)
  /-- The PCs at which `MAY_CONTINUE` is false (R86 to R88). -/
  stopAt : List Word
  deriving DecidableEq, Repr

/-- The reference configuration (R8). -/
def Config.reference : Config :=
  { cyclesPerScanline := 113
    spriteYOffset := 1
    jmpIndirectPageWrap := false
    paletteTiming := .frameStart
    baseCycles := []
    unknownOpCycles := []
    unknownOpLength := []
    stopAt := [] }

/-- `CYCLES_PER_SCANLINE` is a natural number > 0 (R8). -/
def Config.wf (c : Config) : Bool := decide (0 < c.cyclesPerScanline)

/-- A colour of the master palette (61_ppu_oam R177). -/
structure Rgb where
  r : Byte
  g : Byte
  b : Byte
  deriving DecidableEq, Repr, Inhabited

/-- `MASTER_PALETTE` (R177): the spec gives no values. A free value (log 6). -/
opaque Config.masterPalette : BitVec 6 → Rgb

/-! The functions of a cartridge other than the fixture (20_memory R49) and of an attached external device (R48), on
the collaborator's own state, which is owned externally and stands here for any plain data. Free values (logs 7, 8). -/

/-- `CartCpuRead` of a mapper, on its state. -/
opaque Config.mapperCpuRead : List Nat → Word → Byte × List Nat

/-- `CartCpuWrite` of a mapper. -/
opaque Config.mapperCpuWrite : List Nat → Word → Byte → List Nat

/-- `CartChrRead` of a mapper. -/
opaque Config.mapperChrRead : List Nat → PpuAddr → Byte × List Nat

/-- `CartChrWrite` of a mapper. -/
opaque Config.mapperChrWrite : List Nat → PpuAddr → Byte → List Nat

/-- `Mirror` of a mapper: logical to physical nametable index. -/
opaque Config.mapperMirror : List Nat → BitVec 2 → BitVec 2

/-- `ExtRead` of an attached device, on its state. -/
opaque Config.extRead : List Nat → Word → Byte × List Nat

/-- `ExtWrite` of an attached device. -/
opaque Config.extWrite : List Nat → Word → Byte → List Nat

end Sys2Proof
end

