-- ==== Sys2Proof/Machine/State.lean ====
section
/-! DEFINITION. The state of the CORE, plain data (10_state R16 to R38), the reasons a step can stop, and the state
after reset. -/

namespace Sys2Proof.Machine

/-- Sparse data by key: entries with rising keys, none equal to the value an unlisted key reads as. Memory.lean has
its operations and says the form. -/
abbrev SparseMap (α : Type) := List (Nat × α)

/-- A memory: bytes by address. An unlisted address reads as 0 (log 2). -/
abbrev Memory := SparseMap Byte

/-- A pixel of the frame buffer, 4 bytes RGBA (R34). -/
structure Pixel where
  r : Byte
  g : Byte
  b : Byte
  a : Byte
  deriving DecidableEq, Repr

/-- The four mirroring kinds (20_memory R49): the maps from logical to physical nametables. -/
inductive Mirroring where
  | horizontal
  | vertical
  | single (k : BitVec 2)
  | fourScreen
  deriving DecidableEq, Repr

/-- The attached cartridge and its own state (R27, 20_memory R49). -/
inductive Cart where
  /-- The fixture of 95_test_vectors section 0: bytes `prg` by CPU address, which CPU writes do not change, 8 KB of
  CHR RAM `chr`, and one of the four mirroring kinds. -/
  | fixture (prg chr : Memory) (mirroring : Mirroring)
  /-- Any other cartridge, with its own state: its functions are the free values `Config.mapper…`. -/
  | mapper (state : List Nat)
  deriving DecidableEq, Repr

/-- The external device at $4000-$4013 and $4015-$4017 (R27, 20_memory R48). -/
inductive ExtIo where
  /-- No device attached, the reference configuration. -/
  | absent
  /-- A device, with its own state: its functions are the free values `Config.ext…`. -/
  | attached (state : List Nat)
  deriving DecidableEq, Repr

/-- The PPU's registers, internal state and memories (R28 to R34). -/
structure Ppu where
  ctrl0 : Byte
  ctrl1 : Byte
  status : Byte
  /-- The current VRAM address. -/
  v : BitVec 15
  /-- The temporary VRAM address. -/
  t : BitVec 15
  /-- Fine-x. -/
  x : BitVec 3
  /-- The write toggle: false is 0, the next $2005/$2006 write is the first write. -/
  w : Bool
  /-- The read buffer for $2007. -/
  latch : Byte
  /-- The current visible scanline, 0 to 239. -/
  scanline : Nat
  oamaddr : Byte
  /-- 256 bytes. -/
  oam : Memory
  /-- 32 bytes. -/
  palette : Memory
  /-- The palette snapshot of a frame (61_ppu_oam R178, R193). -/
  paletteCache : Memory
  /-- Four nametables: `nt[k][o]` is at key `1024 * k + o`. -/
  nt : Memory
  /-- The frame buffer by scanline: a row of 256 pixels, left to right; an unlisted row is all (0, 0, 0, 0). -/
  fb : SparseMap (List Pixel)
  /-- The info plane by scanline; an unlisted row is all 0. -/
  info : SparseMap (List Byte)
  deriving DecidableEq, Repr

/-- Where `draw_frame` stands (61_ppu_oam R195): inside which `Execute` call, and that call's `start`
(40_execution_and_addressing R87). -/
inductive FramePhase where
  /-- No frame in progress. -/
  | idle
  /-- Step 2, the CPU budget of a visible line. -/
  | visible (line : Nat) (start : BitVec 64)
  /-- Step 3, the post-render budget. -/
  | postRender (start : BitVec 64)
  /-- Step 5, the VBlank budget. -/
  | vblank (start : BitVec 64)
  deriving DecidableEq, Repr

/-- What the outside does at one step (60_exceptions R165; log 4). -/
inductive HostInput where
  /-- Nothing: the frame in progress goes on, or, when none is, the host calls `step()`. -/
  | run
  /-- An IRQ is delivered (R151, R153). -/
  | irq
  /-- The host calls `reset()`. -/
  | reset
  /-- The host calls `draw_frame()`. -/
  | drawFrame
  /-- The host attaches a cartridge. -/
  | attachCart (c : Cart)
  /-- The host attaches, or with `absent` detaches, an external device. -/
  | attachExt (e : ExtIo)
  deriving DecidableEq, Repr

/-- The state of the CORE. -/
structure State where
  /-- The accumulator (R16). -/
  a : Byte
  /-- The index register X (R16). -/
  x : Byte
  /-- The index register Y (R16). -/
  y : Byte
  /-- The stack pointer (R17). -/
  sp : Byte
  /-- The program counter (R18). -/
  pc : Word
  /-- The processor status, bit 0 to bit 7: C Z I D B - V N (R19). -/
  p : Byte
  /-- The running cycle total (R23). -/
  cycles : BitVec 64
  /-- 2048 bytes of internal RAM (R26). -/
  ram : Memory
  ppu : Ppu
  cart : Cart
  ext : ExtIo
  /-- The bookkeeping bit of R37. -/
  faulted : Bool
  /-- Where a frame in progress stands. -/
  phase : FramePhase
  /-- What the outside does at the coming steps, oldest first; an empty list is `run` for ever (log 4). -/
  inputs : List HostInput
  /-- The parameters (00_scope R8), written by no step (log 5). -/
  cfg : Config
  deriving DecidableEq, Repr

/-- Why the machine stops. -/
inductive Fault where
  /-- `fault ProgrammerError` (60_exceptions R150): a step, or an interrupt service, is asked of a machine whose
  `faulted` bit is set, which takes none until reset (R37). Raised by the machine's step alone. Safe: no program sets
  the bit, and the step has no effect. -/
  | programmerError
  deriving DecidableEq, Repr

/-- What the model does not give a meaning. -/
inductive Refusal where
  /-- An instruction that has no meaning yet; raised by exec's arms only. Safe. -/
  | notModelled (mnemonic : String)
  /-- A host call inside another one (R165; 93 section 1 treats it as `refuse`); raised by the machine's step. Safe. -/
  | overlappingCall
  deriving DecidableEq, Repr

/-- The PPU after reset: registers 0, memories with nothing listed (R38). -/
def Ppu.reset : Ppu :=
  { ctrl0 := 0, ctrl1 := 0, status := 0, v := 0, t := 0, x := 0, w := false, latch := 0, scanline := 0, oamaddr := 0,
    oam := [], palette := [], paletteCache := [], nt := [], fb := [], info := [] }

/-- The machine right after reset (R38, 70_reset_and_hazards R198), in the reference configuration, with a blank
cartridge of the fixture kind (log 1), whose bytes at 0xFFFC and 0xFFFD are 0. -/
def State.reset : State :=
  { a := 0, x := 0, y := 0, sp := 0xFD, pc := 0x0000, p := 0x00, cycles := 7,
    ram := [], ppu := Ppu.reset, cart := .fixture [] [] .vertical, ext := .absent, faulted := false,
    phase := .idle, inputs := [], cfg := Config.reference }

end Sys2Proof.Machine
end

