-- ==== Sys2Proof/Machine/Flags.lean ====
section
/-! DEFINITION. The flags of P (10_state R19 to R22), the status images, and the results and flags of the
computations on bytes: add, subtract, compare, shift and rotate. Sums and differences are taken as integers and
narrowed at the end. -/

namespace Sys2Proof.Machine

/-- The six flags that P stores (R19, R20). -/
inductive Flag where
  | c
  | z
  | i
  | d
  | v
  | n
  deriving DecidableEq, Repr

/-- The bit of P a flag stands at (R19). -/
def Flag.pos : Flag → Nat
  | .c => 0
  | .z => 1
  | .i => 2
  | .d => 3
  | .v => 6
  | .n => 7

/-- A flag of a status byte; V is bit 6 (R22). -/
def getFlag (p : Byte) (f : Flag) : Bool := p.getLsbD f.pos

/-- A status byte with one flag written. -/
def setFlag (p : Byte) (f : Flag) (b : Bool) : Byte :=
  if b then p ||| BitVec.twoPow 8 f.pos else p &&& ~~~(BitVec.twoPow 8 f.pos)

/-- Bits 4 and 5 of a status byte, which P holds at 0 (R20). -/
def heldBits (p : Byte) : Byte := p &&& 0x30

/-- `SetNZ(r)` (00_scope R12). -/
def setNZ (r : Byte) (p : Byte) : Byte := setFlag (setFlag p .z (r == 0)) .n (r.getLsbD 7)

/-- The image of P that PHP and BRK push: B and bit 5 set (45 R137, 44 R135). -/
def breakImage (p : Byte) : Byte := p ||| 0x30

/-- The image of P that IRQ and NMI push: bit 5 set, B clear (60_exceptions R153, R154). -/
def interruptImage (p : Byte) : Byte := (p ||| 0x20) &&& 0xEF

/-- What PLP and RTI write to P of a pulled byte: bits 4 and 5 stay 0 (R20). -/
def pulledStatus (b : Byte) : Byte := b &&& 0xCF

/-- A result with the carry it leaves. -/
structure CarryResult where
  r : Byte
  c : Bool
  deriving DecidableEq, Repr

/-- A result with the carry and the overflow it leaves. -/
structure ArithResult where
  r : Byte
  c : Bool
  v : Bool
  deriving DecidableEq, Repr

/-- ADC (42 R102) of A, M and the carry in. -/
def addResult (a m : Byte) (cin : Bool) : ArithResult :=
  let sum := a.toNat + m.toNat + cin.toNat
  let r := BitVec.ofNat 8 sum
  { r := r, c := decide (0xFF < sum), v := ((~~~(a ^^^ m)) &&& (a ^^^ r)).getLsbD 7 }

/-- SBC (42 R103) of A, M and the carry in, which is the borrow inverted. -/
def subResult (a m : Byte) (cin : Bool) : ArithResult :=
  let diff : Int := (a.toNat : Int) - m.toNat - (1 - cin.toNat)
  let r := BitVec.ofInt 8 diff
  { r := r, c := decide (0 ≤ diff), v := ((a ^^^ m) &&& (a ^^^ r)).getLsbD 7 }

/-- P after ADC or SBC: C, V, N and Z (R102, R103). -/
def arithFlags (q : ArithResult) (p : Byte) : Byte := setNZ q.r (setFlag (setFlag p .c q.c) .v q.v)

/-- P after a compare of a register with M (R107 to R109): unsigned, no carry in. -/
def compareFlags (reg m : Byte) (p : Byte) : Byte := setNZ (reg - m) (setFlag p .c (decide (m.toNat ≤ reg.toNat)))

/-- P after BIT (R110): N and V from M, Z from A and M. -/
def bitFlags (a m : Byte) (p : Byte) : Byte :=
  setFlag (setFlag (setFlag p .n (m.getLsbD 7)) .v (m.getLsbD 6)) .z ((a &&& m) == 0)

/-- ASL (43 R117); the carry in is not used. -/
def aslResult (v : Byte) (_cin : Bool) : CarryResult := { r := v <<< 1, c := v.getLsbD 7 }

/-- LSR (R118); the carry in is not used. -/
def lsrResult (v : Byte) (_cin : Bool) : CarryResult := { r := v >>> 1, c := v.getLsbD 0 }

/-- ROL (R119). -/
def rolResult (v : Byte) (cin : Bool) : CarryResult :=
  { r := (v <<< 1) ||| BitVec.ofNat 8 cin.toNat, c := v.getLsbD 7 }

/-- ROR (R120). -/
def rorResult (v : Byte) (cin : Bool) : CarryResult :=
  { r := (BitVec.ofNat 8 cin.toNat <<< 7) ||| (v >>> 1), c := v.getLsbD 0 }

/-- P after a shift: C, N and Z (R117 to R120). -/
def shiftFlags (q : CarryResult) (p : Byte) : Byte := setNZ q.r (setFlag p .c q.c)

end Sys2Proof.Machine
end

