-- ==== Sys2Proof/Machine/Memory.lean ====
section
/-! DEFINITION. The operations of a sparse map, its canonical form, and of a memory, which is one of bytes. -/

namespace Sys2Proof.Machine

/-- The value at a key; `d` where none is listed. -/
def SparseMap.get {α : Type} (d : α) : SparseMap α → Nat → α
  | [], _ => d
  | (k, v) :: m, i => if i = k then v else SparseMap.get d m i

/-- Set the value at a key, keeping the keys rising; setting the value an unlisted key reads as removes the entry. -/
def SparseMap.set {α : Type} [DecidableEq α] (d : α) : SparseMap α → Nat → α → SparseMap α
  | [], i, v => if v = d then [] else [(i, v)]
  | (k, w) :: m, i, v =>
    if i < k then (if v = d then (k, w) :: m else (i, v) :: (k, w) :: m)
    else if i = k then (if v = d then m else (i, v) :: m)
    else (k, w) :: SparseMap.set d m i v

/-- The canonical form from a key on: keys rising from `lo`, below `size`, and no entry equal to `d`. -/
def SparseMap.wfFrom {α : Type} [DecidableEq α] (d : α) (size : Nat) : Nat → SparseMap α → Bool
  | _, [] => true
  | lo, (k, v) :: m => decide (lo ≤ k) && decide (k < size) && decide (v ≠ d) && SparseMap.wfFrom d size (k + 1) m

/-- The canonical form of a map with keys below `size`. -/
abbrev SparseMap.wf {α : Type} [DecidableEq α] (d : α) (size : Nat) (m : SparseMap α) : Bool :=
  SparseMap.wfFrom d size 0 m

/-- The byte at an address. -/
abbrev Memory.get (m : Memory) (i : Nat) : Byte := SparseMap.get 0 m i

/-- Write a byte. -/
abbrev Memory.set (m : Memory) (i : Nat) (v : Byte) : Memory := SparseMap.set 0 m i v

/-- The canonical form of a memory of `size` bytes. -/
abbrev Memory.wf (size : Nat) (m : Memory) : Bool := SparseMap.wf (0 : Byte) size m

end Sys2Proof.Machine
end

