-- ==== Sys2Proof/Machine/Ppu.lean ====
section
/-! DEFINITION. The cartridge and external device interfaces (20_memory R48, R49), the PPU's address space
(61_ppu_oam R176), its register surface (R166 to R175) and the scroll state machine's moves (R179 to R182). -/

namespace Sys2Proof.Machine

/-! ## The external collaborators -/

/-- `CartCpuRead(a)` (R49). -/
def cartCpuRead (a : Word) (s : State) : Byte × State :=
  match s.cart with
  | .fixture prg _ _ => (prg.get a.toNat, s)
  | .mapper m => ((Config.mapperCpuRead m a).1, { s with cart := .mapper (Config.mapperCpuRead m a).2 })

/-- `CartCpuWrite(a, v)` (R49): the fixture ignores it. -/
def cartCpuWrite (a : Word) (v : Byte) (s : State) : State :=
  match s.cart with
  | .fixture _ _ _ => s
  | .mapper m => { s with cart := .mapper (Config.mapperCpuWrite m a v) }

/-- The value `CartChrRead(a)` returns (R49); what the renderer's peek uses (R184). -/
def cartChrPeek (c : Cart) (a : PpuAddr) : Byte :=
  match c with
  | .fixture _ chr _ => chr.get a.toNat
  | .mapper m => (Config.mapperChrRead m a).1

/-- The state `CartChrRead(a)` leaves the cartridge in (R49). -/
def cartAfterChrRead (c : Cart) (a : PpuAddr) : Cart :=
  match c with
  | .fixture _ _ _ => c
  | .mapper m => .mapper (Config.mapperChrRead m a).2

/-- `CartChrWrite(a, v)` (R49): the fixture's CHR space is RAM. -/
def cartChrWrite (c : Cart) (a : PpuAddr) (v : Byte) : Cart :=
  match c with
  | .fixture prg chr mir => .fixture prg (chr.set a.toNat v) mir
  | .mapper m => .mapper (Config.mapperChrWrite m a v)

/-- The logical-to-physical maps of the four mirroring kinds (R49). -/
def Mirroring.map (k : Mirroring) (n : BitVec 2) : BitVec 2 :=
  match k with
  | .horizontal => if n.toNat < 2 then 0 else 1
  | .vertical => if n.toNat % 2 = 0 then 0 else 1
  | .single j => j
  | .fourScreen => n

/-- `Mirror(cart, n)` (R49). -/
def mirror (c : Cart) (n : BitVec 2) : BitVec 2 :=
  match c with
  | .fixture _ _ mir => mir.map n
  | .mapper m => Config.mapperMirror m n

/-- `ExtRead(a)` (R48): 0 when no device is attached. -/
def extRead (a : Word) (s : State) : Byte × State :=
  match s.ext with
  | .absent => (0, s)
  | .attached e => ((Config.extRead e a).1, { s with ext := .attached (Config.extRead e a).2 })

/-- `ExtWrite(a, v)` (R48): nothing when no device is attached. -/
def extWrite (a : Word) (v : Byte) (s : State) : State :=
  match s.ext with
  | .absent => s
  | .attached e => { s with ext := .attached (Config.extWrite e a v) }

/-! ## Fields of the PPU's registers (R28 to R30) -/

/-- ctrl0 bit 2: the VRAM increment, `Inc()` of R174. -/
def Ppu.inc (p : Ppu) : BitVec 15 := if p.ctrl0.getLsbD 2 then 32 else 1

/-- ctrl0 bit 7, NMIE. -/
def Ppu.nmiEnabled (p : Ppu) : Bool := p.ctrl0.getLsbD 7

/-- ctrl1 bit 3, BGE. -/
def Ppu.bgEnabled (p : Ppu) : Bool := p.ctrl1.getLsbD 3

/-- ctrl1 bit 4, SPE. -/
def Ppu.spritesEnabled (p : Ppu) : Bool := p.ctrl1.getLsbD 4

/-- Either renderer is enabled (R179). -/
def Ppu.rendering (p : Ppu) : Bool := p.bgEnabled || p.spritesEnabled

/-- Write status bit 7, VBL. -/
def Ppu.setVbl (b : Bool) (p : Ppu) : Ppu :=
  { p with status := if b then p.status ||| 0x80 else p.status &&& 0x7F }

/-! ## The PPU address space (R176) -/

/-- `PalIndex(a)` (R176). -/
def palIndex (a : PpuAddr) : Nat :=
  if a.toNat % 32 ∈ [0x10, 0x14, 0x18, 0x1C] then a.toNat % 32 - 0x10 else a.toNat % 32

/-- The logical nametable byte of an address in 0x2000-0x3EFF: 0x3000-0x3EFF mirrors 0x2000-0x2EFF (R176). -/
def ntAddr (a : PpuAddr) : PpuAddr := if 0x3000 ≤ a.toNat then a - 0x1000 else a

/-- The key of a nametable address in `nt`: physical nametable and offset (R176). -/
def ntKey (c : Cart) (a : PpuAddr) : Nat :=
  1024 * (mirror c ((ntAddr a).extractLsb' 10 2)).toNat + (ntAddr a).toNat % 1024

/-- `VramPeek(a)` (R184): the byte `VramRead(a)` returns, with no side effect. -/
def vramPeek (s : State) (a : PpuAddr) : Byte :=
  if a.toNat < 0x2000 then cartChrPeek s.cart a
  else if a.toNat < 0x3F00 then s.ppu.nt.get (ntKey s.cart a)
  else s.ppu.palette.get (palIndex a)

/-- `VramRead(a)` (R176): a CHR read may change the cartridge's state (R49). -/
def vramRead (a : PpuAddr) (s : State) : Byte × State :=
  if a.toNat < 0x2000 then (vramPeek s a, { s with cart := cartAfterChrRead s.cart a }) else (vramPeek s a, s)

/-- `VramWrite(a, d)` (R176). -/
def vramWrite (a : PpuAddr) (d : Byte) (s : State) : State :=
  if a.toNat < 0x2000 then { s with cart := cartChrWrite s.cart a d }
  else if a.toNat < 0x3F00 then { s with ppu := { s.ppu with nt := s.ppu.nt.set (ntKey s.cart a) d } }
  else { s with ppu := { s.ppu with palette := s.ppu.palette.set (palIndex a) d } }

/-- The PPU address `v & 0x3FFF` (R174, R175). -/
def vramAddr (v : BitVec 15) : PpuAddr := v.setWidth 14

/-! ## The register surface -/

/-- `fault ProgrammerError(a)` (60_exceptions R150, R12). -/
def programmerError (s : State) : State := { s with faulted := true }

/-- `v <- (v + Inc()) & 0x7FFF` (R174, R175). -/
def Ppu.bumpV (p : Ppu) : Ppu := { p with v := p.v + p.inc }

/-- Read $2002 (R166): bits 7..5, clearing VBlank and the toggle. -/
def ppuStatusRead (s : State) : Byte × State :=
  (s.ppu.status &&& 0xE0, { s with ppu := { s.ppu.setVbl false with w := false } })

/-- Read $2004 (R166): no advance. -/
def oamDataRead (s : State) : Byte := s.ppu.oam.get s.ppu.oamaddr.toNat

/-- Read $2007, `PpuDataRead` (R175): a palette byte at once, else the latch, which is refilled. -/
def ppuDataRead (s : State) : Byte × State :=
  if 0x3F00 ≤ (vramAddr s.ppu.v).toNat then
    (s.ppu.palette.get (palIndex (vramAddr s.ppu.v)), { s with ppu := s.ppu.bumpV })
  else
    let r := vramRead (vramAddr s.ppu.v) s
    (s.ppu.latch, { r.2 with ppu := { r.2.ppu with latch := r.1 }.bumpV })

/-- `PpuRegRead(a)` (R166). The byte read beside a programmer error is seen by no one (log 10). -/
def ppuRegRead (a : Word) (s : State) : Byte × State :=
  if a = 0x2002 then ppuStatusRead s
  else if a = 0x2004 then (oamDataRead s, s)
  else if a = 0x2007 then ppuDataRead s
  else if a = 0x2000 ∨ a = 0x2001 ∨ a = 0x2003 ∨ a = 0x2005 ∨ a = 0x2006 then (0, s)
  else (0, programmerError s)

/-- Write $2000 (R168): ctrl0, and t[11:10] from d[1:0]. -/
def ctrl0Write (d : Byte) (p : Ppu) : Ppu :=
  { p with ctrl0 := d, t := (p.t &&& 0x73FF) ||| ((d &&& 0x03).setWidth 15 <<< 10) }

/-- Write $2001 (R169). -/
def ctrl1Write (d : Byte) (p : Ppu) : Ppu := { p with ctrl1 := d }

/-- Write $2003 (R170). -/
def oamAddrWrite (d : Byte) (p : Ppu) : Ppu := { p with oamaddr := d }

/-- Write $2004 (R171): the address advances, modulo 256. -/
def oamDataWrite (d : Byte) (p : Ppu) : Ppu :=
  { p with oam := p.oam.set p.oamaddr.toNat d, oamaddr := p.oamaddr + 1 }

/-- Write $2005 (R172): the first write sets coarse-x in t and fine-x, the second coarse-y and fine-y in t. -/
def scrollWrite (d : Byte) (p : Ppu) : Ppu :=
  if p.w then
    { p with
      t := (p.t &&& 0x0C1F) ||| ((d &&& 0x07).setWidth 15 <<< 12) ||| ((d >>> 3).setWidth 15 <<< 5)
      w := false }
  else
    { p with t := (p.t &&& 0x7FE0) ||| (d >>> 3).setWidth 15, x := d.setWidth 3, w := true }

/-- Write $2006 (R173): the first write sets t[13:8] and clears t[14], the second sets t[7:0] and copies t to v. -/
def addrWrite (d : Byte) (p : Ppu) : Ppu :=
  if p.w then
    { p with
      t := (p.t &&& 0x7F00) ||| d.setWidth 15
      v := (p.t &&& 0x7F00) ||| d.setWidth 15
      w := false }
  else
    { p with t := (p.t &&& 0x00FF) ||| ((d &&& 0x3F).setWidth 15 <<< 8), w := true }

/-- Write $2007 (R174). -/
def ppuDataWrite (d : Byte) (s : State) : State :=
  let s1 := vramWrite (vramAddr s.ppu.v) d s
  { s1 with ppu := s1.ppu.bumpV }

/-- `PpuRegWrite(a, d)` (R167); a write to $2002 is ignored. -/
def ppuRegWrite (a : Word) (d : Byte) (s : State) : State :=
  if a = 0x2000 then { s with ppu := ctrl0Write d s.ppu }
  else if a = 0x2001 then { s with ppu := ctrl1Write d s.ppu }
  else if a = 0x2002 then s
  else if a = 0x2003 then { s with ppu := oamAddrWrite d s.ppu }
  else if a = 0x2004 then { s with ppu := oamDataWrite d s.ppu }
  else if a = 0x2005 then { s with ppu := scrollWrite d s.ppu }
  else if a = 0x2006 then { s with ppu := addrWrite d s.ppu }
  else if a = 0x2007 then ppuDataWrite d s
  else programmerError s

/-! ## The scroll state machine -/

/-- The horizontal copy at the start of a scanline (R180). -/
def horizontalCopy (v t : BitVec 15) : BitVec 15 := (v &&& 0x7BE0) ||| (t &&& 0x041F)

/-- `AdvanceX()` (R181) on the fine-x counter and v. -/
def advanceX (fx : BitVec 3) (v : BitVec 15) : BitVec 3 × BitVec 15 :=
  if fx + 1 = 0 then
    (0, if v.extractLsb' 0 5 = 31 then (v &&& 0x7FE0) ^^^ 0x0400 else v + 1)
  else (fx + 1, v)

/-- `AdvanceY()` (R182). -/
def advanceY (v : BitVec 15) : BitVec 15 :=
  if v.extractLsb' 12 3 < 7 then v + 0x1000
  else
    let v0 := v &&& 0x0FFF
    let y := v0.extractLsb' 5 5
    let v1 := if y = 29 then v0 ^^^ 0x0800 else v0
    let y1 : BitVec 5 := if y = 29 then 0 else if y = 31 then 0 else y + 1
    (v1 &&& 0x7C1F) ||| (y1.setWidth 15 <<< 5)

end Sys2Proof.Machine
end

