-- ==== Sys2Proof/Machine/Ops.lean ====
section
/-! DEFINITION. The named operations over registers and memory: cycle charges, the CPU bus with the OAM DMA
(20_memory R46, R47; 61_ppu_oam R197), the stack (R52), and taking and leaving an interrupt (60_exceptions R153 to
R158), each said once. -/

namespace Sys2Proof.Machine

/-! ## Cycles -/

/-- `Charge(n)` (00_scope R12); added to `cycles` at once (40 R69). -/
def charge (n : Nat) (s : State) : State := { s with cycles := s.cycles + BitVec.ofNat 64 n }

/-- The entry of an opcode in a list of entries, or the reference value. -/
def entryOr {α : Type} (op : Byte) (dflt : α) : List (Byte × α) → α
  | [] => dflt
  | (k, v) :: r => if k = op then v else entryOr op dflt r

/-- The column "cycles" of the table R61. -/
def referenceCycles (op : Byte) : Nat :=
  match opRow op with
  | some r => r.cycles
  | none => 0

/-- `BASE_CYCLES(op)` (30 R63), for a documented opcode. -/
def baseCycles (c : Config) (op : Byte) : Nat := entryOr op (referenceCycles op) c.baseCycles

/-- `UNKNOWN_OP_CYCLES(op)` (30 R64). -/
def unknownOpCycles (c : Config) (op : Byte) : Nat := entryOr op 2 c.unknownOpCycles

/-- A length as a number. -/
def OpLength.toNat : OpLength → Nat
  | .one => 1
  | .two => 2
  | .three => 3

/-- `UNKNOWN_OP_LENGTH(op)` (30 R64). -/
def unknownOpLength (c : Config) (op : Byte) : Nat := OpLength.toNat (entryOr op .one c.unknownOpLength)

/-! ## The CPU bus -/

/-- `ram[addr & 0x07FF]` (R45). -/
def ramKey (a : Word) : Nat := a.toNat % 2048

/-- The PPU register an address in 0x2000-0x3FFF collapses onto (R45). -/
def ppuRegAddr (a : Word) : Word := 0x2000 + (a &&& 0x0007)

/-- `Read8(a)` (R46): the byte, and the state with the read's side effects. -/
def read8 (a : Word) (s : State) : Byte × State :=
  if a.toNat ≤ 0x1FFF then (s.ram.get (ramKey a), s)
  else if a.toNat ≤ 0x3FFF then ppuRegRead (ppuRegAddr a) s
  else if a = 0x4014 then (0, s)
  else if a.toNat ≤ 0x4017 then extRead a s
  else if a.toNat ≤ 0x401F then (0, s)
  else cartCpuRead a s

/-- Write a byte of internal RAM. -/
def ramWrite (a : Word) (v : Byte) (s : State) : State := { s with ram := s.ram.set (ramKey a) v }

/-- Write a byte of OAM. -/
def oamWrite (i : Nat) (v : Byte) (s : State) : State := { s with ppu := { s.ppu with oam := s.ppu.oam.set i v } }

/-- One byte of the OAM DMA: `oam[i] <- Read8(base + i)` (61 R197). -/
def dmaByte (base : Word) (s : State) (i : Nat) : State :=
  let r := read8 (base + BitVec.ofNat 16 i) s
  oamWrite i r.1 r.2

/-- The copy of an OAM DMA: 256 bus reads in increasing order (61 R197, 20 R47). -/
def dmaCopy (base : Word) (s : State) : State := (List.range 256).foldl (dmaByte base) s

/-- `OamDma(d)` (61 R197). -/
def oamDma (d : Byte) (s : State) : State := charge 512 (dmaCopy (mkWord d 0) s)

/-- `Write8(a, v)` (R46). -/
def write8 (a : Word) (v : Byte) (s : State) : State :=
  if a.toNat ≤ 0x1FFF then ramWrite a v s
  else if a.toNat ≤ 0x3FFF then ppuRegWrite (ppuRegAddr a) v s
  else if a = 0x4014 then oamDma v s
  else if a.toNat ≤ 0x4017 then extWrite a v s
  else if a.toNat ≤ 0x401F then s
  else cartCpuWrite a v s

/-- `{Read8(hi), Read8(lo)}`, the low byte read first (00 R11, 20 R41). -/
def readPair (lo hi : Word) (s : State) : Word × State :=
  let l := read8 lo s
  let h := read8 hi l.2
  (mkWord h.1 l.1, h.2)

/-- `Read16(addr)` (00 R11). -/
def read16 (a : Word) (s : State) : Word × State := readPair a (a + 1) s

/-! ## The stack -/

/-- `0x0100 | SP` (R17, R52). -/
def stackAddr (sp : Byte) : Word := 0x0100 ||| zext16 sp

/-- `Push8(b)` (00 R11). -/
def push8 (b : Byte) (s : State) : State :=
  let s1 := write8 (stackAddr s.sp) b s
  { s1 with sp := s1.sp - 1 }

/-- `Pull8()` (00 R11). -/
def pull8 (s : State) : Byte × State :=
  let s1 := { s with sp := s.sp + 1 }
  read8 (stackAddr s1.sp) s1

/-- `Push16(w)` (00 R11): the high byte first. -/
def push16 (w : Word) (s : State) : State := push8 (loByte w) (push8 (hiByte w) s)

/-- `Pull16()` (00 R11): the low byte first. -/
def pull16 (s : State) : Word × State :=
  let l := pull8 s
  let h := pull8 l.2
  (mkWord h.1 l.1, h.2)

/-! ## Flags of the state -/

/-- Write one flag of P. -/
def setFlagOf (f : Flag) (b : Bool) (s : State) : State := { s with p := setFlag s.p f b }

/-- Apply a computation of flags to P. -/
def updateP (g : Byte → Byte) (s : State) : State := { s with p := g s.p }

/-! ## Taking an interrupt and returning from one -/

/-- The NMI vector (R50). -/
def nmiVector : Word := 0xFFFA

/-- The RESET vector (R50). -/
def resetVector : Word := 0xFFFC

/-- The IRQ and BRK vector (R50). -/
def irqVector : Word := 0xFFFE

/-- `PC <- Read16(vector)`. -/
def jumpVector (vector : Word) (s : State) : State :=
  let r := read16 vector s
  { r.2 with pc := r.1 }

/-- What BRK, IRQ and NMI have in common (60 R156): push the saved PC, high then low, and an image of P; set I; jump
through the vector. -/
def enterInterrupt (saved : Word) (image : Byte) (vector : Word) (s : State) : State :=
  jumpVector vector (setFlagOf .i true (push8 image (push16 saved s)))

/-- The software entry of BRK (44 R135): past the padding byte, B set in the image. -/
def breakEntry (s : State) : State := enterInterrupt (s.pc + 1) (breakImage s.p) irqVector s

/-- `IrqService()` (60 R153): dropped when I = 1. -/
def irqService (s : State) : State :=
  if getFlag s.p .i then s else charge 7 (enterInterrupt s.pc (interruptImage s.p) irqVector s)

/-- `NmiService()` (60 R154): not gated by I. -/
def nmiService (s : State) : State := charge 7 (enterInterrupt s.pc (interruptImage s.p) nmiVector s)

/-- The return from an interrupt (44 R125, 60 R158): P, then PC, with no 1 added. -/
def returnFromInterrupt (s : State) : State :=
  let r := pull8 s
  let w := pull16 { r.2 with p := pulledStatus r.1 }
  { w.2 with pc := w.1 }

/-! ## Reset -/

/-- The PPU's part of `reset()` (70 R198): its registers and the frame buffer; the memories stay. -/
def Ppu.afterReset (p : Ppu) : Ppu :=
  { p with
    ctrl0 := 0, ctrl1 := 0, status := 0, v := 0, t := 0, x := 0, w := false, latch := 0, oamaddr := 0, scanline := 0,
    fb := [], info := [] }

/-- `reset()` (70 R198, 60 R155): the registers, then PC from the reset vector through the bus, then 7 cycles. -/
def resetService (s : State) : State :=
  charge 7 (jumpVector resetVector
    { s with
      a := 0, x := 0, y := 0, p := 0x00, sp := 0xFD, cycles := 0, ppu := s.ppu.afterReset, faulted := false })

/-! ## Placing a program's bytes from outside -/

/-- A byte can be placed at an address from outside: internal RAM, or the fixture cartridge's contents. -/
def placeable (a : Word) (s : State) : Bool :=
  decide (a.toNat ≤ 0x1FFF) ||
    (decide (0x4020 ≤ a.toNat) && (match s.cart with | .fixture _ _ _ => true | .mapper _ => false))

/-- Place a byte from outside, with no bus access. -/
def placeByte (a : Word) (b : Byte) (s : State) : State :=
  if a.toNat ≤ 0x1FFF then ramWrite a b s
  else
    match s.cart with
    | .fixture prg chr mir => { s with cart := .fixture (prg.set a.toNat b) chr mir }
    | .mapper _ => s

/-- Place bytes from an address on. -/
def placeBytes (a : Word) : List Byte → State → State
  | [], s => s
  | b :: bs, s => placeBytes (a + 1) bs (placeByte a b s)

/-- Every address of `n` from one on can be placed. -/
def placeableFrom (a : Word) (s : State) : Nat → Bool
  | 0 => true
  | n + 1 => placeable a s && placeableFrom (a + 1) s n

/-- Make the machine ready to fetch at its PC at its next step: not faulted, no frame in progress, nothing asked from
outside, the debugger willing. -/
def readyToFetch (s : State) : State :=
  { s with
    faulted := false, phase := .idle, inputs := [], cfg := { s.cfg with stopAt := s.cfg.stopAt.filter (· != s.pc) } }

/-- The state whose next step fetches the given bytes at its PC. Where the PC does not point to bytes that can be
placed (a PPU or device register, nothing, a mapper), the PC is moved to 0x0000, in RAM. -/
def withFetchBytes (bs : List Byte) (s : State) : State :=
  if placeableFrom s.pc s bs.length then placeBytes s.pc bs (readyToFetch s)
  else placeBytes 0x0000 bs (readyToFetch { s with pc := 0x0000 })

end Sys2Proof.Machine
end

