-- ==== Sys2Proof/Machine/Operands.lean ====
section
/-! DEFINITION. The effective address of every operand form (40_execution_and_addressing R71 to R83), the operand
value M (R70) and the page-crossing penalty (R84), said once for all instructions. -/

namespace Sys2Proof.Machine

/-- What the effective-address computation delivers: the address, whether it crossed a page, and the state after the
pointer's reads. -/
structure Ea where
  addr : Word
  crossed : Bool
  st : State

/-- `ea = base + index`, and whether its page is not the base's (R78, R79, R82). -/
def indexed (base : Word) (index : Byte) (s : State) : Ea :=
  { addr := base + zext16 index, crossed := hiByte (base + zext16 index) != hiByte base, st := s }

/-- `ea` with no page crossing. -/
def direct (a : Word) (s : State) : Ea := { addr := a, crossed := false, st := s }

/-- The 16-bit pointer at a page-0 address, its second byte within page 0 too (R81, R82). -/
def zpPointer (p : Byte) (s : State) : Word × State := readPair (zext16 p) (zext16 (p + 1)) s

/-- The effective address of a memory form (R74 to R79, R81, R82). -/
def effAddr : MemForm → State → Ea
  | .zp b, s => direct (zext16 b) s
  | .zpx b, s => direct (zext16 (b + s.x)) s
  | .zpy b, s => direct (zext16 (b + s.y)) s
  | .abs w, s => direct w s
  | .absx w, s => indexed w s.x s
  | .absy w, s => indexed w s.y s
  | .indx b, s => let q := zpPointer (b + s.x) s; direct q.1 q.2
  | .indy b, s => let q := zpPointer b s; indexed q.1 q.2.y q.2

/-- The page-crossing penalty of a reading instruction (R84). -/
def crossPenalty (e : Ea) : State := if e.crossed then charge 1 e.st else e.st

/-- The operand value M of a reading instruction (R70), with the page-crossing penalty charged (R84). -/
def readOperand : SrcForm → State → Byte × State
  | .imm b, s => (b, s)
  | .mem m, s => let e := effAddr m s; read8 e.addr (crossPenalty e)

/-- What a storing instruction does (R70): one write at the effective address, no read, no penalty. -/
def storeOperand (m : MemForm) (v : Byte) (s : State) : State :=
  let e := effAddr m s
  write8 e.addr v e.st

/-- A read-modify-write of memory (R70): one read and one write at the same address, no penalty; the computation gives
the byte written and what becomes of P. -/
def modifyMemory (m : MemForm) (f : Byte → Byte → Byte × Byte) (s : State) : State :=
  let e := effAddr m s
  let r := read8 e.addr e.st
  let q := f r.1 r.2.p
  write8 e.addr q.1 { r.2 with p := q.2 }

/-- The target of JMP (Indirect) (R80): the toggle decides whether the pointer's second byte stays in its page. -/
def indirectTarget (ptr : Word) (s : State) : Word × State :=
  if s.cfg.jmpIndirectPageWrap && loByte ptr == 0xFF then readPair ptr (ptr &&& 0xFF00) s else read16 ptr s

/-- The target of a branch (R83), from the PC after the operand. -/
def branchTarget (off : Byte) (pc : Word) : Word := pc + sext16 off

/-- The penalty of a taken branch (R85): 1, or 2 in all when the target is in another page than the PC. -/
def branchPenalty (target pc : Word) : Nat := if hiByte target = hiByte pc then 1 else 2

end Sys2Proof.Machine
end

