-- ==== Sys2Proof/Machine/LoadStore.lean ====
section
/-! DEFINITION. Load, store and transfer instructions (41_load_store_transfer R89 to R100). -/

namespace Sys2Proof.Machine

/-- What an instruction answers. -/
abbrev Result := Host.Outcome State Fault Refusal

/-- Write A, and N and Z from it. -/
def setA (r : Byte) (s : State) : State := { s with a := r, p := setNZ r s.p }

/-- Write X, and N and Z from it. -/
def setX (r : Byte) (s : State) : State := { s with x := r, p := setNZ r s.p }

/-- Write Y, and N and Z from it. -/
def setY (r : Byte) (s : State) : State := { s with y := r, p := setNZ r s.p }

/-- LDA (R89). -/
def execLda (m : AluMode) (s : State) : Result :=
  let q := readOperand m.src s
  .next (setA q.1 q.2)

/-- LDX (R90). -/
def execLdx (m : LdxMode) (s : State) : Result :=
  let q := readOperand m.src s
  .next (setX q.1 q.2)

/-- LDY (R91). -/
def execLdy (m : LdyMode) (s : State) : Result :=
  let q := readOperand m.src s
  .next (setY q.1 q.2)

/-- STA (R92). -/
def execSta (m : StaMode) (s : State) : Result := .next (storeOperand m.mem s.a s)

/-- STX (R93). -/
def execStx (m : StxMode) (s : State) : Result := .next (storeOperand m.mem s.x s)

/-- STY (R94). -/
def execSty (m : StyMode) (s : State) : Result := .next (storeOperand m.mem s.y s)

/-- TAX (R95). -/
def execTax (s : State) : Result := .next (setX s.a s)

/-- TAY (R96). -/
def execTay (s : State) : Result := .next (setY s.a s)

/-- TSX (R97). -/
def execTsx (s : State) : Result := .next (setX s.sp s)

/-- TXA (R98). -/
def execTxa (s : State) : Result := .next (setA s.x s)

/-- TXS (R99): the only transfer that writes no flag. -/
def execTxs (s : State) : Result := .next { s with sp := s.x }

/-- TYA (R100). -/
def execTya (s : State) : Result := .next (setA s.y s)

end Sys2Proof.Machine
end

