-- ==== Sys2Proof/Machine/Arith.lean ====
section
/-! DEFINITION. Arithmetic, logic, compare, BIT, increment and decrement (42_arithmetic_logic R101 to R116). D is
never read: the arithmetic is binary whatever it is (R101). -/

namespace Sys2Proof.Machine

/-- Write A and the flags of a sum or difference. -/
def setArith (q : ArithResult) (s : State) : State := { s with a := q.r, p := arithFlags q s.p }

/-- ADC (R102). -/
def execAdc (m : AluMode) (s : State) : Result :=
  let q := readOperand m.src s
  .next (setArith (addResult q.2.a q.1 (getFlag q.2.p .c)) q.2)

/-- SBC (R103). -/
def execSbc (m : AluMode) (s : State) : Result :=
  let q := readOperand m.src s
  .next (setArith (subResult q.2.a q.1 (getFlag q.2.p .c)) q.2)

/-- AND (R104). -/
def execAnd (m : AluMode) (s : State) : Result :=
  let q := readOperand m.src s
  .next (setA (q.2.a &&& q.1) q.2)

/-- ORA (R105): inclusive. -/
def execOra (m : AluMode) (s : State) : Result :=
  let q := readOperand m.src s
  .next (setA (q.2.a ||| q.1) q.2)

/-- EOR (R106). -/
def execEor (m : AluMode) (s : State) : Result :=
  let q := readOperand m.src s
  .next (setA (q.2.a ^^^ q.1) q.2)

/-- CMP (R107). -/
def execCmp (m : AluMode) (s : State) : Result :=
  let q := readOperand m.src s
  .next (updateP (compareFlags q.2.a q.1) q.2)

/-- CPX (R108). -/
def execCpx (m : CpMode) (s : State) : Result :=
  let q := readOperand m.src s
  .next (updateP (compareFlags q.2.x q.1) q.2)

/-- CPY (R109). -/
def execCpy (m : CpMode) (s : State) : Result :=
  let q := readOperand m.src s
  .next (updateP (compareFlags q.2.y q.1) q.2)

/-- BIT (R110). -/
def execBit (m : BitMode) (s : State) : Result :=
  let q := readOperand m.src s
  .next (updateP (bitFlags q.2.a q.1) q.2)

/-- INC (R111). -/
def execInc (m : IncMode) (s : State) : Result :=
  .next (modifyMemory m.mem (fun v p => (v + 1, setNZ (v + 1) p)) s)

/-- DEC (R112). -/
def execDec (m : IncMode) (s : State) : Result :=
  .next (modifyMemory m.mem (fun v p => (v - 1, setNZ (v - 1) p)) s)

/-- INX (R113). -/
def execInx (s : State) : Result := .next (setX (s.x + 1) s)

/-- INY (R114). -/
def execIny (s : State) : Result := .next (setY (s.y + 1) s)

/-- DEX (R115). -/
def execDex (s : State) : Result := .next (setX (s.x - 1) s)

/-- DEY (R116). -/
def execDey (s : State) : Result := .next (setY (s.y - 1) s)

end Sys2Proof.Machine
end

