-- ==== Sys2Proof/Machine/Control.lean ====
section
/-! DEFINITION. Control transfer instructions (44_control_transfer R121 to R135). On entry to a body the PC is the
address past the instruction (40 R68). -/

namespace Sys2Proof.Machine

/-- JMP (R122). -/
def execJmp (m : JmpMode) (s : State) : Result :=
  match m with
  | .abs w => .next { s with pc := w }
  | .ind w =>
    let q := indirectTarget w s
    .next { q.2 with pc := q.1 }

/-- JSR (R123): push PC - 1, the address of JSR's last byte, high then low. -/
def execJsr (w : Word) (s : State) : Result := .next { push16 (s.pc - 1) s with pc := w }

/-- RTS (R124). -/
def execRts (s : State) : Result :=
  let q := pull16 s
  .next { q.2 with pc := q.1 + 1 }

/-- RTI (R125). -/
def execRti (s : State) : Result := .next (returnFromInterrupt s)

/-- A branch on a condition (R126). -/
def branch (taken : Bool) (off : Byte) (s : State) : State :=
  if taken then
    { charge (branchPenalty (branchTarget off s.pc) s.pc) s with pc := branchTarget off s.pc }
  else s

/-- BCC (R127). -/
def execBcc (off : Byte) (s : State) : Result := .next (branch (!getFlag s.p .c) off s)

/-- BCS (R128). -/
def execBcs (off : Byte) (s : State) : Result := .next (branch (getFlag s.p .c) off s)

/-- BEQ (R129). -/
def execBeq (off : Byte) (s : State) : Result := .next (branch (getFlag s.p .z) off s)

/-- BMI (R130). -/
def execBmi (off : Byte) (s : State) : Result := .next (branch (getFlag s.p .n) off s)

/-- BNE (R131). -/
def execBne (off : Byte) (s : State) : Result := .next (branch (!getFlag s.p .z) off s)

/-- BPL (R132). -/
def execBpl (off : Byte) (s : State) : Result := .next (branch (!getFlag s.p .n) off s)

/-- BVC (R133). -/
def execBvc (off : Byte) (s : State) : Result := .next (branch (!getFlag s.p .v) off s)

/-- BVS (R134). -/
def execBvs (off : Byte) (s : State) : Result := .next (branch (getFlag s.p .v) off s)

/-- BRK (R135): the software interrupt, whatever I is. -/
def execBrk (s : State) : Result := .next (breakEntry s)

end Sys2Proof.Machine
end

