-- ==== Sys2Proof/Machine/Shift.lean ====
section
/-! DEFINITION. Shift and rotate instructions (43_shift_rotate R117 to R120), on A or on memory. -/

namespace Sys2Proof.Machine

/-- A shift of A or of a memory byte: the result to where the operand came from, C, N and Z. -/
def shiftOperand (f : Byte → Bool → CarryResult) : RmwForm → State → State
  | .acc, s =>
    let q := f s.a (getFlag s.p .c)
    { s with a := q.r, p := shiftFlags q s.p }
  | .mem m, s => modifyMemory m (fun v p => let q := f v (getFlag p .c); (q.r, shiftFlags q p)) s

/-- ASL (R117). -/
def execAsl (m : ShiftMode) (s : State) : Result := .next (shiftOperand aslResult m.rmw s)

/-- LSR (R118). -/
def execLsr (m : ShiftMode) (s : State) : Result := .next (shiftOperand lsrResult m.rmw s)

/-- ROL (R119). -/
def execRol (m : ShiftMode) (s : State) : Result := .next (shiftOperand rolResult m.rmw s)

/-- ROR (R120). -/
def execRor (m : ShiftMode) (s : State) : Result := .next (shiftOperand rorResult m.rmw s)

end Sys2Proof.Machine
end

