-- ==== Sys2Proof/Machine/StackStatus.lean ====
section
/-! DEFINITION. Stack, status-flag and no-operation instructions (45_stack_status_misc R136 to R148). -/

namespace Sys2Proof.Machine

/-- PHA (R136). -/
def execPha (s : State) : Result := .next (push8 s.a s)

/-- PHP (R137): the image has B and bit 5 set. -/
def execPhp (s : State) : Result := .next (push8 (breakImage s.p) s)

/-- PLA (R138). -/
def execPla (s : State) : Result :=
  let q := pull8 s
  .next (setA q.1 q.2)

/-- PLP (R139): bits 4 and 5 of P stay 0. -/
def execPlp (s : State) : Result :=
  let q := pull8 s
  .next { q.2 with p := pulledStatus q.1 }

/-- CLC (R140). -/
def execClc (s : State) : Result := .next (setFlagOf .c false s)

/-- CLD (R141). -/
def execCld (s : State) : Result := .next (setFlagOf .d false s)

/-- CLI (R142). -/
def execCli (s : State) : Result := .next (setFlagOf .i false s)

/-- CLV (R143). -/
def execClv (s : State) : Result := .next (setFlagOf .v false s)

/-- SEC (R144). -/
def execSec (s : State) : Result := .next (setFlagOf .c true s)

/-- SED (R145). -/
def execSed (s : State) : Result := .next (setFlagOf .d true s)

/-- SEI (R146). -/
def execSei (s : State) : Result := .next (setFlagOf .i true s)

/-- NOP (R147): the PC has advanced already. -/
def execNop (s : State) : Result := .next s

/-- An unknown opcode (R148): the PC moves past the opcode's length, the bytes after it unread, and its tabled cost is
charged. The opcode byte itself has been fetched, so the PC stands one past it. -/
def execUnknown (op : Byte) (s : State) : Result :=
  .next (charge (unknownOpCycles s.cfg op) { s with pc := s.pc + BitVec.ofNat 16 (unknownOpLength s.cfg op - 1) })

end Sys2Proof.Machine
end

