-- ==== Sys2Proof/Machine/Render.lean ====
section
/-! DEFINITION. The scanline renderers (61_ppu_oam R177, R178, R183 to R194). They read VRAM, palette and OAM with no
side effect (R184), so a line is computed from the state as it stands when it is drawn. -/

namespace Sys2Proof.Machine

/-! ## Colours (R177, R178) -/

/-- The palette contents `ColorOf` uses (R178). -/
def colourPalette (s : State) : Memory :=
  match s.cfg.paletteTiming with
  | .frameStart => s.ppu.paletteCache
  | .live => s.ppu.palette

/-- `ColorOf(i)` (R177). -/
def colorOf (s : State) (i : Nat) : Pixel :=
  let rgb := Config.masterPalette (((colourPalette s).get i).setWidth 6)
  { r := rgb.r, g := rgb.g, b := rgb.b, a := 0xFF }

/-! ## Tiles (R183, R185) -/

/-- A pattern table's base (R28): the second 4 KB when the selector bit is set. -/
def patternBase (sel : Bool) : PpuAddr := if sel then 0x1000 else 0x0000

/-- Bit `7 - col` of a plane byte. -/
def planeBit (b : Byte) (col : Nat) : Byte := (b >>> (7 - col)) &&& 1

/-- Pixel (row, col), a 2-bit value, of a tile of a pattern table (R183). -/
def tilePixel (s : State) (base : PpuAddr) (tile : Byte) (row col : Nat) : Byte :=
  let low := vramPeek s (base + BitVec.ofNat 14 (16 * tile.toNat + row))
  let high := vramPeek s (base + BitVec.ofNat 14 (16 * tile.toNat + 8 + row))
  planeBit low col ||| (planeBit high col <<< 1)

/-- `attr_addr` of R185. -/
def attrAddr (n : BitVec 2) (cx cy : BitVec 5) : PpuAddr :=
  BitVec.ofNat 14 (0x2000 + 0x400 * n.toNat + 0x3C0 + 8 * (cy.toNat / 4) + cx.toNat / 4)

/-- `shift` of R185. -/
def attrShift (cx cy : BitVec 5) : Nat := ((cy.toNat &&& 2) <<< 1) ||| (cx.toNat &&& 2)

/-- The palette MSB of the tile at (cx, cy) of logical nametable n (R185). -/
def attrMsb (s : State) (n : BitVec 2) (cx cy : BitVec 5) : Byte :=
  (vramPeek s (attrAddr n cx cy) >>> attrShift cx cy) &&& 3

/-! ## The background (R186, R187) -/

/-- A pixel with its info byte. -/
structure Dot where
  px : Pixel
  info : Byte
  deriving DecidableEq, Repr

/-- A dot of the universal background colour, not marked (R186, R187). -/
def blankDot (s : State) : Dot := { px := colorOf s 0, info := 0 }

/-- The tile index a scroll address selects (R186). -/
def bgTile (s : State) (v : BitVec 15) : Byte :=
  vramPeek s (BitVec.ofNat 14 (0x2000 + 0x400 * (v.extractLsb' 10 2).toNat + 32 * (v.extractLsb' 5 5).toNat
    + (v.extractLsb' 0 5).toNat))

/-- The 2-bit value of the background at a scroll address and fine-x (R186). -/
def bgValue (s : State) (fx : BitVec 3) (v : BitVec 15) : Byte :=
  tilePixel s (patternBase (s.ppu.ctrl0.getLsbD 4)) (bgTile s v) (v.extractLsb' 12 3).toNat fx.toNat

/-- One background dot (R186): clipped in the left 8 columns, transparent, or the palette's colour. -/
def bgDot (s : State) (sx : Nat) (fx : BitVec 3) (v : BitVec 15) : Dot :=
  if sx < 8 ∧ s.ppu.ctrl1.getLsbD 1 = false then blankDot s
  else if bgValue s fx v = 0 then blankDot s
  else
    { px := colorOf s
        ((attrMsb s (v.extractLsb' 10 2) (v.extractLsb' 0 5) (v.extractLsb' 5 5) <<< 2) ||| bgValue s fx v).toNat
      info := 0x01 }

/-- `n` background dots from column `sx` on, v advancing with each (R186, R181). -/
def bgDots (s : State) : Nat → Nat → BitVec 3 → BitVec 15 → List Dot
  | 0, _, _, _ => []
  | n + 1, sx, fx, v => bgDot s sx fx v :: bgDots s n (sx + 1) (advanceX fx v).1 (advanceX fx v).2

/-- The fine-x counter and v after `n` advances (R181). -/
def advanceXTimes : Nat → BitVec 3 → BitVec 15 → BitVec 3 × BitVec 15
  | 0, fx, v => (fx, v)
  | n + 1, fx, v => advanceXTimes n (advanceX fx v).1 (advanceX fx v).2

/-- The line as the background leaves it: `RenderBackground` (R186), or the fill of R187. -/
def backgroundLine (s : State) (v : BitVec 15) : List Dot :=
  if s.ppu.bgEnabled then bgDots s 256 0 s.ppu.x v else List.replicate 256 (blankDot s)

/-! ## Sprites (R188 to R192) -/

/-- A sprite: 4 bytes of OAM (R188). -/
structure Sprite where
  y : Byte
  tile : Byte
  attr : Byte
  x : Byte
  deriving DecidableEq, Repr

/-- Sprite i (R188). -/
def spriteAt (s : State) (i : Nat) : Sprite :=
  { y := s.ppu.oam.get (4 * i), tile := s.ppu.oam.get (4 * i + 1), attr := s.ppu.oam.get (4 * i + 2),
    x := s.ppu.oam.get (4 * i + 3) }

/-- `H` of R188: ctrl0 bit 5 selects 8x16. -/
def spriteHeight (s : State) : Nat := if s.ppu.ctrl0.getLsbD 5 then 16 else 8

/-- The row of a sprite on a line, when the line is in its range (R188): integers, no wrap. -/
def spriteRow (s : State) (sp : Sprite) (line : Nat) : Option Nat :=
  let top := sp.y.toNat + s.cfg.spriteYOffset
  if top ≤ line ∧ line < top + spriteHeight s then some (line - top) else none

/-- A row of a tile: table, tile and in-tile row, (B, n, yr) of R190. -/
structure TileRow where
  base : PpuAddr
  tile : Byte
  row : Nat
  deriving DecidableEq, Repr

/-- Tile selection (R190): a vertical flip turns the whole sprite over before the tile is chosen. -/
def spriteTile (s : State) (sp : Sprite) (row : Nat) : TileRow :=
  let r := if sp.attr.getLsbD 7 then spriteHeight s - 1 - row else row
  if s.ppu.ctrl0.getLsbD 5 then
    { base := patternBase (sp.tile.getLsbD 0), tile := (sp.tile &&& 0xFE) + (if 8 ≤ r then 1 else 0), row := r % 8 }
  else { base := patternBase (s.ppu.ctrl0.getLsbD 3), tile := sp.tile, row := r }

/-- A line being drawn, with the sprite-0 hit so far (R191, R192). -/
structure LineBuf where
  dots : List Dot
  s0 : Bool
  deriving DecidableEq, Repr

/-- A dot a sprite pixel falls on (R191): marked with info bit 1; drawn unless it is behind an opaque background. -/
def spriteDot (colour : Pixel) (behind : Bool) (d : Dot) : Dot :=
  { px := if behind && d.info.getLsbD 0 then d.px else colour, info := d.info ||| 0x02 }

/-- One pixel of a sprite, at its column c (R191). -/
def spritePixel (s : State) (i : Nat) (sp : Sprite) (t : TileRow) (b : LineBuf) (c : Nat) : LineBuf :=
  let sx := sp.x.toNat + c
  if sx < 8 ∧ s.ppu.ctrl1.getLsbD 2 = false then b
  else
    let p := tilePixel s t.base t.tile t.row (if sp.attr.getLsbD 6 then 7 - c else c)
    if p = 0 then b
    else
      match b.dots[sx]? with
      | none => b
      | some d =>
        if d.info.getLsbD 1 then b
        else
          { dots := b.dots.set sx
              (spriteDot (colorOf s (0x10 ||| ((sp.attr &&& 3) <<< 2) ||| p).toNat) (sp.attr.getLsbD 5) d)
            s0 := b.s0 || (decide (i = 0) && d.info.getLsbD 0) }

/-- `DrawSprite(i, row, line)` (R191). -/
def drawSprite (s : State) (i : Nat) (sp : Sprite) (row : Nat) (b : LineBuf) : LineBuf :=
  (List.range 8).foldl (spritePixel s i sp (spriteTile s sp row)) b

/-- Sprite evaluation and drawing of sprite i (R188), with the count of sprites in range so far: the first 8 are
drawn. -/
def evalSprite (s : State) (line : Nat) (b : Nat × LineBuf) (i : Nat) : Nat × LineBuf :=
  match spriteRow s (spriteAt s i) line with
  | none => b
  | some row => (b.1 + 1, if b.1 < 8 then drawSprite s i (spriteAt s i) row b.2 else b.2)

/-- `RenderSprites(line)` (R188): the count of sprites in range and the line. -/
def renderSprites (s : State) (line : Nat) (b : LineBuf) : Nat × LineBuf :=
  (List.range 64).foldl (evalSprite s line) (0, b)

/-! ## A scanline (R194) -/

/-- A status byte with sprite-0 hit and overflow written (R30). -/
def spriteStatus (st : Byte) (s0 ovf : Bool) : Byte :=
  (st &&& 0x9F) ||| (if s0 then 0x40 else 0) ||| (if ovf then 0x20 else 0)

/-- v when a line's background starts (R180, R194). -/
def lineStartV (p : Ppu) : BitVec 15 := if p.rendering then horizontalCopy p.v p.t else p.v

/-- v when a line's background ends (R181, R186, R187). -/
def lineEndV (p : Ppu) : BitVec 15 :=
  if p.bgEnabled then (advanceXTimes 256 p.x (lineStartV p)).2 else lineStartV p

/-- The line after its background, the sprite-0 hit as it stands. -/
def lineBackground (s : State) : LineBuf :=
  { dots := backgroundLine s (lineStartV s.ppu), s0 := s.ppu.status.getLsbD 6 }

/-- The line after its sprites, and whether more than 8 are in range (R188); without SPE, overflow stays. -/
def lineSprites (s : State) (line : Nat) : LineBuf × Bool :=
  if s.ppu.spritesEnabled then
    let r := renderSprites s line (lineBackground s)
    (r.2, decide (8 < r.1))
  else (lineBackground s, s.ppu.status.getLsbD 5)

/-- `DrawScanline(line)` (R194). -/
def drawScanline (line : Nat) (s : State) : State :=
  let r := lineSprites s line
  { s with
    ppu := { s.ppu with
      fb := SparseMap.set [] s.ppu.fb line (r.1.dots.map Dot.px)
      info := SparseMap.set [] s.ppu.info line (r.1.dots.map Dot.info)
      status := spriteStatus s.ppu.status r.1.s0 r.2
      v := if s.ppu.rendering then advanceY (lineEndV s.ppu) else lineEndV s.ppu } }

/-- `FrameStart()` (R193, R179). -/
def frameStart (s : State) : State :=
  { s with
    ppu := { s.ppu with
      v := if s.ppu.rendering then s.ppu.t else s.ppu.v
      status := s.ppu.status &&& 0x1F
      paletteCache := s.ppu.palette
      fb := []
      info := [] } }

/-- A pixel of `last_frame()` (60 R165, 10 R34): `fb[line][sx]`. -/
def lastFrame (s : State) (line sx : Nat) : Pixel :=
  (SparseMap.get [] s.ppu.fb line).getD sx { r := 0, g := 0, b := 0, a := 0 }

/-- A byte of the info plane, `info[line][sx]` (10 R34). -/
def infoAt (s : State) (line sx : Nat) : Byte := (SparseMap.get [] s.ppu.info line).getD sx 0

end Sys2Proof.Machine
end

