-- ==== Sys2Proof/Machine/Frame.lean ====
section
/-! DEFINITION. Fetching and running one instruction (40_execution_and_addressing R68, R86), the frame sequence as
steps of a driver (61_ppu_oam R195, 40 R87), and what the outside can ask (60_exceptions R165). -/

namespace Sys2Proof.Machine

/-! ## One instruction -/

/-- Read the byte at PC through the bus and advance PC (R68). -/
def fetchByte (s : State) : Byte × State :=
  let r := read8 s.pc s
  (r.1, { r.2 with pc := r.2.pc + 1 })

/-- Read `n` operand bytes, at most two; an unread one is given as 0, which no form of `n` bytes looks at. -/
def fetchOperands (n : Nat) (s : State) : (Byte × Byte) × State :=
  match n with
  | 0 => ((0, 0), s)
  | 1 => let b := fetchByte s; ((b.1, 0), b.2)
  | _ => let b := fetchByte s; let c := fetchByte b.2; ((b.1, c.1), c.2)

/-- The base cost of a documented opcode (R63); an unknown opcode's cost is charged by its body (R148). -/
def chargeBase (op : Byte) (s : State) : State :=
  if (opRow op).isSome then charge (baseCycles s.cfg op) s else s

/-- Fetch and decode (R68): the opcode, then its operand bytes in increasing address order. PC is left past the
instruction, and its base cost is charged. -/
def fetch (s : State) : Instr × State :=
  let o := fetchByte s
  let q := fetchOperands (operandCount o.1) (chargeBase o.1 o.2)
  (decodeOp o.1 q.1.1 q.1.2, q.2)

/-- `Step()` (R68). -/
def runInstr (s : State) : Result := exec (fetch s).1 (fetch s).2

/-- `MAY_CONTINUE(PC)` (R88). -/
def mayContinue (s : State) : Bool := !s.cfg.stopAt.contains s.pc

/-- The host's `step()` (R86): no step of a faulted machine; nothing where the debugger does not let it go on. -/
def hostStep (s : State) : Result :=
  if s.faulted then .fault .programmerError
  else if mayContinue s then runInstr s
  else .next s

/-! ## The frame sequence (R195) -/

/-- The cycles spent since a count: what `Execute` compares and returns (R87), and what `step()`, `irq()` and the NMI
service return to their caller (R86, 60 R153). -/
def spent (start : BitVec 64) (s : State) : Nat := (s.cycles - start).toNat

/-- The condition of the loop of `Execute(budget)` (R87): the budget is not spent, and nothing breaks it. -/
def executing (budget : Nat) (start : BitVec 64) (s : State) : Bool :=
  decide (spent start s < budget) && !s.faulted && mayContinue s

/-- `draw_frame()` begins: step 1, and the budget of line 0. -/
def beginFrame (s : State) : State :=
  let s1 := frameStart s
  { s1 with ppu := { s1.ppu with scanline := 0 }, phase := .visible 0 s1.cycles }

/-- A visible line's budget is spent: draw it, and go on to the next line or to step 3. -/
def endVisible (line : Nat) (s : State) : State :=
  let s1 := drawScanline line s
  if line < 239 then
    { s1 with ppu := { s1.ppu with scanline := line + 1 }, phase := .visible (line + 1) s1.cycles }
  else { s1 with phase := .postRender s1.cycles }

/-- The post-render budget is spent: step 4, VBlank set and the NMI if it is enabled; then the VBlank budget, which
starts after the NMI's cycles (60 R154). A faulted machine takes no interrupt service (log 11). -/
def enterVblank (s : State) : State :=
  let s1 := { s with ppu := s.ppu.setVbl true }
  let s2 := if s1.ppu.nmiEnabled && !s1.faulted then nmiService s1 else s1
  { s2 with phase := .vblank s2.cycles }

/-- The VBlank budget is spent: step 6, and the frame is done. -/
def endFrame (s : State) : State := { s with ppu := s.ppu.setVbl false, phase := .idle }

/-- The frame in progress goes on: one instruction of the current budget, or, when the budget is spent, what comes
after it; with no frame in progress, the host's `step()`. -/
def advance (s : State) : Result :=
  match s.phase with
  | .idle => hostStep s
  | .visible line start =>
    if executing s.cfg.cyclesPerScanline start s then runInstr s else .next (endVisible line s)
  | .postRender start =>
    if executing (s.cfg.cyclesPerScanline + 1) start s then runInstr s else .next (enterVblank s)
  | .vblank start =>
    if executing (s.cfg.cyclesPerScanline * 20) start s then runInstr s else .next (endFrame s)

/-! ## What the outside asks (60 R165) -/

/-- An IRQ delivered between two steps (R151, R153). -/
def deliverIrq (s : State) : Result := if s.faulted then .fault .programmerError else .next (irqService s)

/-- A host call, admitted only when no frame is in progress (R165, 20 R53). -/
def hostCall (f : State → State) (s : State) : Result :=
  if s.phase = .idle then .next (f s) else .refused .overlappingCall

/-- One input. -/
def takeInput : HostInput → State → Result
  | .run, s => advance s
  | .irq, s => deliverIrq s
  | .reset, s => hostCall resetService s
  | .drawFrame, s => hostCall beginFrame s
  | .attachCart c, s => hostCall (fun s => { s with cart := c }) s
  | .attachExt e, s => hostCall (fun s => { s with ext := e }) s

/-- One step of the machine: what the outside does now, which is `run` when nothing is listed. -/
def machineStep (s : State) : Result :=
  match s.inputs with
  | [] => takeInput .run s
  | i :: rest => takeInput i { s with inputs := rest }

end Sys2Proof.Machine
end

