-- ==== Sys2Proof/Machine/Step.lean ====
section
/-! DEFINITION. The machine's step, and a state whose next step runs a given instruction. -/

namespace Sys2Proof.Machine

/-- One step: Frame.lean says what it does. -/
def step (s : State) : Host.Outcome State Fault Refusal := machineStep s

/-- The state whose next step fetches and runs the instruction whose bits are `w` (log 12). -/
def State.withFetchWord (s : State) (nbits w : Nat) : State := withFetchBytes (tableBytes nbits w) s

end Sys2Proof.Machine
end

