-- ==== Sys2Proof/Safety.lean ====
section
/-! DEFINITION. What the claims speak of: what a bus read, a bus write and an instruction may change at all, and the
invariant of the machine, which rules out states that no run reaches. -/

namespace Sys2Proof.Machine

/-- The attached cartridge is the fixture, whose reads and CPU writes do not change it. -/
def Cart.isFixture : Cart → Bool
  | .fixture _ _ _ => true
  | .mapper _ => false

/-- All that a bus read may change (20_memory R44): the PPU's status, toggle, latch and v, and what the cartridge and
the device do to themselves. -/
structure ReadFrame (s t : State) : Prop where
  eq : t = { s with
    ppu := { s.ppu with status := t.ppu.status, w := t.ppu.w, latch := t.ppu.latch, v := t.ppu.v }
    cart := t.cart, ext := t.ext }
  /-- The status keeps its bits but VBL, which a read can only clear (61_ppu_oam R166). -/
  status : t.ppu.status = s.ppu.status ∨ t.ppu.status = s.ppu.status &&& 0x7F
  /-- A fixture's reads do not change it (20_memory R49). -/
  fixture : s.cart.isFixture = true → t.cart = s.cart
  /-- With no device attached, no read changes anything there (20_memory R48). -/
  absent : s.ext = .absent → t.ext = .absent

/-- All that a bus write may change (20_memory R44): RAM, the PPU's registers and memories, the cartridge, the device,
and, for the OAM DMA, the cycle count. Not the CPU's registers, the frame buffer, the info plane, the palette snapshot
or the scanline. -/
structure WriteFrame (s t : State) : Prop where
  eq : t = { s with
    ram := t.ram, cart := t.cart, ext := t.ext, cycles := t.cycles
    ppu := { t.ppu with
      scanline := s.ppu.scanline, fb := s.ppu.fb, info := s.ppu.info, paletteCache := s.ppu.paletteCache } }

/-- A cartridge whose memories, if it is the fixture, are in canonical form. -/
def Cart.wf : Cart → Bool
  | .fixture prg chr _ => Memory.wf 0x10000 prg && Memory.wf 0x2000 chr
  | .mapper _ => true

/-- A cartridge handed in from outside is well-formed. -/
def HostInput.wf : HostInput → Bool
  | .attachCart c => c.wf
  | _ => true

/-- A visible line of a frame in progress is one of 0 to 239. -/
def FramePhase.wf : FramePhase → Bool
  | .visible line _ => decide (line < 240)
  | _ => true

/-- The frame buffer: rows of lines 0 to 239, each of 256 pixels whose alpha is 255 (10_state R34). -/
def fbWf (fb : SparseMap (List Pixel)) : Bool :=
  SparseMap.wf [] 240 fb && fb.all fun r => decide (r.2.length = 256) && r.2.all fun px => px.a == 0xFF

/-- The info plane: rows of lines 0 to 239, each of 256 bytes whose bits 7..2 are 0 (10_state R34). -/
def infoWf (info : SparseMap (List Byte)) : Bool :=
  SparseMap.wf [] 240 info && info.all fun r => decide (r.2.length = 256) && r.2.all fun b => b &&& 0xFC == 0

/-- The PPU's part of the invariant. -/
structure PpuInv (p : Ppu) : Prop where
  /-- Bits 4..0 of the status are never set (10_state R30). -/
  status : p.status &&& 0x1F = 0
  scanline : p.scanline < 240
  oam : Memory.wf 256 p.oam = true
  palette : Memory.wf 32 p.palette = true
  paletteCache : Memory.wf 32 p.paletteCache = true
  nt : Memory.wf 4096 p.nt = true
  fb : fbWf p.fb = true
  info : infoWf p.info = true

/-- The invariant of the machine: P's held bits are 0 (10_state R20), every memory is in canonical form and of its
size, the PPU is as above, and no programmer error has happened (60_exceptions R150). -/
structure Inv (s : State) : Prop where
  held : heldBits s.p = 0
  ram : Memory.wf 2048 s.ram = true
  ppu : PpuInv s.ppu
  cart : s.cart.wf = true
  phase : s.phase.wf = true
  inputs : ∀ i ∈ s.inputs, i.wf = true
  faulted : s.faulted = false

/-! ## Status bytes -/

/-- Every flag but the listed ones, and both held bits, are in `q` as they are in `p`. -/
def FlagsKept (fs : List Flag) (p q : Byte) : Prop :=
  (∀ f, f ∉ fs → getFlag q f = getFlag p f) ∧ heldBits q = heldBits p

/-- Z and N of `q` are those of a byte `r` (00_scope R12). -/
def ShowsNZ (r q : Byte) : Prop :=
  getFlag q .z = decide (r.toNat = 0) ∧ getFlag q .n = decide (128 ≤ r.toNat)

/-! ## Memory proper: RAM, and what a fixture cartridge answers -/

/-- An address of memory whose reads change nothing: internal RAM, or a fixture cartridge. -/
def Plain (s : State) (a : Word) : Prop :=
  a.toNat ≤ 0x1FFF ∨ (0x4020 ≤ a.toNat ∧ s.cart.isFixture = true)

/-- Two addresses of the same byte of internal RAM (20_memory R45). -/
def SameCell (e a : Word) : Prop :=
  e.toNat ≤ 0x1FFF ∧ a.toNat ≤ 0x1FFF ∧ a.toNat % 2048 = e.toNat % 2048

/-- Every byte of memory outside the stored ones reads as before. -/
def PlainKept (s t : State) (stored : Word → Prop) : Prop :=
  ∀ a, Plain s a → ¬stored a → (read8 a t).1 = (read8 a s).1

/-- Does an operand form cross a page (40 R78, R79, R82)? -/
def operandCrosses (m : SrcForm) (s : State) : Bool :=
  match m with
  | .imm _ => false
  | .mem m => (effAddr m s).crossed

/-- What a reading instruction does beside writing A, X, Y or P: the effects of its one operand read, 1 cycle for a
page crossing (40 R84), and nothing else; every byte of memory is as before. -/
structure ReadEffect (m : SrcForm) (s t : State) : Prop where
  frame : ReadFrame s { t with a := s.a, x := s.x, y := s.y, p := s.p, cycles := s.cycles }
  ppu : t.ppu = (readOperand m s).2.ppu
  cart : t.cart = (readOperand m s).2.cart
  ext : t.ext = (readOperand m s).2.ext
  cost : t.cycles = s.cycles + if operandCrosses m s then 1 else 0
  memory : PlainKept s t fun _ => False

/-- What one bus write of `v` at `e` does: it is that write; only what a write may change; the byte reads back at each
of its addresses in RAM; every other byte of memory is as before. -/
structure StoreEffect (e : Word) (v : Byte) (s t : State) : Prop where
  write : t = write8 e v s
  frame : WriteFrame s t
  ram : e.toNat ≤ 0x1FFF → t = { s with ram := t.ram }
  device : 0x1FFF < e.toNat → t.ram = s.ram
  readBack : Memory.wf 2048 s.ram = true → ∀ a, SameCell e a → (read8 a t).1 = v
  memory : PlainKept s t fun a => SameCell e a

/-- The bytes `bs` pushed, the first one at `0x0100 | SP`, the next one below it: they read back, and every other byte
of memory is as before (20_memory R52). -/
structure Pushed (bs : List Byte) (s t : State) : Prop where
  readBack : Memory.wf 2048 s.ram = true →
    ∀ k (h : k < bs.length), (read8 (0x0100 + zext16 (s.sp - BitVec.ofNat 8 k)) t).1 = bs[k]
  memory : PlainKept s t fun a => ∃ k, k < bs.length ∧ SameCell (0x0100 + zext16 (s.sp - BitVec.ofNat 8 k)) a

/-- The next step goes on: nothing is listed, or what is listed first is `run`, which the step takes off the list. -/
def GoesOn (s : State) : Prop := s.inputs = [] ∨ s.inputs.head? = some .run

/-- The next step goes on and runs an instruction: an idle machine that is not faulted and may continue, or one whose
current budget is not spent (40 R86, R87). -/
def RunsNow (s : State) : Prop :=
  GoesOn s ∧ s.faulted = false ∧ s.pc ∉ s.cfg.stopAt ∧
    match s.phase with
    | .idle => True
    | .visible _ start => (s.cycles - start).toNat < s.cfg.cyclesPerScanline
    | .postRender start => (s.cycles - start).toNat < s.cfg.cyclesPerScanline + 1
    | .vblank start => (s.cycles - start).toNat < s.cfg.cyclesPerScanline * 20

/-- The cost charged before an instruction's body: the base cost of a documented opcode (30 R63); an unknown opcode's
cost is its body's (45 R148). -/
def fetchCost (c : Config) (op : Byte) : Nat := if op ∈ unknownOpcodes then 0 else baseCycles c op

/-- The column "cycles" of the table R61, by its values: each cost with the opcodes that have it. -/
def cycleColumn : List (Nat × List Byte) :=
  [(2,
    [0x69, 0x29, 0x0A, 0x90, 0xB0, 0xF0, 0x30, 0xD0, 0x10, 0x50, 0x70, 0x18, 0xD8, 0x58, 0xB8, 0xC9, 0xE0, 0xC0,
     0xCA, 0x88, 0x49, 0xE8, 0xC8, 0xA9, 0xA2, 0xA0, 0x4A, 0xEA, 0x09, 0x2A, 0x6A, 0xE9, 0x38, 0xF8, 0x78, 0xAA,
     0xA8, 0xBA, 0x8A, 0x9A, 0x98])] ++
  [(3,
    [0x65, 0x25, 0x24, 0xC5, 0xE4, 0xC4, 0x45, 0x4C, 0xA5, 0xA6, 0xA4, 0x05, 0x48, 0x08, 0xE5, 0x85, 0x86, 0x84])] ++
  [(4,
    [0x75, 0x6D, 0x7D, 0x79, 0x35, 0x2D, 0x3D, 0x39, 0x2C, 0xD5, 0xCD, 0xDD, 0xD9, 0xEC, 0xCC, 0x55, 0x4D, 0x5D,
     0x59, 0xB5, 0xAD, 0xBD, 0xB9, 0xB6, 0xAE, 0xBE, 0xB4, 0xAC, 0xBC, 0x15, 0x0D, 0x1D, 0x19, 0x68, 0x28, 0xF5,
     0xED, 0xFD, 0xF9, 0x95, 0x8D, 0x96, 0x8E, 0x94, 0x8C])] ++
  [(5,
    [0x71, 0x31, 0x06, 0xD1, 0xC6, 0x51, 0xE6, 0x6C, 0xB1, 0x46, 0x11, 0x26, 0x66, 0xF1, 0x9D, 0x99])] ++
  [(6,
    [0x61, 0x21, 0x16, 0x0E, 0xC1, 0xD6, 0xCE, 0x41, 0xF6, 0xEE, 0x20, 0xA1, 0x56, 0x4E, 0x01, 0x36, 0x2E, 0x76,
     0x6E, 0x40, 0x60, 0xE1, 0x81, 0x91])] ++
  [(7,
    [0x1E, 0x00, 0xDE, 0xFE, 0x5E, 0x3E, 0x7E])]

/-! ## The sprites of a line, from the rules (61_ppu_oam R183, R188 to R191) -/

/-- Sprite i is in range on a line (R188). -/
def spriteInRange (s : State) (line i : Nat) : Bool :=
  let top := (s.ppu.oam.get (4 * i)).toNat + s.cfg.spriteYOffset
  decide (top ≤ line ∧ line < top + if s.ppu.ctrl0.getLsbD 5 then 16 else 8)

/-- The sprites drawn on a line: the first eight in range, in index order (R188). -/
def drawnSprites (s : State) (line : Nat) : List Nat := ((List.range 64).filter (spriteInRange s line)).take 8

/-- The 2-bit value sprite i, drawn on a line, has at a column of the screen; 0 where it has no pixel, is clipped or is
transparent (R183, R189 to R191). -/
def spriteValueAt (s : State) (line i sx : Nat) : Nat :=
  let tile := (s.ppu.oam.get (4 * i + 1)).toNat
  let attr := (s.ppu.oam.get (4 * i + 2)).toNat
  let left := (s.ppu.oam.get (4 * i + 3)).toNat
  let tall := s.ppu.ctrl0.getLsbD 5
  let row := line - ((s.ppu.oam.get (4 * i)).toNat + s.cfg.spriteYOffset)
  let r := if attr / 128 = 1 then (if tall then 16 else 8) - 1 - row else row
  let table := if (if tall then decide (tile % 2 = 1) else s.ppu.ctrl0.getLsbD 3) then 0x1000 else 0x0000
  let n := if tall then tile / 2 * 2 + r / 8 else tile
  let col := if attr / 64 % 2 = 1 then 7 - (sx - left) else sx - left
  let low := (vramPeek s (BitVec.ofNat 14 (table + 16 * n + r % 8))).toNat
  let high := (vramPeek s (BitVec.ofNat 14 (table + 16 * n + 8 + r % 8))).toNat
  if sx < left ∨ left + 8 ≤ sx ∨ (sx < 8 ∧ s.ppu.ctrl1.getLsbD 2 = false) then 0
  else low / 2 ^ (7 - col) % 2 + 2 * (high / 2 ^ (7 - col) % 2)

/-! ## Encodings: what the decoder reads from an opcode byte and any operand bytes, whatever follows -/

/-- An opcode with no operand byte. -/
def DecodesImplied (op : Byte) (i : Instr) : Prop := ∀ rest, decode (op :: rest) = .ok (i, rest)

/-- An opcode with one operand byte. -/
def DecodesByte (op : Byte) (mk : Byte → Instr) : Prop := ∀ b rest, decode (op :: b :: rest) = .ok (mk b, rest)

/-- An opcode with an address, its low byte first (30 R58). -/
def DecodesWord (op : Byte) (mk : Word → Instr) : Prop :=
  ∀ lo hi rest, decode (op :: lo :: hi :: rest) = .ok (mk (hi ++ lo), rest)

/-- The eight forms of the accumulator's instructions, in the order IMM ZP ZPX ABS ABSX ABSY INDX INDY. -/
def DecodesAlu (mk : AluMode → Instr) (imm zp zpx abs absx absy indx indy : Byte) : Prop :=
  DecodesByte imm (fun b => mk (.imm b)) ∧ DecodesByte zp (fun b => mk (.zp b)) ∧
    DecodesByte zpx (fun b => mk (.zpx b)) ∧ DecodesWord abs (fun w => mk (.abs w)) ∧
    DecodesWord absx (fun w => mk (.absx w)) ∧ DecodesWord absy (fun w => mk (.absy w)) ∧
    DecodesByte indx (fun b => mk (.indx b)) ∧ DecodesByte indy (fun b => mk (.indy b))

/-- The five forms of a shift, in the order ACC ZP ZPX ABS ABSX. -/
def DecodesShift (mk : ShiftMode → Instr) (acc zp zpx abs absx : Byte) : Prop :=
  DecodesImplied acc (mk .acc) ∧ DecodesByte zp (fun b => mk (.zp b)) ∧ DecodesByte zpx (fun b => mk (.zpx b)) ∧
    DecodesWord abs (fun w => mk (.abs w)) ∧ DecodesWord absx (fun w => mk (.absx w))

/-! ## What an instruction may write -/

/-- The instructions that write A (10_state R16). -/
def writesA : Instr → Bool
  | .lda _ | .pla | .txa | .tya | .adc _ | .sbc _ | .and _ | .ora _ | .eor _ => true
  | .asl m | .lsr m | .rol m | .ror m => decide (m = .acc)
  | _ => false

/-- The instructions that write X (10_state R16). -/
def writesX : Instr → Bool
  | .ldx _ | .tax | .tsx | .inx | .dex => true
  | _ => false

/-- The instructions that write Y (10_state R16). -/
def writesY : Instr → Bool
  | .ldy _ | .tay | .iny | .dey => true
  | _ => false

/-- The instructions that write SP (10_state R17). -/
def writesSp : Instr → Bool
  | .txs | .pha | .php | .pla | .plp | .jsr _ | .rts | .rti | .brk => true
  | _ => false

/-- The flags an instruction writes (10_state R21). -/
def flagsWritten : Instr → List Flag
  | .lda _ | .ldx _ | .ldy _ | .tax | .tay | .tsx | .txa | .tya | .pla => [.z, .n]
  | .and _ | .ora _ | .eor _ | .inc _ | .dec _ | .inx | .iny | .dex | .dey => [.z, .n]
  | .adc _ | .sbc _ => [.c, .z, .v, .n]
  | .cmp _ | .cpx _ | .cpy _ | .asl _ | .lsr _ | .rol _ | .ror _ => [.c, .z, .n]
  | .bit _ => [.z, .v, .n]
  | .plp | .rti => [.c, .z, .i, .d, .v, .n]
  | .clc | .sec => [.c]
  | .cld | .sed => [.d]
  | .cli | .sei | .brk => [.i]
  | .clv => [.v]
  | .sta _ | .stx _ | .sty _ | .txs | .pha | .php | .jmp _ | .jsr _ | .rts | .nop | .unknown _ => []
  | .bcc _ | .bcs _ | .beq _ | .bmi _ | .bne _ | .bpl _ | .bvc _ | .bvs _ => []

/-- The instructions that change the PC other than by falling through: the control transfers of 44_control_transfer,
and an unknown opcode, whose length a parameter gives (R148). -/
def setsPc : Instr → Bool
  | .jmp _ | .jsr _ | .rts | .rti | .brk | .unknown _ => true
  | .bcc _ | .bcs _ | .beq _ | .bmi _ | .bne _ | .bpl _ | .bvc _ | .bvs _ => true
  | _ => false

/-- The instructions that write memory in some form (40 R70; 20 R43): stores, read-modify-writes and pushes. -/
def mayStore : Instr → Bool
  | .sta _ | .stx _ | .sty _ | .inc _ | .dec _ | .pha | .php | .jsr _ | .brk => true
  | .asl m | .lsr m | .rol m | .ror m => decide (m ≠ .acc)
  | _ => false

end Sys2Proof.Machine
end

