-- ==== Sys2Proof/Certificates/Slice0/Obligations.lean ====
section
/-! DEFINITION. The statements for the provers. Safety.lean has the predicates they are written in. A statement about a
free value (a colour, a mapper, a device) holds whatever the value is. -/

open Sys2Proof Sys2Proof.Machine

/-! ## Reset and the invariant -/

/-- The host's `reset()` (70 R198): every register at its stated value, PC from the reset vector through the bus, 7
cycles; RAM, OAM, palette, nametables and everything else as they were. -/
def Obligations.HostResetLeavesTheStatedState : Prop :=
  ∀ (s : State) (rest : List HostInput), s.phase = .idle → s.inputs = .reset :: rest →
    ∃ t, step s = .next t ∧
      t.a = 0 ∧ t.x = 0 ∧ t.y = 0 ∧ t.p = 0 ∧ t.sp = 0xFD ∧ t.cycles = 7 ∧ t.faulted = false ∧
      t.pc = mkWord (read8 0xFFFD (read8 0xFFFC s).2).1 (read8 0xFFFC s).1 ∧
      t.cart = (read8 0xFFFD (read8 0xFFFC s).2).2.cart ∧
      t.ppu = { ctrl0 := 0, ctrl1 := 0, status := 0, v := 0, t := 0, x := 0, w := false, latch := 0, scanline := 0,
                oamaddr := 0, oam := s.ppu.oam, palette := s.ppu.palette, paletteCache := s.ppu.paletteCache,
                nt := s.ppu.nt, fb := [], info := [] } ∧
      (∀ line sx, lastFrame t line sx = { r := 0, g := 0, b := 0, a := 0 } ∧ infoAt t line sx = 0) ∧
      t.ram = s.ram ∧ t.ext = s.ext ∧ t.phase = .idle ∧ t.inputs = rest ∧ t.cfg = s.cfg

/-- The state after reset meets the invariant. -/
def Obligations.ResetStateMeetsTheInvariant : Prop := Inv State.reset

/-- Every step, whatever the outside asks and whether or not a frame is in progress, keeps the invariant. -/
def Obligations.StepKeepsTheInvariant : Prop := ∀ s t : State, Inv s → step s = .next t → Inv t

/-! ## Encoding -/

/-- Every well-formed instruction is read back from its bytes, whatever bytes follow. -/
def Obligations.DecodeOfEncodeIsTheInstruction : Prop :=
  ∀ (i : Instr) (rest : List Byte), i.wf = true → decode (encode i ++ rest) = .ok (i, rest)

/-- What is decoded is well-formed, and its bytes are the bytes decoded. -/
def Obligations.EncodeOfDecodeIsTheBytes : Prop :=
  ∀ (bs rest : List Byte) (i : Instr), decode bs = .ok (i, rest) → i.wf = true ∧ encode i ++ rest = bs

/-- No byte value is refused: a decode fails exactly when the opcode byte, or an operand byte it calls for, is
missing. -/
def Obligations.DecodeRefusesOnlyMissingBytes : Prop :=
  ∀ bs : List Byte, (∃ r, decode bs = .ok r) ↔ ∃ op tail, bs = op :: tail ∧ operandCount op ≤ tail.length

/-- Words written out from the table R61, at least one of each family. -/
def Obligations.SampleWordsDecode : Prop :=
  decode [0xA9, 0xC0] = .ok (.lda (.imm 0xC0), []) ∧
  decode [0xB6, 0x10] = .ok (.ldx (.zpy 0x10), []) ∧
  decode [0x99, 0x34, 0x12, 0xEA] = .ok (.sta (.absy 0x1234), [0xEA]) ∧
  decode [0x71, 0x80] = .ok (.adc (.indy 0x80), []) ∧
  decode [0xE1, 0x80] = .ok (.sbc (.indx 0x80), []) ∧
  decode [0x2C, 0x02, 0x20] = .ok (.bit (.abs 0x2002), []) ∧
  decode [0xDE, 0xFF, 0x01] = .ok (.dec (.absx 0x01FF), []) ∧
  decode [0x6A] = .ok (.ror .acc, []) ∧
  decode [0x6C, 0xFF, 0x02] = .ok (.jmp (.ind 0x02FF), []) ∧
  decode [0x20, 0x34, 0x12] = .ok (.jsr 0x1234, []) ∧
  decode [0xF0, 0xFC] = .ok (.beq 0xFC, []) ∧
  decode [0x00] = .ok (.brk, []) ∧
  decode [0x28] = .ok (.plp, []) ∧
  decode [0xD8] = .ok (.cld, []) ∧
  decode [0x02, 0x03] = .ok (.unknown 0x02, [0x03])

/-- An opcode byte is read as an unknown opcode exactly when it is one of the 105 that R64 lists; each of those has no
operand byte and decodes to itself. -/
def Obligations.UnknownOpcodesAreTheListedOnes : Prop :=
  (∀ op b c op' : Byte, decodeOp op b c = .unknown op' ↔ op' = op ∧ op ∈ unknownOpcodes) ∧
  (∀ op ∈ unknownOpcodes, operandCount op = 0) ∧ unknownOpcodes.length = 105 ∧ unknownOpcodes.Nodup

/-! ## A step -/

/-- When the bytes at PC, in memory whose reads change nothing, are those of a well-formed instruction, the step is the
instruction's meaning at the state with PC past the instruction (modulo 65536), the base cost charged, and a `run` that
was listed (log 4) taken off the list. With the reference parameters that cost is the column "cycles" of R61 (30 R61,
R63, R64), which R63 marks as general knowledge; an unknown opcode is charged nothing before its body, and has the
reference cost 2 and length 1 of 92 D15. Other parameters (log 5) change a value only at the opcodes they list. -/
def Obligations.StepRunsTheDecodedInstruction : Prop :=
  (∀ (i : Instr) (s : State), i.wf = true → RunsNow s →
    (∀ k (h : k < (encode i).length), read8 (s.pc + BitVec.ofNat 16 k) s = ((encode i)[k], s)) →
    step s = exec i { s with
      inputs := s.inputs.tail
      pc := s.pc + BitVec.ofNat 16 (encode i).length
      cycles := s.cycles + BitVec.ofNat 64 (fetchCost s.cfg i.opcode) }) ∧
  (∀ g ∈ cycleColumn, ∀ op ∈ g.2,
    baseCycles Config.reference op = g.1 ∧ fetchCost Config.reference op = g.1 ∧ op ∉ unknownOpcodes) ∧
  (∀ op : Byte, op ∉ unknownOpcodes → ∃ g ∈ cycleColumn, op ∈ g.2) ∧
  (∀ op ∈ unknownOpcodes, fetchCost Config.reference op = 0 ∧ unknownOpCycles Config.reference op = 2 ∧
    unknownOpLength Config.reference op = 1) ∧
  ∀ (c : Config) (op : Byte),
    ((∀ e ∈ c.baseCycles, e.1 ≠ op) → baseCycles c op = baseCycles Config.reference op) ∧
    ((∀ e ∈ c.unknownOpCycles, e.1 ≠ op) → unknownOpCycles c op = unknownOpCycles Config.reference op) ∧
    ((∀ e ∈ c.unknownOpLength, e.1 ≠ op) → unknownOpLength c op = unknownOpLength Config.reference op) ∧
    (∀ n rest, c.baseCycles = (op, n) :: rest → baseCycles c op = n) ∧
    (∀ n rest, c.unknownOpCycles = (op, n) :: rest → unknownOpCycles c op = n)

/-- Instruction fetch in general (40 R68, 20 R55): the opcode and then its operand bytes are read through the bus, in
increasing address order, each read with its side effects; PC is left past them and the base cost is charged. A `run`
that was listed is taken off the list (log 4). -/
def Obligations.FetchReadsThroughTheBus : Prop :=
  ∀ (s : State), RunsNow s →
    let o := read8 s.pc s
    let b := read8 (s.pc + 1) o.2
    let c := read8 (s.pc + 2) b.2
    let after (n : Word) (u : State) : State :=
      { u with
        inputs := s.inputs.tail, pc := s.pc + n, cycles := s.cycles + BitVec.ofNat 64 (fetchCost s.cfg o.1) }
    (operandCount o.1 = 0 → step s = exec (decodeOp o.1 0 0) (after 1 o.2)) ∧
    (operandCount o.1 = 1 → step s = exec (decodeOp o.1 b.1 0) (after 2 b.2)) ∧
    (operandCount o.1 = 2 → step s = exec (decodeOp o.1 b.1 c.1) (after 3 c.2)) ∧
    operandCount o.1 ≤ 2

/-- With no frame in progress, a faulted machine runs no instruction and takes no IRQ: the step answers the programmer
error (log 11), with no effect (40 R86). Where the debugger does not let it continue, the host's step does nothing. -/
def Obligations.StoppedMachineRunsNothing : Prop :=
  ∀ (s : State), s.phase = .idle →
    (s.faulted = true → (GoesOn s ∨ s.inputs.head? = some .irq) →
      step s = .fault .programmerError) ∧
    (s.faulted = false → s.pc ∈ s.cfg.stopAt → GoesOn s → step s = .next { s with inputs := s.inputs.tail })

/-- A host call other than an IRQ takes effect between frames alone; inside a frame it is refused (log 4). Attaching a
cartridge or a device changes nothing else. -/
def Obligations.HostCallsOnlyBetweenFrames : Prop :=
  ∀ (s : State) (rest : List HostInput),
    (s.phase ≠ .idle → ∀ i, s.inputs = i :: rest → i ≠ .run → i ≠ .irq → step s = .refused .overlappingCall) ∧
    (s.phase = .idle → ∀ c, s.inputs = .attachCart c :: rest → step s = .next { s with cart := c, inputs := rest }) ∧
    (s.phase = .idle → ∀ e, s.inputs = .attachExt e :: rest → step s = .next { s with ext := e, inputs := rest })

/-! ## All instructions -/

/-- No instruction faults or is refused: each answers a next state, in every state (60 R149). -/
def Obligations.EveryInstructionCompletes : Prop := ∀ (i : Instr) (s : State), ∃ t, exec i s = .next t

/-- No instruction touches the frame buffer, the info plane, the palette snapshot, the scanline, the driver's place in
the frame, what the outside asks, the parameters or the fault bit (10_state R34; 60 R150). -/
def Obligations.InstructionsLeaveTheFrameAlone : Prop :=
  ∀ (i : Instr) (s t : State), exec i s = .next t →
    t.ppu.fb = s.ppu.fb ∧ t.ppu.info = s.ppu.info ∧ t.ppu.paletteCache = s.ppu.paletteCache ∧
    t.ppu.scanline = s.ppu.scanline ∧ t.phase = s.phase ∧ t.inputs = s.inputs ∧ t.cfg = s.cfg ∧
    t.faulted = s.faulted

/-- No instruction writes a flag beyond the table of 10_state R21, and P's held bits stay 0 (R20). -/
def Obligations.FlagsWrittenOnlyAsTabled : Prop :=
  ∀ (i : Instr) (s t : State), exec i s = .next t →
    (∀ f, f ∉ flagsWritten i → getFlag t.p f = getFlag s.p f) ∧ (heldBits s.p = 0 → heldBits t.p = 0)

/-- No instruction writes A, X, Y or SP beyond the lists of 10_state R16 and R17, and only a control transfer or an
unknown opcode changes PC after the fetch. -/
def Obligations.RegistersWrittenOnlyAsTabled : Prop :=
  ∀ (i : Instr) (s t : State), exec i s = .next t →
    (writesA i = false → t.a = s.a) ∧ (writesX i = false → t.x = s.x) ∧ (writesY i = false → t.y = s.y) ∧
    (writesSp i = false → t.sp = s.sp) ∧ (setsPc i = false → t.pc = s.pc)

/-- An instruction that stores and pushes nothing leaves RAM, OAM, palette, nametables and every byte of memory as they
were, whatever its reads do to the PPU's status, toggle, latch and v. -/
def Obligations.NonStoringInstructionsKeepMemory : Prop :=
  ∀ (i : Instr) (s t : State), mayStore i = false → exec i s = .next t →
    t.ram = s.ram ∧ t.ppu.oam = s.ppu.oam ∧ t.ppu.palette = s.ppu.palette ∧ t.ppu.nt = s.ppu.nt ∧
    (s.cart.isFixture = true → t.cart = s.cart) ∧ PlainKept s t fun _ => False

/-! ## Operands -/

/-- The effective address of each form, with every sum in its modulus, and which forms cross a page (40 R74 to R79,
R81, R82); a pointer's bytes are those of page 0, in RAM. That 16-bit sums wrap is the spec's own choice (92 D2, cited
by R78), and so is the wrap of a pointer's second byte within page 0 (92 D3, cited by R81 and R82); the model follows
both (log 9). -/
def Obligations.EffectiveAddressOfEachForm : Prop :=
  ∀ (s : State) (b : Byte) (w : Word),
    (effAddr (.zp b) s).addr.toNat = b.toNat ∧
    (effAddr (.zpx b) s).addr.toNat = (b.toNat + s.x.toNat) % 256 ∧
    (effAddr (.zpy b) s).addr.toNat = (b.toNat + s.y.toNat) % 256 ∧
    (effAddr (.abs w) s).addr = w ∧
    (effAddr (.absx w) s).addr.toNat = (w.toNat + s.x.toNat) % 65536 ∧
    (effAddr (.absy w) s).addr.toNat = (w.toNat + s.y.toNat) % 65536 ∧
    (effAddr (.indx b) s).addr.toNat =
      256 * (s.ram.get ((b.toNat + s.x.toNat + 1) % 256)).toNat + (s.ram.get ((b.toNat + s.x.toNat) % 256)).toNat ∧
    (effAddr (.indy b) s).addr.toNat =
      (256 * (s.ram.get ((b.toNat + 1) % 256)).toNat + (s.ram.get b.toNat).toNat + s.y.toNat) % 65536 ∧
    ((effAddr (.absx w) s).crossed = true ↔ (effAddr (.absx w) s).addr.toNat / 256 ≠ w.toNat / 256) ∧
    ((effAddr (.absy w) s).crossed = true ↔ (effAddr (.absy w) s).addr.toNat / 256 ≠ w.toNat / 256) ∧
    ((effAddr (.indy b) s).crossed = true ↔
      (effAddr (.indy b) s).addr.toNat / 256 ≠ (s.ram.get ((b.toNat + 1) % 256)).toNat) ∧
    (effAddr (.zp b) s).crossed = false ∧ (effAddr (.zpx b) s).crossed = false ∧
    (effAddr (.zpy b) s).crossed = false ∧ (effAddr (.abs w) s).crossed = false ∧
    (effAddr (.indx b) s).crossed = false ∧
    ∀ m, (effAddr m s).st = s

/-- The operand value M (40 R70, R73): the operand byte itself, or one read through the bus at the effective address,
with 1 cycle for a page crossing (R84) and no other effect than that read's. -/
def Obligations.OperandIsOneReadAtTheEffectiveAddress : Prop :=
  ∀ (s : State),
    (∀ b, readOperand (.imm b) s = (b, s)) ∧
    (∀ m, (readOperand (.mem m) s).1 = (read8 (effAddr m s).addr s).1 ∧
      (readOperand (.mem m) s).2 = { (read8 (effAddr m s).addr s).2 with
        cycles := s.cycles + if (effAddr m s).crossed then 1 else 0 }) ∧
    (∀ m : SrcForm, ReadEffect m s (readOperand m s).2)

/-! ## Load, store and transfer -/

/-- LDA, LDX and LDY (41 R89 to R91): the register and N, Z; nothing else but the operand read's own effects. -/
def Obligations.LoadsTakeTheirOperand : Prop :=
  (DecodesAlu .lda 0xA9 0xA5 0xB5 0xAD 0xBD 0xB9 0xA1 0xB1 ∧
    DecodesByte 0xA2 (fun b => .ldx (.imm b)) ∧ DecodesByte 0xA6 (fun b => .ldx (.zp b)) ∧
    DecodesByte 0xB6 (fun b => .ldx (.zpy b)) ∧ DecodesWord 0xAE (fun w => .ldx (.abs w)) ∧
    DecodesWord 0xBE (fun w => .ldx (.absy w)) ∧
    DecodesByte 0xA0 (fun b => .ldy (.imm b)) ∧ DecodesByte 0xA4 (fun b => .ldy (.zp b)) ∧
    DecodesByte 0xB4 (fun b => .ldy (.zpx b)) ∧ DecodesWord 0xAC (fun w => .ldy (.abs w)) ∧
    DecodesWord 0xBC (fun w => .ldy (.absx w))) ∧
  (∀ (m : AluMode) (s : State), ∃ t, exec (.lda m) s = .next t ∧ t.a = (readOperand m.src s).1 ∧ t.x = s.x ∧
    t.y = s.y ∧ ShowsNZ t.a t.p ∧ FlagsKept [.z, .n] s.p t.p ∧ ReadEffect m.src s t) ∧
  (∀ (m : LdxMode) (s : State), ∃ t, exec (.ldx m) s = .next t ∧ t.x = (readOperand m.src s).1 ∧ t.a = s.a ∧
    t.y = s.y ∧ ShowsNZ t.x t.p ∧ FlagsKept [.z, .n] s.p t.p ∧ ReadEffect m.src s t) ∧
  (∀ (m : LdyMode) (s : State), ∃ t, exec (.ldy m) s = .next t ∧ t.y = (readOperand m.src s).1 ∧ t.a = s.a ∧
    t.x = s.x ∧ ShowsNZ t.y t.p ∧ FlagsKept [.z, .n] s.p t.p ∧ ReadEffect m.src s t)

/-- STA, STX and STY (41 R92 to R94): one write of the register at the effective address, no read, no flag, no
penalty. -/
def Obligations.StoresWriteOnce : Prop :=
  (DecodesByte 0x85 (fun b => .sta (.zp b)) ∧ DecodesByte 0x95 (fun b => .sta (.zpx b)) ∧
    DecodesWord 0x8D (fun w => .sta (.abs w)) ∧ DecodesWord 0x9D (fun w => .sta (.absx w)) ∧
    DecodesWord 0x99 (fun w => .sta (.absy w)) ∧ DecodesByte 0x81 (fun b => .sta (.indx b)) ∧
    DecodesByte 0x91 (fun b => .sta (.indy b)) ∧
    DecodesByte 0x86 (fun b => .stx (.zp b)) ∧ DecodesByte 0x96 (fun b => .stx (.zpy b)) ∧
    DecodesWord 0x8E (fun w => .stx (.abs w)) ∧
    DecodesByte 0x84 (fun b => .sty (.zp b)) ∧ DecodesByte 0x94 (fun b => .sty (.zpx b)) ∧
    DecodesWord 0x8C (fun w => .sty (.abs w))) ∧
  (∀ (m : StaMode) (s : State), ∃ t, exec (.sta m) s = .next t ∧ StoreEffect (effAddr m.mem s).addr s.a s t) ∧
  (∀ (m : StxMode) (s : State), ∃ t, exec (.stx m) s = .next t ∧ StoreEffect (effAddr m.mem s).addr s.x s t) ∧
  (∀ (m : StyMode) (s : State), ∃ t, exec (.sty m) s = .next t ∧ StoreEffect (effAddr m.mem s).addr s.y s t)

/-- TAX, TAY, TSX, TXA, TYA (41 R95 to R98, R100) move a register and write N and Z; TXS (R99) moves X to SP and writes
no flag, which R99 marks as general knowledge. Nothing else changes. -/
def Obligations.TransfersMoveARegister : Prop :=
  (DecodesImplied 0xAA .tax ∧ DecodesImplied 0xA8 .tay ∧ DecodesImplied 0xBA .tsx ∧ DecodesImplied 0x8A .txa ∧
    DecodesImplied 0x9A .txs ∧ DecodesImplied 0x98 .tya) ∧
  ∀ s : State,
    (∃ q, exec .tax s = .next { s with x := s.a, p := q } ∧ ShowsNZ s.a q ∧ FlagsKept [.z, .n] s.p q) ∧
    (∃ q, exec .tay s = .next { s with y := s.a, p := q } ∧ ShowsNZ s.a q ∧ FlagsKept [.z, .n] s.p q) ∧
    (∃ q, exec .tsx s = .next { s with x := s.sp, p := q } ∧ ShowsNZ s.sp q ∧ FlagsKept [.z, .n] s.p q) ∧
    (∃ q, exec .txa s = .next { s with a := s.x, p := q } ∧ ShowsNZ s.x q ∧ FlagsKept [.z, .n] s.p q) ∧
    (∃ q, exec .tya s = .next { s with a := s.y, p := q } ∧ ShowsNZ s.y q ∧ FlagsKept [.z, .n] s.p q) ∧
    exec .txs s = .next { s with sp := s.x }

/-! ## Arithmetic, logic, compare -/

/-- ADC (42 R102): the sum of A, M and the carry, modulo 256, whatever D is; C when it exceeds 0xFF; V when A and M
share a sign and the result does not, which is signed overflow (R101). -/
def Obligations.AdcAddsWithCarry : Prop :=
  DecodesAlu .adc 0x69 0x65 0x75 0x6D 0x7D 0x79 0x61 0x71 ∧
  ∀ (m : AluMode) (s : State), ∃ t, exec (.adc m) s = .next t ∧
    let v := (readOperand m.src s).1
    let c := (getFlag s.p .c).toNat
    t.a.toNat = (s.a.toNat + v.toNat + c) % 256 ∧
    getFlag t.p .c = decide (0xFF < s.a.toNat + v.toNat + c) ∧
    getFlag t.p .v = (s.a.getLsbD 7 == v.getLsbD 7 && s.a.getLsbD 7 != t.a.getLsbD 7) ∧
    getFlag t.p .v = decide (s.a.toInt + v.toInt + c < -128 ∨ 127 < s.a.toInt + v.toInt + c) ∧
    ShowsNZ t.a t.p ∧ FlagsKept [.c, .z, .v, .n] s.p t.p ∧ t.x = s.x ∧ t.y = s.y ∧ ReadEffect m.src s t

/-- SBC (42 R103): A less M less the borrow (1 - C), modulo 256, whatever D is; C when there is no borrow; V when A and
M differ in sign and the result's sign is not A's, which is signed overflow (R101). SBC of a byte is ADC of its
complement, which R103 marks as its own inference from itself and R102. -/
def Obligations.SbcSubtractsWithBorrow : Prop :=
  DecodesAlu .sbc 0xE9 0xE5 0xF5 0xED 0xFD 0xF9 0xE1 0xF1 ∧
  (∀ (b : Byte) (s : State), exec (.sbc (.imm b)) s = exec (.adc (.imm (~~~b))) s) ∧
  ∀ (m : AluMode) (s : State), ∃ t, exec (.sbc m) s = .next t ∧
    let v := (readOperand m.src s).1
    let c := (getFlag s.p .c).toNat
    (t.a.toNat : Int) = ((s.a.toNat : Int) - v.toNat - (1 - c)) % 256 ∧
    getFlag t.p .c = decide (0 ≤ (s.a.toNat : Int) - v.toNat - (1 - c)) ∧
    getFlag t.p .v = (s.a.getLsbD 7 != v.getLsbD 7 && s.a.getLsbD 7 != t.a.getLsbD 7) ∧
    getFlag t.p .v = decide (s.a.toInt - v.toInt - (1 - c) < -128 ∨ 127 < s.a.toInt - v.toInt - (1 - c)) ∧
    ShowsNZ t.a t.p ∧ FlagsKept [.c, .z, .v, .n] s.p t.p ∧ t.x = s.x ∧ t.y = s.y ∧ ReadEffect m.src s t

/-- AND, ORA and EOR (42 R104 to R106), bit by bit; ORA is inclusive. -/
def Obligations.LogicActsBitByBit : Prop :=
  (DecodesAlu .and 0x29 0x25 0x35 0x2D 0x3D 0x39 0x21 0x31 ∧ DecodesAlu .ora 0x09 0x05 0x15 0x0D 0x1D 0x19 0x01 0x11 ∧
    DecodesAlu .eor 0x49 0x45 0x55 0x4D 0x5D 0x59 0x41 0x51) ∧
  ∀ (m : AluMode) (s : State),
    (∃ t, exec (.and m) s = .next t ∧
      (∀ i, t.a.getLsbD i = (s.a.getLsbD i && (readOperand m.src s).1.getLsbD i)) ∧
      ShowsNZ t.a t.p ∧ FlagsKept [.z, .n] s.p t.p ∧ t.x = s.x ∧ t.y = s.y ∧ ReadEffect m.src s t) ∧
    (∃ t, exec (.ora m) s = .next t ∧
      (∀ i, t.a.getLsbD i = (s.a.getLsbD i || (readOperand m.src s).1.getLsbD i)) ∧
      ShowsNZ t.a t.p ∧ FlagsKept [.z, .n] s.p t.p ∧ t.x = s.x ∧ t.y = s.y ∧ ReadEffect m.src s t) ∧
    (∃ t, exec (.eor m) s = .next t ∧
      (∀ i, t.a.getLsbD i = (s.a.getLsbD i ^^ (readOperand m.src s).1.getLsbD i)) ∧
      ShowsNZ t.a t.p ∧ FlagsKept [.z, .n] s.p t.p ∧ t.x = s.x ∧ t.y = s.y ∧ ReadEffect m.src s t)

/-- CMP, CPX and CPY (42 R107 to R109): C when the register is not below M, unsigned; N and Z of the difference modulo
256; no register and no other flag changes. -/
def Obligations.ComparesSetFlagsOnly : Prop :=
  (DecodesAlu .cmp 0xC9 0xC5 0xD5 0xCD 0xDD 0xD9 0xC1 0xD1 ∧
    DecodesByte 0xE0 (fun b => .cpx (.imm b)) ∧ DecodesByte 0xE4 (fun b => .cpx (.zp b)) ∧
    DecodesWord 0xEC (fun w => .cpx (.abs w)) ∧
    DecodesByte 0xC0 (fun b => .cpy (.imm b)) ∧ DecodesByte 0xC4 (fun b => .cpy (.zp b)) ∧
    DecodesWord 0xCC (fun w => .cpy (.abs w))) ∧
  (let compares (reg : Byte) (m : SrcForm) (s t : State) : Prop :=
    let v := (readOperand m s).1
    getFlag t.p .c = decide (v.toNat ≤ reg.toNat) ∧
    (∃ d : Byte, d.toNat = (reg.toNat + 256 - v.toNat) % 256 ∧ ShowsNZ d t.p) ∧
    FlagsKept [.c, .z, .n] s.p t.p ∧ t.a = s.a ∧ t.x = s.x ∧ t.y = s.y ∧ ReadEffect m s t
  (∀ (m : AluMode) (s : State), ∃ t, exec (.cmp m) s = .next t ∧ compares s.a m.src s t) ∧
  (∀ (m : CpMode) (s : State), ∃ t, exec (.cpx m) s = .next t ∧ compares s.x m.src s t) ∧
  (∀ (m : CpMode) (s : State), ∃ t, exec (.cpy m) s = .next t ∧ compares s.y m.src s t))

/-- BIT (42 R110): N and V are bits 7 and 6 of M, Z whether A and M share no set bit; nothing else changes. -/
def Obligations.BitTestsItsOperand : Prop :=
  DecodesByte 0x24 (fun b => .bit (.zp b)) ∧ DecodesWord 0x2C (fun w => .bit (.abs w)) ∧
  ∀ (m : BitMode) (s : State), ∃ t, exec (.bit m) s = .next t ∧
    let v := (readOperand m.src s).1
    getFlag t.p .n = v.getLsbD 7 ∧ getFlag t.p .v = v.getLsbD 6 ∧
    (getFlag t.p .z = true ↔ ∀ i, ¬(s.a.getLsbD i = true ∧ v.getLsbD i = true)) ∧
    FlagsKept [.z, .v, .n] s.p t.p ∧ t.a = s.a ∧ t.x = s.x ∧ t.y = s.y ∧ ReadEffect m.src s t

/-- INC and DEC (42 R111, R112): one read and then one write at the same address, of the byte plus or minus 1 modulo
256, with N and Z; no penalty. That there is no other access is the spec's own choice (92 D4, log 9). -/
def Obligations.IncDecReadThenWriteOnce : Prop :=
  (DecodesByte 0xE6 (fun b => .inc (.zp b)) ∧ DecodesByte 0xF6 (fun b => .inc (.zpx b)) ∧
    DecodesWord 0xEE (fun w => .inc (.abs w)) ∧ DecodesWord 0xFE (fun w => .inc (.absx w)) ∧
    DecodesByte 0xC6 (fun b => .dec (.zp b)) ∧ DecodesByte 0xD6 (fun b => .dec (.zpx b)) ∧
    DecodesWord 0xCE (fun w => .dec (.abs w)) ∧ DecodesWord 0xDE (fun w => .dec (.absx w))) ∧
  ∀ (m : IncMode) (s : State),
    let e := (effAddr m.mem s).addr
    let r := read8 e s
    (∃ t b q, exec (.inc m) s = .next t ∧ b.toNat = (r.1.toNat + 1) % 256 ∧ ShowsNZ b q ∧
      FlagsKept [.z, .n] s.p q ∧ StoreEffect e b { r.2 with p := q } t) ∧
    (∃ t b q, exec (.dec m) s = .next t ∧ b.toNat = (r.1.toNat + 255) % 256 ∧ ShowsNZ b q ∧
      FlagsKept [.z, .n] s.p q ∧ StoreEffect e b { r.2 with p := q } t)

/-- INX, INY, DEX and DEY (42 R113 to R116): the register plus or minus 1 modulo 256, with N and Z; nothing else
changes. -/
def Obligations.IndexRegistersStepByOne : Prop :=
  (DecodesImplied 0xE8 .inx ∧ DecodesImplied 0xC8 .iny ∧ DecodesImplied 0xCA .dex ∧ DecodesImplied 0x88 .dey) ∧
  ∀ s : State,
    (∃ b q, exec .inx s = .next { s with x := b, p := q } ∧ b.toNat = (s.x.toNat + 1) % 256 ∧ ShowsNZ b q ∧
      FlagsKept [.z, .n] s.p q) ∧
    (∃ b q, exec .iny s = .next { s with y := b, p := q } ∧ b.toNat = (s.y.toNat + 1) % 256 ∧ ShowsNZ b q ∧
      FlagsKept [.z, .n] s.p q) ∧
    (∃ b q, exec .dex s = .next { s with x := b, p := q } ∧ b.toNat = (s.x.toNat + 255) % 256 ∧ ShowsNZ b q ∧
      FlagsKept [.z, .n] s.p q) ∧
    (∃ b q, exec .dey s = .next { s with y := b, p := q } ∧ b.toNat = (s.y.toNat + 255) % 256 ∧ ShowsNZ b q ∧
      FlagsKept [.z, .n] s.p q)

/-! ## Shift and rotate -/

/-- ASL, LSR, ROL and ROR on A (43 R117 to R120): the result and the carry as numbers; N and Z of the result; nothing
else changes. -/
def Obligations.ShiftsOfTheAccumulator : Prop :=
  (DecodesImplied 0x0A (.asl .acc) ∧ DecodesImplied 0x4A (.lsr .acc) ∧ DecodesImplied 0x2A (.rol .acc) ∧
    DecodesImplied 0x6A (.ror .acc)) ∧
  ∀ s : State,
    let v := s.a.toNat
    let c := (getFlag s.p .c).toNat
    (∃ b q, exec (.asl .acc) s = .next { s with a := b, p := q } ∧ b.toNat = 2 * v % 256 ∧
      getFlag q .c = decide (128 ≤ v) ∧ ShowsNZ b q ∧ FlagsKept [.c, .z, .n] s.p q) ∧
    (∃ b q, exec (.lsr .acc) s = .next { s with a := b, p := q } ∧ b.toNat = v / 2 ∧
      getFlag q .c = decide (v % 2 = 1) ∧ ShowsNZ b q ∧ FlagsKept [.c, .z, .n] s.p q) ∧
    (∃ b q, exec (.rol .acc) s = .next { s with a := b, p := q } ∧ b.toNat = (2 * v + c) % 256 ∧
      getFlag q .c = decide (128 ≤ v) ∧ ShowsNZ b q ∧ FlagsKept [.c, .z, .n] s.p q) ∧
    (∃ b q, exec (.ror .acc) s = .next { s with a := b, p := q } ∧ b.toNat = 128 * c + v / 2 ∧
      getFlag q .c = decide (v % 2 = 1) ∧ ShowsNZ b q ∧ FlagsKept [.c, .z, .n] s.p q)

/-- The memory forms of the shifts (43 R117 to R120, 40 R70): one read and then one write at the same address, with no
penalty. -/
def Obligations.ShiftsOfMemory : Prop :=
  (DecodesShift .asl 0x0A 0x06 0x16 0x0E 0x1E ∧ DecodesShift .lsr 0x4A 0x46 0x56 0x4E 0x5E ∧
    DecodesShift .rol 0x2A 0x26 0x36 0x2E 0x3E ∧ DecodesShift .ror 0x6A 0x66 0x76 0x6E 0x7E) ∧
  ∀ (m : ShiftMode) (f : MemForm) (s : State), m.rmw = .mem f →
    let e := (effAddr f s).addr
    let r := read8 e s
    let v := r.1.toNat
    let c := (getFlag s.p .c).toNat
    (∃ t b q, exec (.asl m) s = .next t ∧ b.toNat = 2 * v % 256 ∧ getFlag q .c = decide (128 ≤ v) ∧ ShowsNZ b q ∧
      FlagsKept [.c, .z, .n] s.p q ∧ StoreEffect e b { r.2 with p := q } t) ∧
    (∃ t b q, exec (.lsr m) s = .next t ∧ b.toNat = v / 2 ∧ getFlag q .c = decide (v % 2 = 1) ∧ ShowsNZ b q ∧
      FlagsKept [.c, .z, .n] s.p q ∧ StoreEffect e b { r.2 with p := q } t) ∧
    (∃ t b q, exec (.rol m) s = .next t ∧ b.toNat = (2 * v + c) % 256 ∧ getFlag q .c = decide (128 ≤ v) ∧
      ShowsNZ b q ∧ FlagsKept [.c, .z, .n] s.p q ∧ StoreEffect e b { r.2 with p := q } t) ∧
    (∃ t b q, exec (.ror m) s = .next t ∧ b.toNat = 128 * c + v / 2 ∧ getFlag q .c = decide (v % 2 = 1) ∧
      ShowsNZ b q ∧ FlagsKept [.c, .z, .n] s.p q ∧ StoreEffect e b { r.2 with p := q } t)

/-! ## Control transfer -/

/-- JMP (44 R122): to the operand, or to the word at it, low byte read first, whose second byte comes from the start of
the pointer's page when the toggle is set and the pointer ends in 0xFF (40 R80). -/
def Obligations.JmpSetsPc : Prop :=
  DecodesWord 0x4C (fun w => .jmp (.abs w)) ∧ DecodesWord 0x6C (fun w => .jmp (.ind w)) ∧
  ∀ (w : Word) (s : State),
    exec (.jmp (.abs w)) s = .next { s with pc := w } ∧
    ∀ hiAddr : Word,
      hiAddr.toNat =
        (if s.cfg.jmpIndirectPageWrap = true ∧ w.toNat % 256 = 255 then w.toNat - 255 else (w.toNat + 1) % 65536) →
      ∃ t, exec (.jmp (.ind w)) s = .next t ∧
        t = { (read8 hiAddr (read8 w s).2).2 with pc := mkWord (read8 hiAddr (read8 w s).2).1 (read8 w s).1 } ∧
        ReadFrame s { t with pc := s.pc } ∧ PlainKept s t fun _ => False

/-- JSR and RTS (44 R123, R124): JSR pushes the address of its last byte, high then low, and jumps; RTS pulls a word
and adds 1. Only PC, SP and the two stack bytes change. -/
def Obligations.JsrPushesAndRtsPulls : Prop :=
  DecodesWord 0x20 .jsr ∧ DecodesImplied 0x60 .rts ∧
  ∀ (s : State),
    (∀ w, ∃ t, exec (.jsr w) s = .next t ∧ t = { s with pc := w, sp := s.sp - 2, ram := t.ram } ∧
      Pushed [hiByte (s.pc - 1), loByte (s.pc - 1)] s t) ∧
    exec .rts s = .next { s with
      sp := s.sp + 2
      pc := mkWord (read8 (0x0100 + zext16 (s.sp + 2)) s).1 (read8 (0x0100 + zext16 (s.sp + 1)) s).1 + 1 }

/-- The eight branches (44 R126 to R134, 40 R83, R85): the flag and value each tests; the target is PC after the
operand plus the signed offset, modulo 65536; 1 cycle when taken, 2 in all when the target is in another page. That the
2 is the whole penalty (92 D14, cited by R85) and that the target wraps (92 D2) are the spec's own choices, which the
model follows (log 9). -/
def Obligations.BranchesTestOneFlag : Prop :=
  (DecodesByte 0x90 .bcc ∧ DecodesByte 0xB0 .bcs ∧ DecodesByte 0xF0 .beq ∧ DecodesByte 0x30 .bmi ∧
    DecodesByte 0xD0 .bne ∧ DecodesByte 0x10 .bpl ∧ DecodesByte 0x50 .bvc ∧ DecodesByte 0x70 .bvs) ∧
  ∀ (s : State) (off : Byte) (br : (Byte → Instr) × Flag × Bool),
    br ∈ [(Instr.bcc, Flag.c, false), (Instr.bcs, Flag.c, true), (Instr.beq, Flag.z, true),
      (Instr.bmi, Flag.n, true), (Instr.bne, Flag.z, false), (Instr.bpl, Flag.n, false),
      (Instr.bvc, Flag.v, false), (Instr.bvs, Flag.v, true)] →
    (getFlag s.p br.2.1 ≠ br.2.2 → exec (br.1 off) s = .next s) ∧
    (getFlag s.p br.2.1 = br.2.2 → ∃ target : Word,
      (target.toNat : Int) = ((s.pc.toNat : Int) + off.toInt) % 65536 ∧
      exec (br.1 off) s = .next { s with
        pc := target, cycles := s.cycles + if target.toNat / 256 = s.pc.toNat / 256 then 1 else 2 })

/-- BRK (44 R135, 60 R156): pushes PC past the padding byte, high then low, and P with bits 4 and 5 set; sets I; jumps
through 0xFFFE, whatever I was. No other flag, register or byte changes. -/
def Obligations.BrkEntersThroughTheIrqVector : Prop :=
  DecodesImplied 0x00 .brk ∧
  ∀ (s : State), ∃ t, exec .brk s = .next t ∧
    t = { s with ram := t.ram, sp := s.sp - 3, p := t.p, pc := t.pc, cart := t.cart } ∧
    t.pc = mkWord (read8 0xFFFF (read8 0xFFFE s).2).1 (read8 0xFFFE s).1 ∧
    t.cart = (read8 0xFFFF (read8 0xFFFE s).2).2.cart ∧
    getFlag t.p .i = true ∧ FlagsKept [.i] s.p t.p ∧
    Pushed [hiByte (s.pc + 1), loByte (s.pc + 1), s.p ||| 0x30] s t

/-- RTI (44 R125): P from the first pulled byte with bits 4 and 5 at 0, then PC, low byte first, with no 1 added. -/
def Obligations.RtiPullsStatusAndPc : Prop :=
  DecodesImplied 0x40 .rti ∧
  ∀ (s : State), ∃ q, exec .rti s = .next { s with
      p := q
      sp := s.sp + 3
      pc := mkWord (read8 (0x0100 + zext16 (s.sp + 3)) s).1 (read8 (0x0100 + zext16 (s.sp + 2)) s).1 } ∧
    (∀ f, getFlag q f = getFlag (read8 (0x0100 + zext16 (s.sp + 1)) s).1 f) ∧ heldBits q = 0

/-! ## Stack and flags -/

/-- PHA, PHP, PLA and PLP (45 R136 to R139). A push writes one byte at `0x0100 | SP` and takes 1 from SP, modulo 256;
PHP's byte is P with bits 4 and 5 set. A pull adds 1 to SP and reads the byte there, into A with N and Z, or into P
with bits 4 and 5 at 0. Nothing else changes. That PHP pushes bits 4 and 5 as 1 and that P holds them at 0 after PLP is
the spec's own choice (92 D1, cited by R137 and R139), which the model follows (log 9). -/
def Obligations.StackInstructionsMoveOneByte : Prop :=
  (DecodesImplied 0x48 .pha ∧ DecodesImplied 0x08 .php ∧ DecodesImplied 0x68 .pla ∧ DecodesImplied 0x28 .plp) ∧
  ∀ (s : State),
    (∃ t, exec .pha s = .next t ∧ t = { s with ram := t.ram, sp := s.sp - 1 } ∧ Pushed [s.a] s t) ∧
    (∃ t, exec .php s = .next t ∧ t = { s with ram := t.ram, sp := s.sp - 1 } ∧ Pushed [s.p ||| 0x30] s t) ∧
    let b := (read8 (0x0100 + zext16 (s.sp + 1)) s).1
    (∃ q, exec .pla s = .next { s with a := b, sp := s.sp + 1, p := q } ∧ ShowsNZ b q ∧ FlagsKept [.z, .n] s.p q) ∧
    (∃ q, exec .plp s = .next { s with sp := s.sp + 1, p := q } ∧ (∀ f, getFlag q f = getFlag b f) ∧
      heldBits q = 0)

/-- What a return undoes. JSR then RTS: PC is again what it was when JSR ran, past its three bytes, SP and P are as
before (44 R124). BRK then RTI: PC is past the padding byte, SP and P are as before (R125). PHA then PLA: A and SP are
as before, and N and Z of P become those of A (45 R138). PHP then PLP: P and SP are as before (R137). PHA, PHP and their
pulls leave PC as it was. -/
def Obligations.ReturnsUndoCalls : Prop :=
  ∀ (s : State), Memory.wf 2048 s.ram = true →
    (∀ w, ∃ t, exec (.jsr w) s = .next t ∧ exec .rts t = .next { t with pc := s.pc, sp := s.sp } ∧ t.p = s.p) ∧
    (heldBits s.p = 0 →
      ∃ t, exec .brk s = .next t ∧ exec .rti t = .next { t with pc := s.pc + 1, sp := s.sp, p := s.p }) ∧
    (∃ t q, exec .pha s = .next t ∧ exec .pla t = .next { t with sp := s.sp, p := q } ∧ t.a = s.a ∧
      t.pc = s.pc ∧
      ShowsNZ s.a q ∧ FlagsKept [.z, .n] s.p q) ∧
    (heldBits s.p = 0 → ∃ t, exec .php s = .next t ∧ exec .plp t = .next { t with sp := s.sp } ∧ t.p = s.p ∧
      t.pc = s.pc)

/-- The seven flag instructions (45 R140 to R146): one flag each, and nothing else. -/
def Obligations.FlagInstructionsWriteOneFlag : Prop :=
  ∀ (s : State) (r : Byte × Instr × Flag × Bool),
    r ∈ [(0x18, Instr.clc, Flag.c, false), (0xD8, Instr.cld, Flag.d, false), (0x58, Instr.cli, Flag.i, false),
      (0xB8, Instr.clv, Flag.v, false), (0x38, Instr.sec, Flag.c, true), (0xF8, Instr.sed, Flag.d, true),
      (0x78, Instr.sei, Flag.i, true)] →
    DecodesImplied r.1 r.2.1 ∧
    ∃ q, exec r.2.1 s = .next { s with p := q } ∧ getFlag q r.2.2.1 = r.2.2.2 ∧ FlagsKept [r.2.2.1] s.p q

/-- NOP (45 R147) and the unknown opcodes (R148): a step moves PC past the instruction's length, modulo 65536, charges
its cost, reads nothing after the opcode byte, and changes nothing else, but that a `run` that was listed is taken off
the list. That list, and a frame that is many steps, are the model's choice (log 4); an unknown opcode's length and cost
are parameters (92 D15, log 5), and their sum with PC is modulo 65536 by the spec's own choice (92 D2, log 9). -/
def Obligations.NopsOnlyAdvance : Prop :=
  ∀ (s : State),
    exec .nop s = .next s ∧
    (∀ op ∈ unknownOpcodes, ∃ t, exec (.unknown op) s = .next t ∧
      t = { s with
        pc := s.pc - 1 + BitVec.ofNat 16 (unknownOpLength s.cfg op)
        cycles := s.cycles + BitVec.ofNat 64 (unknownOpCycles s.cfg op) }) ∧
    (RunsNow s → read8 s.pc s = (0xEA, s) →
      step s = .next { s with
        inputs := s.inputs.tail, pc := s.pc + 1, cycles := s.cycles + BitVec.ofNat 64 (baseCycles s.cfg 0xEA) }) ∧
    (RunsNow s → ∀ op ∈ unknownOpcodes, read8 s.pc s = (op, s) →
      step s = .next { s with
        inputs := s.inputs.tail
        pc := s.pc + BitVec.ofNat 16 (unknownOpLength s.cfg op)
        cycles := s.cycles + BitVec.ofNat 64 (unknownOpCycles s.cfg op) })

/-! ## The bus -/

/-- Every read of the CPU bus (20 R45, R46, R48, R49): which device answers, under which address, and what the read
changes. -/
def Obligations.BusReadsFollowTheMap : Prop :=
  ∀ (a : Word) (s : State),
    (a.toNat ≤ 0x1FFF → read8 a s = (s.ram.get (a.toNat % 2048), s)) ∧
    (0x2000 ≤ a.toNat → a.toNat ≤ 0x3FFF → ∀ r : Word, r.toNat = 0x2000 + a.toNat % 8 →
      read8 a s = ppuRegRead r s) ∧
    (a.toNat = 0x4014 → read8 a s = (0, s)) ∧
    (0x4018 ≤ a.toNat → a.toNat ≤ 0x401F → read8 a s = (0, s)) ∧
    (0x4000 ≤ a.toNat → a.toNat ≤ 0x4017 → a.toNat ≠ 0x4014 →
      (s.ext = .absent → read8 a s = (0, s)) ∧
      ∀ e, s.ext = .attached e →
        read8 a s = ((Config.extRead e a).1, { s with ext := .attached (Config.extRead e a).2 })) ∧
    (0x4020 ≤ a.toNat →
      (∀ prg chr mir, s.cart = .fixture prg chr mir → read8 a s = (prg.get a.toNat, s)) ∧
      ∀ m, s.cart = .mapper m →
        read8 a s = ((Config.mapperCpuRead m a).1, { s with cart := .mapper (Config.mapperCpuRead m a).2 })) ∧
    ReadFrame s (read8 a s).2

/-- Every write of the CPU bus (20 R45, R46, R48, R49): which device takes it, what it leaves alone, and that a byte
written to RAM reads back at each of its four mirrors. -/
def Obligations.BusWritesFollowTheMap : Prop :=
  ∀ (a : Word) (v : Byte) (s : State),
    (a.toNat ≤ 0x1FFF → write8 a v s = { s with ram := s.ram.set (a.toNat % 2048) v }) ∧
    (0x2000 ≤ a.toNat → a.toNat ≤ 0x3FFF → ∀ r : Word, r.toNat = 0x2000 + a.toNat % 8 →
      write8 a v s = ppuRegWrite r v s) ∧
    (a.toNat = 0x4014 → write8 a v s = oamDma v s) ∧
    (0x4018 ≤ a.toNat → a.toNat ≤ 0x401F → write8 a v s = s) ∧
    (0x4000 ≤ a.toNat → a.toNat ≤ 0x4017 → a.toNat ≠ 0x4014 →
      (s.ext = .absent → write8 a v s = s) ∧
      ∀ e, s.ext = .attached e → write8 a v s = { s with ext := .attached (Config.extWrite e a v) }) ∧
    (0x4020 ≤ a.toNat →
      (s.cart.isFixture = true → write8 a v s = s) ∧
      ∀ m, s.cart = .mapper m → write8 a v s = { s with cart := .mapper (Config.mapperCpuWrite m a v) }) ∧
    StoreEffect a v s (write8 a v s)

/-- The OAM DMA (61 R197): a write of `d` to $4014 makes 256 bus reads of page `d`, in increasing order, each with its
side effects, and puts each byte into OAM before the next read; then it charges 512 cycles. The OAM address stays. STA
$4014 is such a write of A. From a page whose reads change nothing, all that changes is OAM, which becomes the page, and
the cycle count. -/
def Obligations.OamDmaCopiesThePage : Prop :=
  (∀ (d : Byte) (s : State), ∃ u : Nat → State, u 0 = s ∧
    (∀ i, i < 256 →
      let r := read8 (BitVec.ofNat 16 (256 * d.toNat + i)) (u i)
      u (i + 1) = { r.2 with ppu := { r.2.ppu with oam := r.2.ppu.oam.set i r.1 } }) ∧
    write8 0x4014 d s = { u 256 with cycles := s.cycles + 512 } ∧ (write8 0x4014 d s).ppu.oamaddr = s.ppu.oamaddr) ∧
  (∀ s : State, exec (.sta (.abs 0x4014)) s = .next (write8 0x4014 s.a s)) ∧
  ∀ (s : State), Memory.wf 256 s.ppu.oam = true →
    (∀ i, i < 256 → Plain s (BitVec.ofNat 16 (256 * s.a.toNat + i))) →
    ∃ t, exec (.sta (.abs 0x4014)) s = .next t ∧
      t = { s with cycles := s.cycles + 512, ppu := { s.ppu with oam := t.ppu.oam } } ∧
      ∀ i, i < 256 → t.ppu.oam.get i = (read8 (BitVec.ofNat 16 (256 * s.a.toNat + i)) s).1

/-! ## The PPU's registers -/

/-- Reads of the PPU's registers (61 R166), at any of their mirrors: $2002 gives status bits 7..5 and clears VBlank and
the toggle; $2004 gives OAM at the OAM address, with no advance; the write-only registers give 0. -/
def Obligations.PpuRegisterReads : Prop :=
  ∀ (a : Word) (s : State), 0x2000 ≤ a.toNat → a.toNat ≤ 0x3FFF →
    (a.toNat % 8 = 2 → ∃ st : Byte,
      read8 a s = (s.ppu.status &&& 0xE0, { s with ppu := { s.ppu with status := st, w := false } }) ∧
      ∀ i, st.getLsbD i = (s.ppu.status.getLsbD i && decide (i ≠ 7))) ∧
    (a.toNat % 8 = 4 → read8 a s = (s.ppu.oam.get s.ppu.oamaddr.toNat, s)) ∧
    (a.toNat % 8 = 0 ∨ a.toNat % 8 = 1 ∨ a.toNat % 8 = 3 ∨ a.toNat % 8 = 5 ∨ a.toNat % 8 = 6 → read8 a s = (0, s))

/-- Writes of $2000 to $2004 (61 R168 to R171; R167 for $2002), at any of their mirrors. Nothing but the named fields
changes. That a write of $2002 is ignored (92 D6, cited by R167) and that the OAM address wraps (92 D2, cited by R171)
are the spec's own choices, which the model follows (log 9). -/
def Obligations.PpuControlAndOamWrites : Prop :=
  ∀ (a : Word) (d : Byte) (s : State), 0x2000 ≤ a.toNat → a.toNat ≤ 0x3FFF →
    (a.toNat % 8 = 0 → ∃ t : BitVec 15, write8 a d s = { s with ppu := { s.ppu with ctrl0 := d, t := t } } ∧
      ∀ i, t.getLsbD i = if i = 10 then d.getLsbD 0 else if i = 11 then d.getLsbD 1 else s.ppu.t.getLsbD i) ∧
    (a.toNat % 8 = 1 → write8 a d s = { s with ppu := { s.ppu with ctrl1 := d } }) ∧
    (a.toNat % 8 = 2 → write8 a d s = s) ∧
    (a.toNat % 8 = 3 → write8 a d s = { s with ppu := { s.ppu with oamaddr := d } }) ∧
    (a.toNat % 8 = 4 → ∃ o n, write8 a d s = { s with ppu := { s.ppu with oam := o, oamaddr := n } } ∧
      n.toNat = (s.ppu.oamaddr.toNat + 1) % 256 ∧
      (Memory.wf 256 s.ppu.oam = true → o.get s.ppu.oamaddr.toNat = d) ∧
      ∀ i, i ≠ s.ppu.oamaddr.toNat → o.get i = s.ppu.oam.get i)

/-- Writes of $2005 (61 R172), at any of its mirrors: the first sets coarse-x in t and fine-x, the second coarse-y and
fine-y in t; the toggle flips. The split of the byte, bits 7..3 coarse and bits 2..0 fine, is the spec's own choice (92
D29, cited by R172), which the model follows (log 9). -/
def Obligations.ScrollWritesFillT : Prop :=
  ∀ (a : Word) (d : Byte) (s : State), 0x2000 ≤ a.toNat → a.toNat ≤ 0x3FFF → a.toNat % 8 = 5 →
    (s.ppu.w = false → ∃ (t : BitVec 15) (x : BitVec 3),
      write8 a d s = { s with ppu := { s.ppu with t := t, x := x, w := true } } ∧
      (∀ i, t.getLsbD i = if i < 5 then d.getLsbD (i + 3) else s.ppu.t.getLsbD i) ∧
      ∀ i, i < 3 → x.getLsbD i = d.getLsbD i) ∧
    (s.ppu.w = true → ∃ t : BitVec 15,
      write8 a d s = { s with ppu := { s.ppu with t := t, w := false } } ∧
      ∀ i, t.getLsbD i =
        if 5 ≤ i ∧ i < 10 then d.getLsbD (i - 2) else if 12 ≤ i ∧ i < 15 then d.getLsbD (i - 12)
        else s.ppu.t.getLsbD i)

/-- Writes of $2006 (61 R173), at any of its mirrors: the first sets t[13:8] and clears t[14], the second sets t[7:0]
and copies t to v; the toggle flips. After two writes from toggle 0, v and t are the address written, modulo 0x4000
(R173 twice; 70 R203 has the shared toggle). That the high bits are t[13:8] and that the first write clears t[14] is the
spec's own choice (92 D29 and 90 C4, cited by R173), which the model follows (log 9). -/
def Obligations.AddressWritesFillTAndV : Prop :=
  ∀ (a : Word) (d : Byte) (s : State), 0x2000 ≤ a.toNat → a.toNat ≤ 0x3FFF → a.toNat % 8 = 6 →
    (s.ppu.w = false → ∃ t : BitVec 15,
      write8 a d s = { s with ppu := { s.ppu with t := t, w := true } } ∧
      ∀ i, t.getLsbD i =
        if 8 ≤ i ∧ i < 14 then d.getLsbD (i - 8) else if i = 14 then false else s.ppu.t.getLsbD i) ∧
    (s.ppu.w = true → ∃ t : BitVec 15,
      write8 a d s = { s with ppu := { s.ppu with t := t, v := t, w := false } } ∧
      ∀ i, t.getLsbD i = if i < 8 then d.getLsbD i else s.ppu.t.getLsbD i) ∧
    (s.ppu.w = false → ∀ lo : Byte, ∃ t : BitVec 15,
      write8 a lo (write8 a d s) = { s with ppu := { s.ppu with t := t, v := t, w := false } } ∧
      t.toNat = (256 * d.toNat + lo.toNat) % 0x4000)

/-- Writes of $2007 (61 R174), at any of its mirrors: the byte goes to the VRAM address `v & 0x3FFF`, to CHR, a
nametable or the palette (R176), and v advances by 1 or 32, modulo 0x8000. That v wraps so, and that the address is `v &
0x3FFF`, is the spec's own choice (92 D30, cited by R174), as are the mirrors and the 8 bits of a palette byte (92 D32,
D31, cited by R176); the model follows them (log 9). -/
def Obligations.DataPortWrites : Prop :=
  ∀ (a : Word) (d : Byte) (s : State), 0x2000 ≤ a.toNat → a.toNat ≤ 0x3FFF → a.toNat % 8 = 7 →
    ∃ v' : BitVec 15, v'.toNat = (s.ppu.v.toNat + if s.ppu.ctrl0.getLsbD 2 then 32 else 1) % 0x8000 ∧
      let adr := s.ppu.v.toNat % 0x4000
      (adr < 0x2000 → ∀ prg chr mir, s.cart = .fixture prg chr mir →
        write8 a d s = { s with cart := .fixture prg (chr.set adr d) mir, ppu := { s.ppu with v := v' } }) ∧
      (adr < 0x2000 → ∀ m, s.cart = .mapper m →
        write8 a d s = { s with
          cart := .mapper (Config.mapperChrWrite m (BitVec.ofNat 14 adr) d), ppu := { s.ppu with v := v' } }) ∧
      (0x2000 ≤ adr → adr < 0x3F00 →
        write8 a d s = { s with ppu := { s.ppu with
          v := v', nt := s.ppu.nt.set (ntKey s.cart (BitVec.ofNat 14 adr)) d } }) ∧
      (0x3F00 ≤ adr →
        write8 a d s = { s with ppu := { s.ppu with
          v := v', palette := s.ppu.palette.set (palIndex (BitVec.ofNat 14 adr)) d } })

/-- Reads of $2007 (61 R175), at any of its mirrors: a palette byte at once, the latch unchanged; else the latch, which
is refilled from VRAM; v advances by 1 or 32, modulo 0x8000. That a palette read is answered at once and leaves the
latch is the spec's own choice (92 D31, cited by R175), which the model follows (log 9). -/
def Obligations.DataPortReads : Prop :=
  ∀ (a : Word) (s : State), 0x2000 ≤ a.toNat → a.toNat ≤ 0x3FFF → a.toNat % 8 = 7 →
    ∃ v' : BitVec 15, v'.toNat = (s.ppu.v.toNat + if s.ppu.ctrl0.getLsbD 2 then 32 else 1) % 0x8000 ∧
      let adr := BitVec.ofNat 14 (s.ppu.v.toNat % 0x4000)
      (0x3F00 ≤ adr.toNat → read8 a s = (vramPeek s adr, { s with ppu := { s.ppu with v := v' } })) ∧
      (adr.toNat < 0x3F00 → ∃ c,
        read8 a s = (s.ppu.latch, { s with cart := c, ppu := { s.ppu with v := v', latch := vramPeek s adr } }) ∧
        (0x2000 ≤ adr.toNat ∨ s.cart.isFixture = true → c = s.cart) ∧
        ∀ m, adr.toNat < 0x2000 → s.cart = .mapper m → c = .mapper (Config.mapperChrRead m adr).2)

/-- The PPU's address space (61 R176, 20 R49): the palette repeats every 32 bytes, with the sprite palettes' first
entries shared; 0x3000-0x3EFF repeats 0x2000-0x2EFF; a nametable byte is that of the physical nametable the cartridge
names; a fixture's four mirroring kinds are those of R49; a VRAM write reads back at every address of the same byte. -/
def Obligations.VramMirrors : Prop :=
  ∀ (s : State) (a : PpuAddr),
    (0x3F00 ≤ a.toNat →
      vramPeek s a = s.ppu.palette.get (if a.toNat % 4 = 0 then a.toNat % 16 else a.toNat % 32)) ∧
    (0x2000 ≤ a.toNat → a.toNat < 0x3F00 →
      vramPeek s a = s.ppu.nt.get
        (1024 * (mirror s.cart (BitVec.ofNat 2 (a.toNat / 1024 % 4))).toNat + a.toNat % 1024)) ∧
    (0x2000 ≤ a.toNat → a.toNat < 0x2F00 → vramPeek s (a + 0x1000) = vramPeek s a) ∧
    (∀ prg chr mir, s.cart = .fixture prg chr mir → (a.toNat < 0x2000 → vramPeek s a = chr.get a.toNat) ∧
      [0, 1, 2, 3].map (fun n => (mirror s.cart (BitVec.ofNat 2 n)).toNat) =
        match mir with
        | .horizontal => [0, 0, 1, 1]
        | .vertical => [0, 1, 0, 1]
        | .single k => [k.toNat, k.toNat, k.toNat, k.toNat]
        | .fourScreen => [0, 1, 2, 3]) ∧
    (s.cart.isFixture = true → Inv s → ∀ d b, vramPeek s b ≠ vramPeek (vramWrite a d s) b →
      vramPeek (vramWrite a d s) b = d) ∧
    (s.cart.isFixture = true → Inv s → ∀ d, vramPeek (vramWrite a d s) a = d)

/-! ## The scroll state machine -/

/-- The horizontal copy (61 R180), one pixel's advance (R181), a line's 256 advances, and the advance at a line's end
(R182), field by field. -/
def Obligations.ScrollAdvances : Prop :=
  ∀ (v t : BitVec 15) (fx : BitVec 3),
    (∀ i, (horizontalCopy v t).getLsbD i = if i < 5 ∨ i = 10 then t.getLsbD i else v.getLsbD i) ∧
    (fx.toNat ≠ 7 → advanceX fx v = (fx + 1, v)) ∧
    (fx.toNat = 7 → (advanceX fx v).1 = 0 ∧
      (advanceX fx v).2.toNat % 32 = (v.toNat % 32 + 1) % 32 ∧
      ∀ i, 5 ≤ i → (advanceX fx v).2.getLsbD i = (v.getLsbD i ^^ decide (i = 10 ∧ v.toNat % 32 = 31))) ∧
    advanceXTimes 256 fx v = (fx, v ^^^ 0x0400) ∧
    (v.toNat / 4096 < 7 → (advanceY v).toNat = v.toNat + 4096) ∧
    (v.toNat / 4096 = 7 → (advanceY v).toNat / 4096 = 0 ∧
      (advanceY v).toNat / 32 % 32 =
        (if v.toNat / 32 % 32 = 29 ∨ v.toNat / 32 % 32 = 31 then 0 else v.toNat / 32 % 32 + 1) ∧
      (advanceY v).toNat % 32 = v.toNat % 32 ∧ (advanceY v).getLsbD 10 = v.getLsbD 10 ∧
      (advanceY v).getLsbD 11 = (v.getLsbD 11 ^^ decide (v.toNat / 32 % 32 = 29)))

/-! ## Interrupts -/

/-- An IRQ delivered between two steps, in a frame or not (60 R153, R156): dropped when I = 1; else PC and P, with bit
4 clear and bit 5 set, are pushed, I is set, PC comes from 0xFFFE, and 7 cycles are counted. -/
def Obligations.IrqIsDroppedOrEntered : Prop :=
  ∀ (s : State) (rest : List HostInput), s.faulted = false → s.inputs = .irq :: rest →
    (getFlag s.p .i = true → step s = .next { s with inputs := rest }) ∧
    (getFlag s.p .i = false → ∃ t, step s = .next t ∧
      t = { s with
        ram := t.ram, sp := s.sp - 3, p := t.p, pc := t.pc, cart := t.cart, cycles := s.cycles + 7, inputs := rest } ∧
      t.pc = mkWord (read8 0xFFFF (read8 0xFFFE s).2).1 (read8 0xFFFE s).1 ∧
      t.cart = (read8 0xFFFF (read8 0xFFFE s).2).2.cart ∧
      getFlag t.p .i = true ∧ FlagsKept [.i] s.p t.p ∧
      Pushed [hiByte s.pc, loByte s.pc, (s.p ||| 0x20) &&& 0xEF] s t)

/-- The NMI service (60 R154, R156): as an IRQ's entry, through 0xFFFA, and whatever I is. -/
def Obligations.NmiEntersWhateverI : Prop :=
  ∀ (s : State), ∃ t, nmiService s = t ∧
    t = { s with ram := t.ram, sp := s.sp - 3, p := t.p, pc := t.pc, cart := t.cart, cycles := s.cycles + 7 } ∧
    t.pc = mkWord (read8 0xFFFB (read8 0xFFFA s).2).1 (read8 0xFFFA s).1 ∧
    t.cart = (read8 0xFFFB (read8 0xFFFA s).2).2.cart ∧
    getFlag t.p .i = true ∧ FlagsKept [.i] s.p t.p ∧
    Pushed [hiByte s.pc, loByte s.pc, (s.p ||| 0x20) &&& 0xEF] s t

/-! ## The frame -/

/-- `draw_frame()` begins (61 R193, R195): v from t when either renderer is enabled, the three status flags cleared,
the palette snapshot taken, the frame buffer and the info plane cleared; then line 0's budget starts. Nothing else
changes. -/
def Obligations.FrameBeginsAsStated : Prop :=
  ∀ (s : State) (rest : List HostInput), s.phase = .idle → s.inputs = .drawFrame :: rest →
    ∃ st : Byte, step s = .next { s with
        inputs := rest, phase := .visible 0 s.cycles
        ppu := { s.ppu with
          v := if s.ppu.ctrl1.getLsbD 3 = true ∨ s.ppu.ctrl1.getLsbD 4 = true then s.ppu.t else s.ppu.v
          status := st, paletteCache := s.ppu.palette, fb := [], info := [], scanline := 0 } } ∧
      ∀ i, st.getLsbD i = (s.ppu.status.getLsbD i && decide (i < 5))

/-- A visible line whose budget is spent, or broken off (40 R87), is drawn, and the next line's budget starts, or the
post-render one after line 239 (61 R194, R195). The step draws what `drawScanline` draws: its pixels, info bytes,
sprite-0 hit, overflow and v, which DrawnLineKeepsItsPromises, BackgroundPixels and SpritesAreDrawnInOrder describe.
Nothing else changes. -/
def Obligations.VisibleLineEndsWithItsDrawing : Prop :=
  ∀ (s : State) (line : Nat) (start : BitVec 64), GoesOn s → s.phase = .visible line start → ¬RunsNow s →
    ∃ t, step s = .next t ∧
      t = { s with
        inputs := s.inputs.tail
        phase := if line < 239 then .visible (line + 1) s.cycles else .postRender s.cycles
        ppu := { s.ppu with
          fb := t.ppu.fb, info := t.ppu.info, status := t.ppu.status, v := t.ppu.v
          scanline := if line < 239 then line + 1 else s.ppu.scanline } } ∧
      t.ppu.fb = (drawScanline line s).ppu.fb ∧ t.ppu.info = (drawScanline line s).ppu.info ∧
      t.ppu.status = (drawScanline line s).ppu.status ∧ t.ppu.v = (drawScanline line s).ppu.v ∧
      (∀ i, i ≠ 5 → i ≠ 6 → t.ppu.status.getLsbD i = s.ppu.status.getLsbD i) ∧
      (∀ l sx, l ≠ line → lastFrame t l sx = lastFrame s l sx ∧ infoAt t l sx = infoAt s l sx) ∧
      t.ppu.v =
        (let v0 := if s.ppu.rendering then horizontalCopy s.ppu.v s.ppu.t else s.ppu.v
        let v1 := if s.ppu.ctrl1.getLsbD 3 then v0 ^^^ 0x0400 else v0
        if s.ppu.rendering then advanceY v1 else v1)

/-- Frame steps 4 and 6 (61 R195, 70 R206): when the post-render budget is over, VBlank is set and the NMI entered if
ctrl0 bit 7 is 1, and the VBlank budget starts after it; when that is over, VBlank is cleared and the frame is done. A
faulted machine takes no NMI (log 11). -/
def Obligations.VblankBeginsAndEnds : Prop :=
  ∀ (s : State) (start : BitVec 64), GoesOn s → ¬RunsNow s →
    (s.phase = .postRender start → ∃ st : Byte, (∀ i, st.getLsbD i = (s.ppu.status.getLsbD i || decide (i = 7))) ∧
      (s.ppu.ctrl0.getLsbD 7 = false →
        step s = .next { s with
          inputs := s.inputs.tail, ppu := { s.ppu with status := st }, phase := .vblank s.cycles }) ∧
      (s.ppu.ctrl0.getLsbD 7 = true → s.faulted = false →
        step s = .next { nmiService { s with inputs := s.inputs.tail, ppu := { s.ppu with status := st } } with
          phase := .vblank (s.cycles + 7) })) ∧
    (s.phase = .vblank start → ∃ st : Byte, (∀ i, st.getLsbD i = (s.ppu.status.getLsbD i && decide (i ≠ 7))) ∧
      step s = .next { s with inputs := s.inputs.tail, ppu := { s.ppu with status := st }, phase := .idle })

/-- What drawing a line leaves (10_state R34; 61 R187, R188, R192): 256 pixels of alpha 255, info bits 7..2 at 0; with
both renderers off, the universal colour throughout; sprite-0 hit set only with both renderers on; overflow, with
sprites on, exactly when more than 8 sprites are in range, and else as it was. -/
def Obligations.DrawnLineKeepsItsPromises : Prop :=
  ∀ (s : State) (line : Nat), fbWf s.ppu.fb = true → infoWf s.ppu.info = true →
    let t := drawScanline line s
    (∀ sx, sx < 256 → (lastFrame t line sx).a = 0xFF ∧ infoAt t line sx &&& 0xFC = 0) ∧
    (s.ppu.ctrl1.getLsbD 3 = false → s.ppu.ctrl1.getLsbD 4 = false →
      ∀ sx, sx < 256 → lastFrame t line sx = colorOf s 0 ∧ infoAt t line sx = 0) ∧
    (s.ppu.status.getLsbD 6 = true → t.ppu.status.getLsbD 6 = true) ∧
    (t.ppu.status.getLsbD 6 = true →
      s.ppu.status.getLsbD 6 = true ∨ (s.ppu.ctrl1.getLsbD 3 = true ∧ s.ppu.ctrl1.getLsbD 4 = true)) ∧
    (s.ppu.ctrl1.getLsbD 4 = false → t.ppu.status.getLsbD 5 = s.ppu.status.getLsbD 5) ∧
    (s.ppu.ctrl1.getLsbD 4 = true → t.ppu.status.getLsbD 5 = decide (8 < (List.range 64).countP fun i =>
      decide ((s.ppu.oam.get (4 * i)).toNat + s.cfg.spriteYOffset ≤ line ∧
        line < (s.ppu.oam.get (4 * i)).toNat + s.cfg.spriteYOffset + if s.ppu.ctrl0.getLsbD 5 then 16 else 8)))

/-- Colours, and a background pixel. The colour of palette index i is the entry of the master palette that the low 6
bits of palette byte i select, with alpha 255, from the frame's snapshot of the palette or from the palette as it
stands, as PALETTE_TIMING directs (61 R177, R178), both parameters of the spec (92 D33, D34; logs 5, 6). A pixel (R183,
R185, R186), with sprites off: at column sx, fine-x and v are those after sx advances; the tile index, the two planes,
the attribute and the palette index are read where the rules say; a transparent or clipped pixel has the universal
colour. -/
def Obligations.BackgroundPixels : Prop :=
  (∀ (s : State) (i : Nat), i < 32 →
    let palette := match s.cfg.paletteTiming with
      | .frameStart => s.ppu.paletteCache
      | .live => s.ppu.palette
    let rgb := Config.masterPalette (BitVec.ofNat 6 ((palette.get i).toNat % 64))
    colorOf s i = { r := rgb.r, g := rgb.g, b := rgb.b, a := 0xFF }) ∧
  ∀ (s : State) (line sx : Nat), fbWf s.ppu.fb = true → infoWf s.ppu.info = true →
    s.ppu.ctrl1.getLsbD 3 = true → s.ppu.ctrl1.getLsbD 4 = false → sx < 256 →
    let at' := advanceXTimes sx s.ppu.x (horizontalCopy s.ppu.v s.ppu.t)
    let fx := at'.1.toNat
    let v := at'.2.toNat
    let cx := v % 32
    let cy := v / 32 % 32
    let n := v / 1024 % 4
    let fy := v / 4096
    let tile := (vramPeek s (BitVec.ofNat 14 (0x2000 + 0x400 * n + 32 * cy + cx))).toNat
    let table := if s.ppu.ctrl0.getLsbD 4 then 0x1000 else 0x0000
    let low := (vramPeek s (BitVec.ofNat 14 (table + 16 * tile + fy))).toNat
    let high := (vramPeek s (BitVec.ofNat 14 (table + 16 * tile + 8 + fy))).toNat
    let p := low / 2 ^ (7 - fx) % 2 + 2 * (high / 2 ^ (7 - fx) % 2)
    let attr := (vramPeek s (BitVec.ofNat 14 (0x2000 + 0x400 * n + 0x3C0 + 8 * (cy / 4) + cx / 4))).toNat
    let msb := attr / 2 ^ (4 * (cy / 2 % 2) + 2 * (cx / 2 % 2)) % 4
    let t := drawScanline line s
    if (sx < 8 ∧ s.ppu.ctrl1.getLsbD 1 = false) ∨ p = 0 then
      lastFrame t line sx = colorOf s 0 ∧ infoAt t line sx = 0
    else lastFrame t line sx = colorOf s (4 * msb + p) ∧ infoAt t line sx = 1

/-- A sprite pixel (61 R183, R189 to R192), at column c of a sprite on one of its rows: the tile, its row and its
column, with flips and 8x16 tiles; nothing happens off the right edge, clipped, transparent or where a sprite already
wrote; else the dot is claimed, coloured unless the sprite is behind an opaque background, and sprite 0 hits. -/
def Obligations.SpritePixels : Prop :=
  ∀ (s : State) (i row c : Nat) (sp : Sprite) (b : LineBuf),
    b.dots.length = 256 → c < 8 → row < (if s.ppu.ctrl0.getLsbD 5 then 16 else 8) →
    let tall := s.ppu.ctrl0.getLsbD 5
    let attr := sp.attr.toNat
    let r := if attr / 128 = 1 then (if tall then 16 else 8) - 1 - row else row
    let table := if (if tall then decide (sp.tile.toNat % 2 = 1) else s.ppu.ctrl0.getLsbD 3) then 0x1000 else 0x0000
    let tile := if tall then sp.tile.toNat / 2 * 2 + r / 8 else sp.tile.toNat
    let col := if attr / 64 % 2 = 1 then 7 - c else c
    let low := (vramPeek s (BitVec.ofNat 14 (table + 16 * tile + r % 8))).toNat
    let high := (vramPeek s (BitVec.ofNat 14 (table + 16 * tile + 8 + r % 8))).toNat
    let p := low / 2 ^ (7 - col) % 2 + 2 * (high / 2 ^ (7 - col) % 2)
    let sx := sp.x.toNat + c
    let b' := spritePixel s i sp (spriteTile s sp row) b c
    (256 ≤ sx ∨ (sx < 8 ∧ s.ppu.ctrl1.getLsbD 2 = false) ∨ p = 0 → b' = b) ∧
    ∀ d, b.dots[sx]? = some d → ¬(sx < 8 ∧ s.ppu.ctrl1.getLsbD 2 = false) → p ≠ 0 →
      (d.info.getLsbD 1 = true → b' = b) ∧
      (d.info.getLsbD 1 = false →
        b'.dots[sx]? = some
          { px := if attr / 32 % 2 = 1 ∧ d.info.getLsbD 0 = true then d.px else colorOf s (16 + 4 * (attr % 4) + p)
            info := d.info ||| 2 } ∧
        (∀ k, k ≠ sx → b'.dots[k]? = b.dots[k]?) ∧
        b'.s0 = (b.s0 || decide (i = 0 ∧ d.info.getLsbD 0 = true)))

/-- A line with sprites on (61 R187, R188, R191, R192), column by column, over the line as it is drawn with sprites off,
which BackgroundPixels describes and which is the universal colour when the background is off too. Of the first eight
sprites in range, in index order, the first one that is not transparent, clipped or elsewhere at the column owns it: it
marks info bit 1, and shows its colour unless it is behind an opaque background. A column no sprite owns is as without
sprites. Sprite-0 hit becomes set exactly when sprite 0 is drawn and has such a pixel over an opaque background. The
attribute bits and what clipped pixels mark are the spec's own choices (92 D40, D41; log 9), the row offset its parameter
(92 D39; log 5). -/
def Obligations.SpritesAreDrawnInOrder : Prop :=
  ∀ (s : State) (line : Nat), fbWf s.ppu.fb = true → infoWf s.ppu.info = true → s.ppu.ctrl1.getLsbD 4 = true →
    let t := drawScanline line s
    let u := drawScanline line { s with ppu := { s.ppu with ctrl1 := s.ppu.ctrl1 &&& 0xEF } }
    (∀ sx, sx < 256 →
      (s.ppu.ctrl1.getLsbD 3 = false → lastFrame u line sx = colorOf s 0 ∧ infoAt u line sx = 0) ∧
      match (drawnSprites s line).find? fun i => decide (spriteValueAt s line i sx ≠ 0) with
      | none => lastFrame t line sx = lastFrame u line sx ∧ infoAt t line sx = infoAt u line sx
      | some i =>
        let attr := (s.ppu.oam.get (4 * i + 2)).toNat
        infoAt t line sx = infoAt u line sx ||| 2 ∧
        lastFrame t line sx =
          if attr / 32 % 2 = 1 ∧ infoAt u line sx = 1 then lastFrame u line sx
          else colorOf s (16 + 4 * (attr % 4) + spriteValueAt s line i sx)) ∧
    (t.ppu.status.getLsbD 6 = true ↔
      s.ppu.status.getLsbD 6 = true ∨
        (0 ∈ drawnSprites s line ∧ ∃ sx, sx < 256 ∧ spriteValueAt s line 0 sx ≠ 0 ∧ infoAt u line sx = 1))
end

