-- ==== Sys2Proof/Laws/Arith.lean ====
section
/-! SUPPORT. The sums, differences and shifts of Flags.lean as numbers (42_arithmetic_logic R101 to R103,
43_shift_rotate R117 to R120). -/

namespace Sys2Proof.Machine

/-- A byte's sign bit, its signed and its unsigned value. -/
theorem byte_sign (b : Byte) :
    (b.getLsbD 7 = false ∧ b.toInt = b.toNat ∧ b.toNat < 128) ∨
      (b.getLsbD 7 = true ∧ b.toInt = (b.toNat : Int) - 256 ∧ 128 ≤ b.toNat) := by
  revert b; decide

theorem addResult_r (a m : Byte) (c : Bool) : (addResult a m c).r.toNat = (a.toNat + m.toNat + c.toNat) % 256 := by
  simp [addResult]

/-- ADC's overflow: A and M share a sign and the result's differs. -/
theorem addResult_v (a m : Byte) (c : Bool) :
    (addResult a m c).v = (a.getLsbD 7 == m.getLsbD 7 && a.getLsbD 7 != (addResult a m c).r.getLsbD 7) := by
  simp only [addResult]
  generalize BitVec.ofNat 8 _ = r
  simp only [BitVec.getLsbD_and, BitVec.getLsbD_not, BitVec.getLsbD_xor]
  generalize a.getLsbD 7 = x
  generalize m.getLsbD 7 = y
  generalize r.getLsbD 7 = z
  cases x <;> cases y <;> cases z <;> rfl

/-- ADC's overflow is signed overflow. -/
theorem addResult_v_signed (a m : Byte) (c : Bool) :
    (addResult a m c).v =
      decide (a.toInt + m.toInt + c.toNat < -128 ∨ 127 < a.toInt + m.toInt + c.toNat) := by
  rw [addResult_v]
  have h := addResult_r a m c
  generalize (addResult a m c).r = r at *
  have hc : c.toNat ≤ 1 := by cases c <;> decide
  generalize c.toNat = k at *
  have := a.isLt
  have := m.isLt
  rcases byte_sign a with ⟨h1, h2, h3⟩ | ⟨h1, h2, h3⟩ <;>
  rcases byte_sign m with ⟨k1, k2, k3⟩ | ⟨k1, k2, k3⟩ <;>
  rcases byte_sign r with ⟨l1, l2, l3⟩ | ⟨l1, l2, l3⟩ <;>
  rw [h1, k1, l1, h2, k2] <;> simp <;> omega

theorem subResult_r (a m : Byte) (c : Bool) :
    ((subResult a m c).r.toNat : Int) = ((a.toNat : Int) - m.toNat - (1 - c.toNat)) % 256 := by
  have : (0 : Int) ≤ ((a.toNat : Int) - m.toNat - (1 - c.toNat)) % 256 := by omega
  simp [subResult, BitVec.toNat_ofInt, this]

/-- SBC's overflow: A and M differ in sign and the result's is not A's. -/
theorem subResult_v (a m : Byte) (c : Bool) :
    (subResult a m c).v = (a.getLsbD 7 != m.getLsbD 7 && a.getLsbD 7 != (subResult a m c).r.getLsbD 7) := by
  simp only [subResult]
  generalize BitVec.ofInt 8 _ = r
  simp only [BitVec.getLsbD_and, BitVec.getLsbD_xor]

/-- SBC's overflow is signed overflow. -/
theorem subResult_v_signed (a m : Byte) (c : Bool) :
    (subResult a m c).v =
      decide (a.toInt - m.toInt - (1 - (c.toNat : Int)) < -128 ∨ 127 < a.toInt - m.toInt - (1 - (c.toNat : Int))) := by
  rw [subResult_v]
  have h := subResult_r a m c
  generalize (subResult a m c).r = r at *
  have hc : c.toNat ≤ 1 := by cases c <;> decide
  generalize c.toNat = k at *
  have := a.isLt
  have := m.isLt
  rcases byte_sign a with ⟨h1, h2, h3⟩ | ⟨h1, h2, h3⟩ <;>
  rcases byte_sign m with ⟨k1, k2, k3⟩ | ⟨k1, k2, k3⟩ <;>
  rcases byte_sign r with ⟨l1, l2, l3⟩ | ⟨l1, l2, l3⟩ <;>
  rw [h1, k1, l1, h2, k2] <;> simp <;> omega

/-- SBC computes ADC of the complement (R103). -/
theorem subResult_eq_addResult (a m : Byte) (c : Bool) : subResult a m c = addResult a (~~~m) c := by
  have hm := m.isLt
  have hr : (subResult a m c).r = (addResult a (~~~m) c).r := by
    apply BitVec.eq_of_toNat_eq
    have h1 := subResult_r a m c
    have h2 := addResult_r a (~~~m) c
    rw [BitVec.toNat_not] at h2
    omega
  have hv : (subResult a m c).v = (addResult a (~~~m) c).v := by
    rw [subResult_v, addResult_v, hr, show (~~~m).getLsbD 7 = !m.getLsbD 7 by simp]
    generalize a.getLsbD 7 = x
    generalize m.getLsbD 7 = y
    generalize (addResult a (~~~m) c).r.getLsbD 7 = z
    cases x <;> cases y <;> cases z <;> rfl
  have hc : (subResult a m c).c = (addResult a (~~~m) c).c := by
    simp only [subResult, addResult, BitVec.toNat_not]
    rw [decide_eq_decide]
    omega
  cases h1 : subResult a m c
  cases h2 : addResult a (~~~m) c
  simp_all

/-! ## Shifts -/

theorem aslResult_eq (v : Byte) (c : Bool) :
    (aslResult v c).r.toNat = 2 * v.toNat % 256 ∧ (aslResult v c).c = decide (128 ≤ v.toNat) := by
  revert v; cases c <;> decide

theorem lsrResult_eq (v : Byte) (c : Bool) :
    (lsrResult v c).r.toNat = v.toNat / 2 ∧ (lsrResult v c).c = decide (v.toNat % 2 = 1) := by
  revert v; cases c <;> decide

theorem rolResult_eq (v : Byte) (c : Bool) :
    (rolResult v c).r.toNat = (2 * v.toNat + c.toNat) % 256 ∧ (rolResult v c).c = decide (128 ≤ v.toNat) := by
  revert v; cases c <;> decide

theorem rorResult_eq (v : Byte) (c : Bool) :
    (rorResult v c).r.toNat = 128 * c.toNat + v.toNat / 2 ∧ (rorResult v c).c = decide (v.toNat % 2 = 1) := by
  revert v; cases c <;> decide

end Sys2Proof.Machine
end

