-- ==== Sys2Proof/Laws/Decode.lean ====
section
/-! SUPPORT. Words from bytes and back, and what the opcode table holds. -/

namespace Sys2Proof

theorem mkWord_toNat (hi lo : Byte) : (mkWord hi lo).toNat = 256 * hi.toNat + lo.toNat := by
  have hlo := lo.isLt
  show (hi ++ lo).toNat = _
  rw [BitVec.toNat_append, Nat.shiftLeft_eq, Nat.mul_comm, ← Nat.two_pow_add_eq_or_of_lt hlo]

theorem hiByte_toNat (w : Word) : (hiByte w).toNat = w.toNat / 256 := by
  have := w.isLt
  simp only [hiByte, BitVec.extractLsb'_toNat, Nat.shiftRight_eq_div_pow]
  omega

theorem loByte_toNat (w : Word) : (loByte w).toNat = w.toNat % 256 := by
  simp [loByte, BitVec.extractLsb'_toNat]

@[simp] theorem hiByte_mkWord (hi lo : Byte) : hiByte (mkWord hi lo) = hi := by
  have := lo.isLt
  apply BitVec.eq_of_toNat_eq
  rw [hiByte_toNat, mkWord_toNat]; omega

@[simp] theorem loByte_mkWord (hi lo : Byte) : loByte (mkWord hi lo) = lo := by
  have := lo.isLt
  apply BitVec.eq_of_toNat_eq
  rw [loByte_toNat, mkWord_toNat]; omega

@[simp] theorem mkWord_hiByte_loByte (w : Word) : mkWord (hiByte w) (loByte w) = w := by
  apply BitVec.eq_of_toNat_eq
  rw [mkWord_toNat, hiByte_toNat, loByte_toNat]; omega

/-- The table has R61's 151 rows. -/
theorem opTable_length : opTable.length = 151 := by decide +kernel

/-- A byte has no row exactly when it stands in R64's list. -/
theorem opRow_isNone_iff (op : Byte) : (opRow op).isNone = unknownOpcodes.contains op := by
  revert op; decide +kernel

/-- Every row gives its form at most two operand bytes. -/
theorem operandCount_le (op : Byte) : operandCount op ≤ 2 := by
  revert op; decide +kernel

theorem decode_zero {op : Byte} (h : operandCount op = 0) (r : List Byte) :
    decode (op :: r) = .ok (decodeOp op 0 0, r) := by simp only [decode, h]

theorem decode_one {op : Byte} (h : operandCount op = 1) (b : Byte) (r : List Byte) :
    decode (op :: b :: r) = .ok (decodeOp op b 0, r) := by simp only [decode, h]

theorem decode_two {op : Byte} (h : operandCount op = 2) (b c : Byte) (r : List Byte) :
    decode (op :: b :: c :: r) = .ok (decodeOp op b c, r) := by simp only [decode, h]

/-- An unknown opcode decodes to itself. -/
theorem decodeOp_unknown {op : Byte} (h : op ∈ unknownOpcodes) (b c : Byte) : decodeOp op b c = .unknown op := by
  have h' := opRow_isNone_iff op
  rw [List.contains_iff_mem.mpr h, Option.isNone_iff_eq_none] at h'
  simp [decodeOp, h']

end Sys2Proof
end

