-- ==== Sys2Proof/Laws/Memory.lean ====
section
/-! SUPPORT. Sparse maps: read after write, a write leaves every other key alone, and every operation keeps the
canonical form. -/

namespace Sys2Proof.Machine

variable {α : Type} [DecidableEq α] {d : α} {size lo i j : Nat} {v w : α} {m : SparseMap α}

omit [DecidableEq α] in
@[simp] theorem SparseMap.get_nil : SparseMap.get d [] i = d := rfl

omit [DecidableEq α] in
theorem SparseMap.get_cons (k : Nat) :
    SparseMap.get d ((k, w) :: m) i = if i = k then w else SparseMap.get d m i := rfl

/-- A write leaves every other key alone, whatever the form. -/
theorem SparseMap.get_set_ne (h : j ≠ i) : SparseMap.get d (SparseMap.set d m i v) j = SparseMap.get d m j := by
  induction m with
  | nil => simp only [SparseMap.set]; split <;> simp [SparseMap.get, h]
  | cons e m ih =>
    obtain ⟨k, w⟩ := e
    simp only [SparseMap.set]
    split
    · split <;> simp [SparseMap.get, h]
    · split
      · subst_vars; split <;> simp [SparseMap.get, h]
      · simp only [SparseMap.get, ih]

/-- A key below the form's lower bound is not listed. -/
theorem SparseMap.get_of_wfFrom (hw : SparseMap.wfFrom d size lo m = true) (h : i < lo) : SparseMap.get d m i = d := by
  induction m generalizing lo with
  | nil => rfl
  | cons e m ih =>
    obtain ⟨k, w⟩ := e
    simp only [SparseMap.wfFrom, Bool.and_eq_true, decide_eq_true_eq] at hw
    rw [SparseMap.get_cons, if_neg (by omega)]
    exact ih hw.2 (by omega)

theorem SparseMap.get_set_self_from (hw : SparseMap.wfFrom d size lo m = true) :
    SparseMap.get d (SparseMap.set d m i v) i = v := by
  induction m generalizing lo with
  | nil => simp only [SparseMap.set]; split <;> simp [SparseMap.get, *]
  | cons e m ih =>
    obtain ⟨k, w⟩ := e
    have hm := hw
    simp only [SparseMap.wfFrom, Bool.and_eq_true, decide_eq_true_eq] at hw
    simp only [SparseMap.set]
    split
    · rename_i hik
      split
      · rename_i hv
        rw [SparseMap.get_cons, if_neg (by omega), SparseMap.get_of_wfFrom hw.2 (by omega), hv]
      · simp [SparseMap.get]
    · split
      · rename_i hik
        split
        · rename_i hv
          rw [SparseMap.get_of_wfFrom hw.2 (by omega), hv]
        · simp [SparseMap.get]
      · rename_i h1 h2
        rw [SparseMap.get_cons, if_neg h2]
        exact ih hw.2

/-- Read after write. -/
theorem SparseMap.get_set_self (hw : SparseMap.wf d size m = true) :
    SparseMap.get d (SparseMap.set d m i v) i = v := SparseMap.get_set_self_from hw

theorem SparseMap.get_set (hw : SparseMap.wf d size m = true) :
    SparseMap.get d (SparseMap.set d m i v) j = if j = i then v else SparseMap.get d m j := by
  split
  · subst_vars; exact SparseMap.get_set_self hw
  · exact SparseMap.get_set_ne ‹_›

theorem SparseMap.wfFrom_mono (h : lo ≤ j) (hw : SparseMap.wfFrom d size j m = true) :
    SparseMap.wfFrom d size lo m = true := by
  cases m with
  | nil => rfl
  | cons e m =>
    obtain ⟨k, w⟩ := e
    simp only [SparseMap.wfFrom, Bool.and_eq_true, decide_eq_true_eq] at hw ⊢
    exact ⟨⟨⟨by omega, hw.1.1.2⟩, hw.1.2⟩, hw.2⟩

theorem SparseMap.wfFrom_set (hw : SparseMap.wfFrom d size lo m = true) (hi : i < size) (hl : lo ≤ i) :
    SparseMap.wfFrom d size lo (SparseMap.set d m i v) = true := by
  induction m generalizing lo with
  | nil => simp only [SparseMap.set]; split <;> simp [SparseMap.wfFrom, *]
  | cons e m ih =>
    obtain ⟨k, w⟩ := e
    have hm := hw
    simp only [SparseMap.wfFrom, Bool.and_eq_true, decide_eq_true_eq] at hw
    simp only [SparseMap.set]
    split
    · split
      · exact hm
      · simp only [SparseMap.wfFrom, Bool.and_eq_true, decide_eq_true_eq]
        exact ⟨⟨⟨hl, hi⟩, ‹_›⟩, ⟨⟨by omega, hw.1.1.2⟩, hw.1.2⟩, hw.2⟩
    · split
      · subst_vars
        split
        · exact SparseMap.wfFrom_mono (by omega) hw.2
        · simp only [SparseMap.wfFrom, Bool.and_eq_true, decide_eq_true_eq]
          exact ⟨⟨⟨hl, hi⟩, ‹_›⟩, hw.2⟩
      · simp only [SparseMap.wfFrom, Bool.and_eq_true, decide_eq_true_eq]
        exact ⟨hw.1, ih hw.2 (by omega)⟩

/-- A write keeps the canonical form. -/
theorem SparseMap.wf_set (hw : SparseMap.wf d size m = true) (hi : i < size) :
    SparseMap.wf d size (SparseMap.set d m i v) = true := SparseMap.wfFrom_set hw hi (Nat.zero_le i)

/-- The entries after a write are the old ones, or the one written. -/
theorem SparseMap.mem_set {e : Nat × α} (h : e ∈ SparseMap.set d m i v) : e ∈ m ∨ e = (i, v) := by
  induction m with
  | nil =>
    simp only [SparseMap.set] at h
    split at h
    · cases h
    · simp_all
  | cons x m ih =>
    obtain ⟨k, w⟩ := x
    simp only [SparseMap.set] at h
    split at h
    · split at h
      · exact .inl h
      · rcases List.mem_cons.mp h with h | h
        · exact .inr h
        · exact .inl h
    · split at h
      · split at h
        · exact .inl (List.mem_cons_of_mem _ h)
        · rcases List.mem_cons.mp h with h | h
          · exact .inr h
          · exact .inl (List.mem_cons_of_mem _ h)
      · rcases List.mem_cons.mp h with h | h
        · exact .inl (h ▸ List.mem_cons_self)
        · rcases ih h with h | h
          · exact .inl (List.mem_cons_of_mem _ h)
          · exact .inr h

end Sys2Proof.Machine
end

