-- ==== Sys2Proof/Laws/State.lean ====
section
/-! SUPPORT. One lemma per field per named update of the state and of the PPU, each true by rfl. -/

namespace Sys2Proof.Machine

/-! ## `charge` -/

@[simp] theorem charge_a (n : Nat) (s : State) : (charge n s).a = s.a := rfl
@[simp] theorem charge_x (n : Nat) (s : State) : (charge n s).x = s.x := rfl
@[simp] theorem charge_y (n : Nat) (s : State) : (charge n s).y = s.y := rfl
@[simp] theorem charge_sp (n : Nat) (s : State) : (charge n s).sp = s.sp := rfl
@[simp] theorem charge_pc (n : Nat) (s : State) : (charge n s).pc = s.pc := rfl
@[simp] theorem charge_p (n : Nat) (s : State) : (charge n s).p = s.p := rfl
@[simp] theorem charge_cycles (n : Nat) (s : State) : (charge n s).cycles = s.cycles + BitVec.ofNat 64 n := rfl
@[simp] theorem charge_ram (n : Nat) (s : State) : (charge n s).ram = s.ram := rfl
@[simp] theorem charge_ppu (n : Nat) (s : State) : (charge n s).ppu = s.ppu := rfl
@[simp] theorem charge_cart (n : Nat) (s : State) : (charge n s).cart = s.cart := rfl
@[simp] theorem charge_ext (n : Nat) (s : State) : (charge n s).ext = s.ext := rfl
@[simp] theorem charge_faulted (n : Nat) (s : State) : (charge n s).faulted = s.faulted := rfl
@[simp] theorem charge_phase (n : Nat) (s : State) : (charge n s).phase = s.phase := rfl
@[simp] theorem charge_inputs (n : Nat) (s : State) : (charge n s).inputs = s.inputs := rfl
@[simp] theorem charge_cfg (n : Nat) (s : State) : (charge n s).cfg = s.cfg := rfl

/-! ## `setFlagOf` -/

@[simp] theorem setFlagOf_a (f : Flag) (b : Bool) (s : State) : (setFlagOf f b s).a = s.a := rfl
@[simp] theorem setFlagOf_x (f : Flag) (b : Bool) (s : State) : (setFlagOf f b s).x = s.x := rfl
@[simp] theorem setFlagOf_y (f : Flag) (b : Bool) (s : State) : (setFlagOf f b s).y = s.y := rfl
@[simp] theorem setFlagOf_sp (f : Flag) (b : Bool) (s : State) : (setFlagOf f b s).sp = s.sp := rfl
@[simp] theorem setFlagOf_pc (f : Flag) (b : Bool) (s : State) : (setFlagOf f b s).pc = s.pc := rfl
@[simp] theorem setFlagOf_p (f : Flag) (b : Bool) (s : State) : (setFlagOf f b s).p = setFlag s.p f b := rfl
@[simp] theorem setFlagOf_cycles (f : Flag) (b : Bool) (s : State) : (setFlagOf f b s).cycles = s.cycles := rfl
@[simp] theorem setFlagOf_ram (f : Flag) (b : Bool) (s : State) : (setFlagOf f b s).ram = s.ram := rfl
@[simp] theorem setFlagOf_ppu (f : Flag) (b : Bool) (s : State) : (setFlagOf f b s).ppu = s.ppu := rfl
@[simp] theorem setFlagOf_cart (f : Flag) (b : Bool) (s : State) : (setFlagOf f b s).cart = s.cart := rfl
@[simp] theorem setFlagOf_ext (f : Flag) (b : Bool) (s : State) : (setFlagOf f b s).ext = s.ext := rfl
@[simp] theorem setFlagOf_faulted (f : Flag) (b : Bool) (s : State) : (setFlagOf f b s).faulted = s.faulted := rfl
@[simp] theorem setFlagOf_phase (f : Flag) (b : Bool) (s : State) : (setFlagOf f b s).phase = s.phase := rfl
@[simp] theorem setFlagOf_inputs (f : Flag) (b : Bool) (s : State) : (setFlagOf f b s).inputs = s.inputs := rfl
@[simp] theorem setFlagOf_cfg (f : Flag) (b : Bool) (s : State) : (setFlagOf f b s).cfg = s.cfg := rfl

/-! ## `updateP` -/

@[simp] theorem updateP_a (g : Byte → Byte) (s : State) : (updateP g s).a = s.a := rfl
@[simp] theorem updateP_x (g : Byte → Byte) (s : State) : (updateP g s).x = s.x := rfl
@[simp] theorem updateP_y (g : Byte → Byte) (s : State) : (updateP g s).y = s.y := rfl
@[simp] theorem updateP_sp (g : Byte → Byte) (s : State) : (updateP g s).sp = s.sp := rfl
@[simp] theorem updateP_pc (g : Byte → Byte) (s : State) : (updateP g s).pc = s.pc := rfl
@[simp] theorem updateP_p (g : Byte → Byte) (s : State) : (updateP g s).p = g s.p := rfl
@[simp] theorem updateP_cycles (g : Byte → Byte) (s : State) : (updateP g s).cycles = s.cycles := rfl
@[simp] theorem updateP_ram (g : Byte → Byte) (s : State) : (updateP g s).ram = s.ram := rfl
@[simp] theorem updateP_ppu (g : Byte → Byte) (s : State) : (updateP g s).ppu = s.ppu := rfl
@[simp] theorem updateP_cart (g : Byte → Byte) (s : State) : (updateP g s).cart = s.cart := rfl
@[simp] theorem updateP_ext (g : Byte → Byte) (s : State) : (updateP g s).ext = s.ext := rfl
@[simp] theorem updateP_faulted (g : Byte → Byte) (s : State) : (updateP g s).faulted = s.faulted := rfl
@[simp] theorem updateP_phase (g : Byte → Byte) (s : State) : (updateP g s).phase = s.phase := rfl
@[simp] theorem updateP_inputs (g : Byte → Byte) (s : State) : (updateP g s).inputs = s.inputs := rfl
@[simp] theorem updateP_cfg (g : Byte → Byte) (s : State) : (updateP g s).cfg = s.cfg := rfl

/-! ## `ramWrite` -/

@[simp] theorem ramWrite_a (k : Word) (b : Byte) (s : State) : (ramWrite k b s).a = s.a := rfl
@[simp] theorem ramWrite_x (k : Word) (b : Byte) (s : State) : (ramWrite k b s).x = s.x := rfl
@[simp] theorem ramWrite_y (k : Word) (b : Byte) (s : State) : (ramWrite k b s).y = s.y := rfl
@[simp] theorem ramWrite_sp (k : Word) (b : Byte) (s : State) : (ramWrite k b s).sp = s.sp := rfl
@[simp] theorem ramWrite_pc (k : Word) (b : Byte) (s : State) : (ramWrite k b s).pc = s.pc := rfl
@[simp] theorem ramWrite_p (k : Word) (b : Byte) (s : State) : (ramWrite k b s).p = s.p := rfl
@[simp] theorem ramWrite_cycles (k : Word) (b : Byte) (s : State) : (ramWrite k b s).cycles = s.cycles := rfl
@[simp] theorem ramWrite_ram (k : Word) (b : Byte) (s : State) : (ramWrite k b s).ram = s.ram.set (ramKey k) b := rfl
@[simp] theorem ramWrite_ppu (k : Word) (b : Byte) (s : State) : (ramWrite k b s).ppu = s.ppu := rfl
@[simp] theorem ramWrite_cart (k : Word) (b : Byte) (s : State) : (ramWrite k b s).cart = s.cart := rfl
@[simp] theorem ramWrite_ext (k : Word) (b : Byte) (s : State) : (ramWrite k b s).ext = s.ext := rfl
@[simp] theorem ramWrite_faulted (k : Word) (b : Byte) (s : State) : (ramWrite k b s).faulted = s.faulted := rfl
@[simp] theorem ramWrite_phase (k : Word) (b : Byte) (s : State) : (ramWrite k b s).phase = s.phase := rfl
@[simp] theorem ramWrite_inputs (k : Word) (b : Byte) (s : State) : (ramWrite k b s).inputs = s.inputs := rfl
@[simp] theorem ramWrite_cfg (k : Word) (b : Byte) (s : State) : (ramWrite k b s).cfg = s.cfg := rfl

/-! ## `oamWrite` -/

@[simp] theorem oamWrite_a (k : Nat) (b : Byte) (s : State) : (oamWrite k b s).a = s.a := rfl
@[simp] theorem oamWrite_x (k : Nat) (b : Byte) (s : State) : (oamWrite k b s).x = s.x := rfl
@[simp] theorem oamWrite_y (k : Nat) (b : Byte) (s : State) : (oamWrite k b s).y = s.y := rfl
@[simp] theorem oamWrite_sp (k : Nat) (b : Byte) (s : State) : (oamWrite k b s).sp = s.sp := rfl
@[simp] theorem oamWrite_pc (k : Nat) (b : Byte) (s : State) : (oamWrite k b s).pc = s.pc := rfl
@[simp] theorem oamWrite_p (k : Nat) (b : Byte) (s : State) : (oamWrite k b s).p = s.p := rfl
@[simp] theorem oamWrite_cycles (k : Nat) (b : Byte) (s : State) : (oamWrite k b s).cycles = s.cycles := rfl
@[simp] theorem oamWrite_ram (k : Nat) (b : Byte) (s : State) : (oamWrite k b s).ram = s.ram := rfl
@[simp] theorem oamWrite_ppu (k : Nat) (b : Byte) (s : State) : (oamWrite k b s).ppu = { s.ppu with oam := s.ppu.oam.set k b } := rfl
@[simp] theorem oamWrite_cart (k : Nat) (b : Byte) (s : State) : (oamWrite k b s).cart = s.cart := rfl
@[simp] theorem oamWrite_ext (k : Nat) (b : Byte) (s : State) : (oamWrite k b s).ext = s.ext := rfl
@[simp] theorem oamWrite_faulted (k : Nat) (b : Byte) (s : State) : (oamWrite k b s).faulted = s.faulted := rfl
@[simp] theorem oamWrite_phase (k : Nat) (b : Byte) (s : State) : (oamWrite k b s).phase = s.phase := rfl
@[simp] theorem oamWrite_inputs (k : Nat) (b : Byte) (s : State) : (oamWrite k b s).inputs = s.inputs := rfl
@[simp] theorem oamWrite_cfg (k : Nat) (b : Byte) (s : State) : (oamWrite k b s).cfg = s.cfg := rfl

/-! ## `programmerError` -/

@[simp] theorem programmerError_a (s : State) : (programmerError s).a = s.a := rfl
@[simp] theorem programmerError_x (s : State) : (programmerError s).x = s.x := rfl
@[simp] theorem programmerError_y (s : State) : (programmerError s).y = s.y := rfl
@[simp] theorem programmerError_sp (s : State) : (programmerError s).sp = s.sp := rfl
@[simp] theorem programmerError_pc (s : State) : (programmerError s).pc = s.pc := rfl
@[simp] theorem programmerError_p (s : State) : (programmerError s).p = s.p := rfl
@[simp] theorem programmerError_cycles (s : State) : (programmerError s).cycles = s.cycles := rfl
@[simp] theorem programmerError_ram (s : State) : (programmerError s).ram = s.ram := rfl
@[simp] theorem programmerError_ppu (s : State) : (programmerError s).ppu = s.ppu := rfl
@[simp] theorem programmerError_cart (s : State) : (programmerError s).cart = s.cart := rfl
@[simp] theorem programmerError_ext (s : State) : (programmerError s).ext = s.ext := rfl
@[simp] theorem programmerError_faulted (s : State) : (programmerError s).faulted = true := rfl
@[simp] theorem programmerError_phase (s : State) : (programmerError s).phase = s.phase := rfl
@[simp] theorem programmerError_inputs (s : State) : (programmerError s).inputs = s.inputs := rfl
@[simp] theorem programmerError_cfg (s : State) : (programmerError s).cfg = s.cfg := rfl

/-! ## `setA` -/

@[simp] theorem setA_a (r : Byte) (s : State) : (setA r s).a = r := rfl
@[simp] theorem setA_x (r : Byte) (s : State) : (setA r s).x = s.x := rfl
@[simp] theorem setA_y (r : Byte) (s : State) : (setA r s).y = s.y := rfl
@[simp] theorem setA_sp (r : Byte) (s : State) : (setA r s).sp = s.sp := rfl
@[simp] theorem setA_pc (r : Byte) (s : State) : (setA r s).pc = s.pc := rfl
@[simp] theorem setA_p (r : Byte) (s : State) : (setA r s).p = setNZ r s.p := rfl
@[simp] theorem setA_cycles (r : Byte) (s : State) : (setA r s).cycles = s.cycles := rfl
@[simp] theorem setA_ram (r : Byte) (s : State) : (setA r s).ram = s.ram := rfl
@[simp] theorem setA_ppu (r : Byte) (s : State) : (setA r s).ppu = s.ppu := rfl
@[simp] theorem setA_cart (r : Byte) (s : State) : (setA r s).cart = s.cart := rfl
@[simp] theorem setA_ext (r : Byte) (s : State) : (setA r s).ext = s.ext := rfl
@[simp] theorem setA_faulted (r : Byte) (s : State) : (setA r s).faulted = s.faulted := rfl
@[simp] theorem setA_phase (r : Byte) (s : State) : (setA r s).phase = s.phase := rfl
@[simp] theorem setA_inputs (r : Byte) (s : State) : (setA r s).inputs = s.inputs := rfl
@[simp] theorem setA_cfg (r : Byte) (s : State) : (setA r s).cfg = s.cfg := rfl

/-! ## `setX` -/

@[simp] theorem setX_a (r : Byte) (s : State) : (setX r s).a = s.a := rfl
@[simp] theorem setX_x (r : Byte) (s : State) : (setX r s).x = r := rfl
@[simp] theorem setX_y (r : Byte) (s : State) : (setX r s).y = s.y := rfl
@[simp] theorem setX_sp (r : Byte) (s : State) : (setX r s).sp = s.sp := rfl
@[simp] theorem setX_pc (r : Byte) (s : State) : (setX r s).pc = s.pc := rfl
@[simp] theorem setX_p (r : Byte) (s : State) : (setX r s).p = setNZ r s.p := rfl
@[simp] theorem setX_cycles (r : Byte) (s : State) : (setX r s).cycles = s.cycles := rfl
@[simp] theorem setX_ram (r : Byte) (s : State) : (setX r s).ram = s.ram := rfl
@[simp] theorem setX_ppu (r : Byte) (s : State) : (setX r s).ppu = s.ppu := rfl
@[simp] theorem setX_cart (r : Byte) (s : State) : (setX r s).cart = s.cart := rfl
@[simp] theorem setX_ext (r : Byte) (s : State) : (setX r s).ext = s.ext := rfl
@[simp] theorem setX_faulted (r : Byte) (s : State) : (setX r s).faulted = s.faulted := rfl
@[simp] theorem setX_phase (r : Byte) (s : State) : (setX r s).phase = s.phase := rfl
@[simp] theorem setX_inputs (r : Byte) (s : State) : (setX r s).inputs = s.inputs := rfl
@[simp] theorem setX_cfg (r : Byte) (s : State) : (setX r s).cfg = s.cfg := rfl

/-! ## `setY` -/

@[simp] theorem setY_a (r : Byte) (s : State) : (setY r s).a = s.a := rfl
@[simp] theorem setY_x (r : Byte) (s : State) : (setY r s).x = s.x := rfl
@[simp] theorem setY_y (r : Byte) (s : State) : (setY r s).y = r := rfl
@[simp] theorem setY_sp (r : Byte) (s : State) : (setY r s).sp = s.sp := rfl
@[simp] theorem setY_pc (r : Byte) (s : State) : (setY r s).pc = s.pc := rfl
@[simp] theorem setY_p (r : Byte) (s : State) : (setY r s).p = setNZ r s.p := rfl
@[simp] theorem setY_cycles (r : Byte) (s : State) : (setY r s).cycles = s.cycles := rfl
@[simp] theorem setY_ram (r : Byte) (s : State) : (setY r s).ram = s.ram := rfl
@[simp] theorem setY_ppu (r : Byte) (s : State) : (setY r s).ppu = s.ppu := rfl
@[simp] theorem setY_cart (r : Byte) (s : State) : (setY r s).cart = s.cart := rfl
@[simp] theorem setY_ext (r : Byte) (s : State) : (setY r s).ext = s.ext := rfl
@[simp] theorem setY_faulted (r : Byte) (s : State) : (setY r s).faulted = s.faulted := rfl
@[simp] theorem setY_phase (r : Byte) (s : State) : (setY r s).phase = s.phase := rfl
@[simp] theorem setY_inputs (r : Byte) (s : State) : (setY r s).inputs = s.inputs := rfl
@[simp] theorem setY_cfg (r : Byte) (s : State) : (setY r s).cfg = s.cfg := rfl

/-! ## `setArith` -/

@[simp] theorem setArith_a (q : ArithResult) (s : State) : (setArith q s).a = q.r := rfl
@[simp] theorem setArith_x (q : ArithResult) (s : State) : (setArith q s).x = s.x := rfl
@[simp] theorem setArith_y (q : ArithResult) (s : State) : (setArith q s).y = s.y := rfl
@[simp] theorem setArith_sp (q : ArithResult) (s : State) : (setArith q s).sp = s.sp := rfl
@[simp] theorem setArith_pc (q : ArithResult) (s : State) : (setArith q s).pc = s.pc := rfl
@[simp] theorem setArith_p (q : ArithResult) (s : State) : (setArith q s).p = arithFlags q s.p := rfl
@[simp] theorem setArith_cycles (q : ArithResult) (s : State) : (setArith q s).cycles = s.cycles := rfl
@[simp] theorem setArith_ram (q : ArithResult) (s : State) : (setArith q s).ram = s.ram := rfl
@[simp] theorem setArith_ppu (q : ArithResult) (s : State) : (setArith q s).ppu = s.ppu := rfl
@[simp] theorem setArith_cart (q : ArithResult) (s : State) : (setArith q s).cart = s.cart := rfl
@[simp] theorem setArith_ext (q : ArithResult) (s : State) : (setArith q s).ext = s.ext := rfl
@[simp] theorem setArith_faulted (q : ArithResult) (s : State) : (setArith q s).faulted = s.faulted := rfl
@[simp] theorem setArith_phase (q : ArithResult) (s : State) : (setArith q s).phase = s.phase := rfl
@[simp] theorem setArith_inputs (q : ArithResult) (s : State) : (setArith q s).inputs = s.inputs := rfl
@[simp] theorem setArith_cfg (q : ArithResult) (s : State) : (setArith q s).cfg = s.cfg := rfl

/-! ## `bumpV` -/

@[simp] theorem bumpV_ctrl0 (p : Ppu) : (p.bumpV).ctrl0 = p.ctrl0 := rfl
@[simp] theorem bumpV_ctrl1 (p : Ppu) : (p.bumpV).ctrl1 = p.ctrl1 := rfl
@[simp] theorem bumpV_status (p : Ppu) : (p.bumpV).status = p.status := rfl
@[simp] theorem bumpV_v (p : Ppu) : (p.bumpV).v = p.v + p.inc := rfl
@[simp] theorem bumpV_t (p : Ppu) : (p.bumpV).t = p.t := rfl
@[simp] theorem bumpV_x (p : Ppu) : (p.bumpV).x = p.x := rfl
@[simp] theorem bumpV_w (p : Ppu) : (p.bumpV).w = p.w := rfl
@[simp] theorem bumpV_latch (p : Ppu) : (p.bumpV).latch = p.latch := rfl
@[simp] theorem bumpV_scanline (p : Ppu) : (p.bumpV).scanline = p.scanline := rfl
@[simp] theorem bumpV_oamaddr (p : Ppu) : (p.bumpV).oamaddr = p.oamaddr := rfl
@[simp] theorem bumpV_oam (p : Ppu) : (p.bumpV).oam = p.oam := rfl
@[simp] theorem bumpV_palette (p : Ppu) : (p.bumpV).palette = p.palette := rfl
@[simp] theorem bumpV_paletteCache (p : Ppu) : (p.bumpV).paletteCache = p.paletteCache := rfl
@[simp] theorem bumpV_nt (p : Ppu) : (p.bumpV).nt = p.nt := rfl
@[simp] theorem bumpV_fb (p : Ppu) : (p.bumpV).fb = p.fb := rfl
@[simp] theorem bumpV_info (p : Ppu) : (p.bumpV).info = p.info := rfl

/-! ## `setVbl` -/

@[simp] theorem setVbl_ctrl0 (b : Bool) (p : Ppu) : (p.setVbl b).ctrl0 = p.ctrl0 := rfl
@[simp] theorem setVbl_ctrl1 (b : Bool) (p : Ppu) : (p.setVbl b).ctrl1 = p.ctrl1 := rfl
@[simp] theorem setVbl_status (b : Bool) (p : Ppu) : (p.setVbl b).status = if b then p.status ||| 0x80 else p.status &&& 0x7F := rfl
@[simp] theorem setVbl_v (b : Bool) (p : Ppu) : (p.setVbl b).v = p.v := rfl
@[simp] theorem setVbl_t (b : Bool) (p : Ppu) : (p.setVbl b).t = p.t := rfl
@[simp] theorem setVbl_x (b : Bool) (p : Ppu) : (p.setVbl b).x = p.x := rfl
@[simp] theorem setVbl_w (b : Bool) (p : Ppu) : (p.setVbl b).w = p.w := rfl
@[simp] theorem setVbl_latch (b : Bool) (p : Ppu) : (p.setVbl b).latch = p.latch := rfl
@[simp] theorem setVbl_scanline (b : Bool) (p : Ppu) : (p.setVbl b).scanline = p.scanline := rfl
@[simp] theorem setVbl_oamaddr (b : Bool) (p : Ppu) : (p.setVbl b).oamaddr = p.oamaddr := rfl
@[simp] theorem setVbl_oam (b : Bool) (p : Ppu) : (p.setVbl b).oam = p.oam := rfl
@[simp] theorem setVbl_palette (b : Bool) (p : Ppu) : (p.setVbl b).palette = p.palette := rfl
@[simp] theorem setVbl_paletteCache (b : Bool) (p : Ppu) : (p.setVbl b).paletteCache = p.paletteCache := rfl
@[simp] theorem setVbl_nt (b : Bool) (p : Ppu) : (p.setVbl b).nt = p.nt := rfl
@[simp] theorem setVbl_fb (b : Bool) (p : Ppu) : (p.setVbl b).fb = p.fb := rfl
@[simp] theorem setVbl_info (b : Bool) (p : Ppu) : (p.setVbl b).info = p.info := rfl

/-! ## `ctrl0Write` -/

@[simp] theorem ctrl0Write_ctrl0 (d : Byte) (p : Ppu) : (ctrl0Write d p).ctrl0 = d := rfl
@[simp] theorem ctrl0Write_ctrl1 (d : Byte) (p : Ppu) : (ctrl0Write d p).ctrl1 = p.ctrl1 := rfl
@[simp] theorem ctrl0Write_status (d : Byte) (p : Ppu) : (ctrl0Write d p).status = p.status := rfl
@[simp] theorem ctrl0Write_v (d : Byte) (p : Ppu) : (ctrl0Write d p).v = p.v := rfl
@[simp] theorem ctrl0Write_t (d : Byte) (p : Ppu) : (ctrl0Write d p).t = (p.t &&& 0x73FF) ||| ((d &&& 0x03).setWidth 15 <<< 10) := rfl
@[simp] theorem ctrl0Write_x (d : Byte) (p : Ppu) : (ctrl0Write d p).x = p.x := rfl
@[simp] theorem ctrl0Write_w (d : Byte) (p : Ppu) : (ctrl0Write d p).w = p.w := rfl
@[simp] theorem ctrl0Write_latch (d : Byte) (p : Ppu) : (ctrl0Write d p).latch = p.latch := rfl
@[simp] theorem ctrl0Write_scanline (d : Byte) (p : Ppu) : (ctrl0Write d p).scanline = p.scanline := rfl
@[simp] theorem ctrl0Write_oamaddr (d : Byte) (p : Ppu) : (ctrl0Write d p).oamaddr = p.oamaddr := rfl
@[simp] theorem ctrl0Write_oam (d : Byte) (p : Ppu) : (ctrl0Write d p).oam = p.oam := rfl
@[simp] theorem ctrl0Write_palette (d : Byte) (p : Ppu) : (ctrl0Write d p).palette = p.palette := rfl
@[simp] theorem ctrl0Write_paletteCache (d : Byte) (p : Ppu) : (ctrl0Write d p).paletteCache = p.paletteCache := rfl
@[simp] theorem ctrl0Write_nt (d : Byte) (p : Ppu) : (ctrl0Write d p).nt = p.nt := rfl
@[simp] theorem ctrl0Write_fb (d : Byte) (p : Ppu) : (ctrl0Write d p).fb = p.fb := rfl
@[simp] theorem ctrl0Write_info (d : Byte) (p : Ppu) : (ctrl0Write d p).info = p.info := rfl

/-! ## `ctrl1Write` -/

@[simp] theorem ctrl1Write_ctrl0 (d : Byte) (p : Ppu) : (ctrl1Write d p).ctrl0 = p.ctrl0 := rfl
@[simp] theorem ctrl1Write_ctrl1 (d : Byte) (p : Ppu) : (ctrl1Write d p).ctrl1 = d := rfl
@[simp] theorem ctrl1Write_status (d : Byte) (p : Ppu) : (ctrl1Write d p).status = p.status := rfl
@[simp] theorem ctrl1Write_v (d : Byte) (p : Ppu) : (ctrl1Write d p).v = p.v := rfl
@[simp] theorem ctrl1Write_t (d : Byte) (p : Ppu) : (ctrl1Write d p).t = p.t := rfl
@[simp] theorem ctrl1Write_x (d : Byte) (p : Ppu) : (ctrl1Write d p).x = p.x := rfl
@[simp] theorem ctrl1Write_w (d : Byte) (p : Ppu) : (ctrl1Write d p).w = p.w := rfl
@[simp] theorem ctrl1Write_latch (d : Byte) (p : Ppu) : (ctrl1Write d p).latch = p.latch := rfl
@[simp] theorem ctrl1Write_scanline (d : Byte) (p : Ppu) : (ctrl1Write d p).scanline = p.scanline := rfl
@[simp] theorem ctrl1Write_oamaddr (d : Byte) (p : Ppu) : (ctrl1Write d p).oamaddr = p.oamaddr := rfl
@[simp] theorem ctrl1Write_oam (d : Byte) (p : Ppu) : (ctrl1Write d p).oam = p.oam := rfl
@[simp] theorem ctrl1Write_palette (d : Byte) (p : Ppu) : (ctrl1Write d p).palette = p.palette := rfl
@[simp] theorem ctrl1Write_paletteCache (d : Byte) (p : Ppu) : (ctrl1Write d p).paletteCache = p.paletteCache := rfl
@[simp] theorem ctrl1Write_nt (d : Byte) (p : Ppu) : (ctrl1Write d p).nt = p.nt := rfl
@[simp] theorem ctrl1Write_fb (d : Byte) (p : Ppu) : (ctrl1Write d p).fb = p.fb := rfl
@[simp] theorem ctrl1Write_info (d : Byte) (p : Ppu) : (ctrl1Write d p).info = p.info := rfl

/-! ## `oamAddrWrite` -/

@[simp] theorem oamAddrWrite_ctrl0 (d : Byte) (p : Ppu) : (oamAddrWrite d p).ctrl0 = p.ctrl0 := rfl
@[simp] theorem oamAddrWrite_ctrl1 (d : Byte) (p : Ppu) : (oamAddrWrite d p).ctrl1 = p.ctrl1 := rfl
@[simp] theorem oamAddrWrite_status (d : Byte) (p : Ppu) : (oamAddrWrite d p).status = p.status := rfl
@[simp] theorem oamAddrWrite_v (d : Byte) (p : Ppu) : (oamAddrWrite d p).v = p.v := rfl
@[simp] theorem oamAddrWrite_t (d : Byte) (p : Ppu) : (oamAddrWrite d p).t = p.t := rfl
@[simp] theorem oamAddrWrite_x (d : Byte) (p : Ppu) : (oamAddrWrite d p).x = p.x := rfl
@[simp] theorem oamAddrWrite_w (d : Byte) (p : Ppu) : (oamAddrWrite d p).w = p.w := rfl
@[simp] theorem oamAddrWrite_latch (d : Byte) (p : Ppu) : (oamAddrWrite d p).latch = p.latch := rfl
@[simp] theorem oamAddrWrite_scanline (d : Byte) (p : Ppu) : (oamAddrWrite d p).scanline = p.scanline := rfl
@[simp] theorem oamAddrWrite_oamaddr (d : Byte) (p : Ppu) : (oamAddrWrite d p).oamaddr = d := rfl
@[simp] theorem oamAddrWrite_oam (d : Byte) (p : Ppu) : (oamAddrWrite d p).oam = p.oam := rfl
@[simp] theorem oamAddrWrite_palette (d : Byte) (p : Ppu) : (oamAddrWrite d p).palette = p.palette := rfl
@[simp] theorem oamAddrWrite_paletteCache (d : Byte) (p : Ppu) : (oamAddrWrite d p).paletteCache = p.paletteCache := rfl
@[simp] theorem oamAddrWrite_nt (d : Byte) (p : Ppu) : (oamAddrWrite d p).nt = p.nt := rfl
@[simp] theorem oamAddrWrite_fb (d : Byte) (p : Ppu) : (oamAddrWrite d p).fb = p.fb := rfl
@[simp] theorem oamAddrWrite_info (d : Byte) (p : Ppu) : (oamAddrWrite d p).info = p.info := rfl

/-! ## `oamDataWrite` -/

@[simp] theorem oamDataWrite_ctrl0 (d : Byte) (p : Ppu) : (oamDataWrite d p).ctrl0 = p.ctrl0 := rfl
@[simp] theorem oamDataWrite_ctrl1 (d : Byte) (p : Ppu) : (oamDataWrite d p).ctrl1 = p.ctrl1 := rfl
@[simp] theorem oamDataWrite_status (d : Byte) (p : Ppu) : (oamDataWrite d p).status = p.status := rfl
@[simp] theorem oamDataWrite_v (d : Byte) (p : Ppu) : (oamDataWrite d p).v = p.v := rfl
@[simp] theorem oamDataWrite_t (d : Byte) (p : Ppu) : (oamDataWrite d p).t = p.t := rfl
@[simp] theorem oamDataWrite_x (d : Byte) (p : Ppu) : (oamDataWrite d p).x = p.x := rfl
@[simp] theorem oamDataWrite_w (d : Byte) (p : Ppu) : (oamDataWrite d p).w = p.w := rfl
@[simp] theorem oamDataWrite_latch (d : Byte) (p : Ppu) : (oamDataWrite d p).latch = p.latch := rfl
@[simp] theorem oamDataWrite_scanline (d : Byte) (p : Ppu) : (oamDataWrite d p).scanline = p.scanline := rfl
@[simp] theorem oamDataWrite_oamaddr (d : Byte) (p : Ppu) : (oamDataWrite d p).oamaddr = p.oamaddr + 1 := rfl
@[simp] theorem oamDataWrite_oam (d : Byte) (p : Ppu) : (oamDataWrite d p).oam = p.oam.set p.oamaddr.toNat d := rfl
@[simp] theorem oamDataWrite_palette (d : Byte) (p : Ppu) : (oamDataWrite d p).palette = p.palette := rfl
@[simp] theorem oamDataWrite_paletteCache (d : Byte) (p : Ppu) : (oamDataWrite d p).paletteCache = p.paletteCache := rfl
@[simp] theorem oamDataWrite_nt (d : Byte) (p : Ppu) : (oamDataWrite d p).nt = p.nt := rfl
@[simp] theorem oamDataWrite_fb (d : Byte) (p : Ppu) : (oamDataWrite d p).fb = p.fb := rfl
@[simp] theorem oamDataWrite_info (d : Byte) (p : Ppu) : (oamDataWrite d p).info = p.info := rfl

/-! ## `scrollWrite`: the fields it leaves, in either position of the toggle -/

@[simp] theorem scrollWrite_ctrl0 (d : Byte) (p : Ppu) : (scrollWrite d p).ctrl0 = p.ctrl0 := by unfold scrollWrite; split <;> rfl
@[simp] theorem scrollWrite_ctrl1 (d : Byte) (p : Ppu) : (scrollWrite d p).ctrl1 = p.ctrl1 := by unfold scrollWrite; split <;> rfl
@[simp] theorem scrollWrite_status (d : Byte) (p : Ppu) : (scrollWrite d p).status = p.status := by unfold scrollWrite; split <;> rfl
@[simp] theorem scrollWrite_v (d : Byte) (p : Ppu) : (scrollWrite d p).v = p.v := by unfold scrollWrite; split <;> rfl
@[simp] theorem scrollWrite_latch (d : Byte) (p : Ppu) : (scrollWrite d p).latch = p.latch := by unfold scrollWrite; split <;> rfl
@[simp] theorem scrollWrite_scanline (d : Byte) (p : Ppu) : (scrollWrite d p).scanline = p.scanline := by unfold scrollWrite; split <;> rfl
@[simp] theorem scrollWrite_oamaddr (d : Byte) (p : Ppu) : (scrollWrite d p).oamaddr = p.oamaddr := by unfold scrollWrite; split <;> rfl
@[simp] theorem scrollWrite_oam (d : Byte) (p : Ppu) : (scrollWrite d p).oam = p.oam := by unfold scrollWrite; split <;> rfl
@[simp] theorem scrollWrite_palette (d : Byte) (p : Ppu) : (scrollWrite d p).palette = p.palette := by unfold scrollWrite; split <;> rfl
@[simp] theorem scrollWrite_paletteCache (d : Byte) (p : Ppu) : (scrollWrite d p).paletteCache = p.paletteCache := by unfold scrollWrite; split <;> rfl
@[simp] theorem scrollWrite_nt (d : Byte) (p : Ppu) : (scrollWrite d p).nt = p.nt := by unfold scrollWrite; split <;> rfl
@[simp] theorem scrollWrite_fb (d : Byte) (p : Ppu) : (scrollWrite d p).fb = p.fb := by unfold scrollWrite; split <;> rfl
@[simp] theorem scrollWrite_info (d : Byte) (p : Ppu) : (scrollWrite d p).info = p.info := by unfold scrollWrite; split <;> rfl

/-! ## `addrWrite`: the fields it leaves, in either position of the toggle -/

@[simp] theorem addrWrite_ctrl0 (d : Byte) (p : Ppu) : (addrWrite d p).ctrl0 = p.ctrl0 := by unfold addrWrite; split <;> rfl
@[simp] theorem addrWrite_ctrl1 (d : Byte) (p : Ppu) : (addrWrite d p).ctrl1 = p.ctrl1 := by unfold addrWrite; split <;> rfl
@[simp] theorem addrWrite_status (d : Byte) (p : Ppu) : (addrWrite d p).status = p.status := by unfold addrWrite; split <;> rfl
@[simp] theorem addrWrite_x (d : Byte) (p : Ppu) : (addrWrite d p).x = p.x := by unfold addrWrite; split <;> rfl
@[simp] theorem addrWrite_latch (d : Byte) (p : Ppu) : (addrWrite d p).latch = p.latch := by unfold addrWrite; split <;> rfl
@[simp] theorem addrWrite_scanline (d : Byte) (p : Ppu) : (addrWrite d p).scanline = p.scanline := by unfold addrWrite; split <;> rfl
@[simp] theorem addrWrite_oamaddr (d : Byte) (p : Ppu) : (addrWrite d p).oamaddr = p.oamaddr := by unfold addrWrite; split <;> rfl
@[simp] theorem addrWrite_oam (d : Byte) (p : Ppu) : (addrWrite d p).oam = p.oam := by unfold addrWrite; split <;> rfl
@[simp] theorem addrWrite_palette (d : Byte) (p : Ppu) : (addrWrite d p).palette = p.palette := by unfold addrWrite; split <;> rfl
@[simp] theorem addrWrite_paletteCache (d : Byte) (p : Ppu) : (addrWrite d p).paletteCache = p.paletteCache := by unfold addrWrite; split <;> rfl
@[simp] theorem addrWrite_nt (d : Byte) (p : Ppu) : (addrWrite d p).nt = p.nt := by unfold addrWrite; split <;> rfl
@[simp] theorem addrWrite_fb (d : Byte) (p : Ppu) : (addrWrite d p).fb = p.fb := by unfold addrWrite; split <;> rfl
@[simp] theorem addrWrite_info (d : Byte) (p : Ppu) : (addrWrite d p).info = p.info := by unfold addrWrite; split <;> rfl

end Sys2Proof.Machine
end

