-- ==== Sys2Proof/Laws/Bus.lean ====
section
/-! SUPPORT. The CPU bus: which region an address reaches, all that a read or a write can change, and RAM as memory
proper (20_memory R43 to R46, 61_ppu_oam R166 to R175, R197). -/

namespace Sys2Proof.Machine

/-! ## Addresses -/

theorem zext16_toNat (b : Byte) : (zext16 b).toNat = b.toNat := by
  have := b.isLt
  simp only [zext16, BitVec.toNat_setWidth]
  omega

theorem ppuRegAddr_toNat (a : Word) : (ppuRegAddr a).toNat = 0x2000 + a.toNat % 8 := by
  have h : (a &&& 0x0007#16).toNat = a.toNat % 8 := by
    rw [BitVec.toNat_and]; exact Nat.and_two_pow_sub_one_eq_mod a.toNat 3
  simp only [ppuRegAddr, BitVec.toNat_add, h, BitVec.ofNat_eq_ofNat, BitVec.toNat_ofNat]
  omega

/-- The bus gives the PPU only the eight addresses it has (60_exceptions R150). -/
theorem ppuRegAddr_cases (a : Word) :
    ppuRegAddr a = 0x2000 ∨ ppuRegAddr a = 0x2001 ∨ ppuRegAddr a = 0x2002 ∨ ppuRegAddr a = 0x2003 ∨
      ppuRegAddr a = 0x2004 ∨ ppuRegAddr a = 0x2005 ∨ ppuRegAddr a = 0x2006 ∨ ppuRegAddr a = 0x2007 := by
  have h := ppuRegAddr_toNat a
  have h8 : a.toNat % 8 < 8 := Nat.mod_lt _ (by decide)
  simp only [← BitVec.toNat_inj, h, BitVec.ofNat_eq_ofNat, BitVec.toNat_ofNat]
  omega

theorem stackAddr_toNat (sp : Byte) : (stackAddr sp).toNat = 256 + sp.toNat := by
  revert sp; decide

theorem stackAddr_le (sp : Byte) : (stackAddr sp).toNat ≤ 0x1FFF := by
  have := sp.isLt
  rw [stackAddr_toNat]; omega

theorem ramKey_lt (a : Word) : ramKey a < 2048 := Nat.mod_lt _ (by decide)

theorem ramKey_stackAddr (sp : Byte) : ramKey (stackAddr sp) = 256 + sp.toNat := by
  have := sp.isLt
  rw [ramKey, stackAddr_toNat]; omega

/-! ## Reads -/

theorem ReadFrame.refl (s : State) : ReadFrame s s := ⟨rfl, .inl rfl, fun _ => rfl, id⟩

theorem ReadFrame.trans {s t u : State} (h : ReadFrame s t) (k : ReadFrame t u) : ReadFrame s u := by
  refine ⟨?_, ?_, fun hf => ?_, fun ha => k.absent (h.absent ha)⟩
  · have e := k.eq
    rw [h.eq] at e
    exact e
  · rcases k.status with e | e <;> rcases h.status with e' | e' <;> rw [e, e']
    · exact .inl rfl
    · exact .inr rfl
    · exact .inr rfl
    · right; rw [BitVec.and_assoc]; rfl
  · have hc := h.fixture hf
    have := k.fixture (by rw [hc]; exact hf)
    rw [this, hc]

theorem cartCpuRead_frame (a : Word) (s : State) : ReadFrame s (cartCpuRead a s).2 := by
  unfold cartCpuRead
  split
  · exact .refl s
  · exact ⟨rfl, .inl rfl, by simp_all [Cart.isFixture], id⟩

theorem extRead_frame (a : Word) (s : State) : ReadFrame s (extRead a s).2 := by
  unfold extRead
  split
  · exact .refl s
  · exact ⟨rfl, .inl rfl, fun _ => rfl, by simp_all⟩

theorem cartAfterChrRead_fixture {c : Cart} (h : c.isFixture = true) (a : PpuAddr) : cartAfterChrRead c a = c := by
  cases c <;> simp_all [cartAfterChrRead, Cart.isFixture]

theorem ppuDataRead_frame (s : State) : ReadFrame s (ppuDataRead s).2 := by
  unfold ppuDataRead
  split
  · exact ⟨rfl, .inl rfl, fun _ => rfl, id⟩
  · simp only [vramRead]
    split
    · exact ⟨rfl, .inl rfl, fun h => cartAfterChrRead_fixture h _, id⟩
    · exact ⟨rfl, .inl rfl, fun _ => rfl, id⟩

theorem ppuStatusRead_frame (s : State) : ReadFrame s (ppuStatusRead s).2 :=
  ⟨rfl, .inr rfl, fun _ => rfl, id⟩

theorem ppuRegRead_frame (a : Word) (s : State) : ReadFrame s (ppuRegRead (ppuRegAddr a) s).2 := by
  rcases ppuRegAddr_cases a with h | h | h | h | h | h | h | h <;> rw [h]
  · exact .refl s
  · exact .refl s
  · exact ppuStatusRead_frame s
  · exact .refl s
  · exact .refl s
  · exact .refl s
  · exact .refl s
  · exact ppuDataRead_frame s

/-- All that a bus read can change. -/
theorem read8_frame (a : Word) (s : State) : ReadFrame s (read8 a s).2 := by
  unfold read8
  split
  · exact .refl s
  · split
    · exact ppuRegRead_frame a s
    · split
      · exact .refl s
      · split
        · exact extRead_frame a s
        · split
          · exact .refl s
          · exact cartCpuRead_frame a s

/-- A read of internal RAM: the byte, and nothing changes. -/
theorem read8_ram {a : Word} (h : a.toNat ≤ 0x1FFF) (s : State) : read8 a s = (s.ram.get (ramKey a), s) := by
  simp only [read8, if_pos h]

/-- A read at any mirror of a PPU register. -/
theorem read8_ppu {a : Word} (h : 0x2000 ≤ a.toNat) (h' : a.toNat ≤ 0x3FFF) (s : State) :
    read8 a s = ppuRegRead (ppuRegAddr a) s := by
  simp only [read8]; rw [if_neg (by omega), if_pos h']

/-- A read of a fixture cartridge: the byte, and nothing changes. -/
theorem read8_fixture {a : Word} {s : State} {prg chr : Memory} {mir : Mirroring} (h : 0x4020 ≤ a.toNat)
    (hc : s.cart = .fixture prg chr mir) : read8 a s = (prg.get a.toNat, s) := by
  have h4 : a ≠ 0x4014 := fun e => by rw [e] at h; revert h; decide
  simp only [read8, cartCpuRead, hc]
  rw [if_neg (by omega), if_neg (by omega), if_neg h4, if_neg (by omega), if_neg (by omega)]

section
variable {s t : State}

theorem ReadFrame.a (h : ReadFrame s t) : t.a = s.a := by rw [h.eq]
theorem ReadFrame.x (h : ReadFrame s t) : t.x = s.x := by rw [h.eq]
theorem ReadFrame.y (h : ReadFrame s t) : t.y = s.y := by rw [h.eq]
theorem ReadFrame.sp (h : ReadFrame s t) : t.sp = s.sp := by rw [h.eq]
theorem ReadFrame.pc (h : ReadFrame s t) : t.pc = s.pc := by rw [h.eq]
theorem ReadFrame.p (h : ReadFrame s t) : t.p = s.p := by rw [h.eq]
theorem ReadFrame.cycles (h : ReadFrame s t) : t.cycles = s.cycles := by rw [h.eq]
theorem ReadFrame.ram (h : ReadFrame s t) : t.ram = s.ram := by rw [h.eq]
theorem ReadFrame.faulted (h : ReadFrame s t) : t.faulted = s.faulted := by rw [h.eq]
theorem ReadFrame.phase (h : ReadFrame s t) : t.phase = s.phase := by rw [h.eq]
theorem ReadFrame.inputs (h : ReadFrame s t) : t.inputs = s.inputs := by rw [h.eq]
theorem ReadFrame.cfg (h : ReadFrame s t) : t.cfg = s.cfg := by rw [h.eq]
theorem ReadFrame.ppu (h : ReadFrame s t) :
    t.ppu = { s.ppu with status := t.ppu.status, w := t.ppu.w, latch := t.ppu.latch, v := t.ppu.v } :=
  congrArg State.ppu h.eq
theorem ReadFrame.oam (h : ReadFrame s t) : t.ppu.oam = s.ppu.oam := by rw [h.ppu]
theorem ReadFrame.palette (h : ReadFrame s t) : t.ppu.palette = s.ppu.palette := by rw [h.ppu]
theorem ReadFrame.nt (h : ReadFrame s t) : t.ppu.nt = s.ppu.nt := by rw [h.ppu]
theorem ReadFrame.ctrl0 (h : ReadFrame s t) : t.ppu.ctrl0 = s.ppu.ctrl0 := by rw [h.ppu]
theorem ReadFrame.ctrl1 (h : ReadFrame s t) : t.ppu.ctrl1 = s.ppu.ctrl1 := by rw [h.ppu]
theorem ReadFrame.oamaddr (h : ReadFrame s t) : t.ppu.oamaddr = s.ppu.oamaddr := by rw [h.ppu]
theorem ReadFrame.fb (h : ReadFrame s t) : t.ppu.fb = s.ppu.fb := by rw [h.ppu]
theorem ReadFrame.info (h : ReadFrame s t) : t.ppu.info = s.ppu.info := by rw [h.ppu]
theorem ReadFrame.scanline (h : ReadFrame s t) : t.ppu.scanline = s.ppu.scanline := by rw [h.ppu]
theorem ReadFrame.paletteCache (h : ReadFrame s t) : t.ppu.paletteCache = s.ppu.paletteCache := by rw [h.ppu]

end

theorem ppuRegRead_2007 (s : State) : ppuRegRead 0x2007 s = ppuDataRead s := rfl

/-- A read looks at RAM, the PPU, the cartridge and the device alone, and changes no others. -/
theorem read8_congr (a : Word) {s t : State} (hr : t.ram = s.ram) (hq : t.ppu = s.ppu) (hc : t.cart = s.cart)
    (he : t.ext = s.ext) :
    read8 a t =
      ((read8 a s).1,
        { t with ppu := (read8 a s).2.ppu, cart := (read8 a s).2.cart, ext := (read8 a s).2.ext }) := by
  obtain ⟨ta, tx, ty, tsp, tpc, tp, tcy, tram, tppu, tcart, text, tf, tph, ti, tcfg⟩ := t
  obtain ⟨sa, sx, sy, ssp, spc, sp', scy, sram, sppu, scart, sext, sf, sph, si, scfg⟩ := s
  simp only at hr hq hc he
  subst hr hq hc he
  simp only [read8]
  split
  · rfl
  · split
    · rcases ppuRegAddr_cases a with e | e | e | e | e | e | e | e <;> rw [e] <;> try rfl
      by_cases h1 : 0x3F00 ≤ (vramAddr tppu.v).toNat
      · simp only [ppuRegRead_2007, ppuDataRead, h1, ↓reduceIte]
      · by_cases h2 : (vramAddr tppu.v).toNat < 0x2000
        · simp only [ppuRegRead_2007, ppuDataRead, vramRead, h1, h2, ↓reduceIte]; rfl
        · simp only [ppuRegRead_2007, ppuDataRead, vramRead, h1, h2, ↓reduceIte]; rfl
    · split
      · rfl
      · split
        · cases text <;> rfl
        · split
          · rfl
          · cases tcart <;> rfl

theorem readPair_frame (lo hi : Word) (s : State) : ReadFrame s (readPair lo hi s).2 :=
  (read8_frame lo s).trans (read8_frame hi _)

theorem read16_frame (a : Word) (s : State) : ReadFrame s (read16 a s).2 := readPair_frame _ _ s

/-! ## Writes -/

theorem WriteFrame.refl (s : State) : WriteFrame s s := ⟨rfl⟩

theorem WriteFrame.trans {s t u : State} (h : WriteFrame s t) (k : WriteFrame t u) : WriteFrame s u := by
  constructor
  have e := k.eq
  rw [h.eq] at e
  exact e

theorem ReadFrame.toWrite {s t : State} (h : ReadFrame s t) : WriteFrame s t := by
  constructor
  rw [h.eq]

theorem charge_writeFrame (n : Nat) (s : State) : WriteFrame s (charge n s) := ⟨rfl⟩

theorem oamWrite_writeFrame (i : Nat) (v : Byte) (s : State) : WriteFrame s (oamWrite i v s) := ⟨rfl⟩

theorem dmaCopy_writeFrame (base : Word) (s : State) : WriteFrame s (dmaCopy base s) := by
  unfold dmaCopy
  generalize List.range 256 = l
  induction l generalizing s with
  | nil => exact .refl s
  | cons i l ih =>
    exact ((read8_frame _ s).toWrite.trans (oamWrite_writeFrame i _ _)).trans (ih _)

theorem oamDma_writeFrame (d : Byte) (s : State) : WriteFrame s (oamDma d s) :=
  (dmaCopy_writeFrame _ s).trans (charge_writeFrame 512 _)

theorem vramWrite_writeFrame (a : PpuAddr) (d : Byte) (s : State) : WriteFrame s (vramWrite a d s) := by
  unfold vramWrite
  split
  · exact ⟨rfl⟩
  · split <;> exact ⟨rfl⟩

theorem ppuDataWrite_writeFrame (d : Byte) (s : State) : WriteFrame s (ppuDataWrite d s) :=
  (vramWrite_writeFrame _ d s).trans ⟨rfl⟩

theorem ppuRegWrite_writeFrame (a : Word) (d : Byte) (s : State) :
    WriteFrame s (ppuRegWrite (ppuRegAddr a) d s) := by
  rcases ppuRegAddr_cases a with h | h | h | h | h | h | h | h <;> rw [h]
  · exact ⟨rfl⟩
  · exact ⟨rfl⟩
  · exact .refl s
  · exact ⟨rfl⟩
  · exact ⟨rfl⟩
  · refine ⟨?_⟩
    show _ = { s with ppu := _, ram := _, cart := _, ext := _, cycles := _ }
    simp [ppuRegWrite, scrollWrite]
    split <;> rfl
  · refine ⟨?_⟩
    simp [ppuRegWrite, addrWrite]
    split <;> rfl
  · exact ppuDataWrite_writeFrame d s

theorem cartCpuWrite_writeFrame (a : Word) (v : Byte) (s : State) : WriteFrame s (cartCpuWrite a v s) := by
  unfold cartCpuWrite; split <;> exact ⟨rfl⟩

theorem extWrite_writeFrame (a : Word) (v : Byte) (s : State) : WriteFrame s (extWrite a v s) := by
  unfold extWrite; split <;> exact ⟨rfl⟩

/-- All that a bus write can change. -/
theorem write8_frame (a : Word) (v : Byte) (s : State) : WriteFrame s (write8 a v s) := by
  unfold write8
  split
  · exact ⟨rfl⟩
  · split
    · exact ppuRegWrite_writeFrame a v s
    · split
      · exact oamDma_writeFrame v s
      · split
        · exact extWrite_writeFrame a v s
        · split
          · exact .refl s
          · exact cartCpuWrite_writeFrame a v s

/-- A write of internal RAM. -/
theorem write8_ram {a : Word} (h : a.toNat ≤ 0x1FFF) (v : Byte) (s : State) : write8 a v s = ramWrite a v s := by
  simp only [write8, if_pos h]

/-- A write at any mirror of a PPU register. -/
theorem write8_ppu {a : Word} (h : 0x2000 ≤ a.toNat) (h' : a.toNat ≤ 0x3FFF) (v : Byte) (s : State) :
    write8 a v s = ppuRegWrite (ppuRegAddr a) v s := by
  simp only [write8]; rw [if_neg (by omega), if_pos h']

section
variable {s t : State}

theorem WriteFrame.a (h : WriteFrame s t) : t.a = s.a := by rw [h.eq]
theorem WriteFrame.x (h : WriteFrame s t) : t.x = s.x := by rw [h.eq]
theorem WriteFrame.y (h : WriteFrame s t) : t.y = s.y := by rw [h.eq]
theorem WriteFrame.sp (h : WriteFrame s t) : t.sp = s.sp := by rw [h.eq]
theorem WriteFrame.pc (h : WriteFrame s t) : t.pc = s.pc := by rw [h.eq]
theorem WriteFrame.p (h : WriteFrame s t) : t.p = s.p := by rw [h.eq]
theorem WriteFrame.faulted (h : WriteFrame s t) : t.faulted = s.faulted := by rw [h.eq]
theorem WriteFrame.phase (h : WriteFrame s t) : t.phase = s.phase := by rw [h.eq]
theorem WriteFrame.inputs (h : WriteFrame s t) : t.inputs = s.inputs := by rw [h.eq]
theorem WriteFrame.cfg (h : WriteFrame s t) : t.cfg = s.cfg := by rw [h.eq]
theorem WriteFrame.ppu (h : WriteFrame s t) :
    t.ppu = { t.ppu with
      scanline := s.ppu.scanline, fb := s.ppu.fb, info := s.ppu.info, paletteCache := s.ppu.paletteCache } :=
  congrArg State.ppu h.eq
theorem WriteFrame.fb (h : WriteFrame s t) : t.ppu.fb = s.ppu.fb := by rw [h.ppu]
theorem WriteFrame.info (h : WriteFrame s t) : t.ppu.info = s.ppu.info := by rw [h.ppu]
theorem WriteFrame.scanline (h : WriteFrame s t) : t.ppu.scanline = s.ppu.scanline := by rw [h.ppu]
theorem WriteFrame.paletteCache (h : WriteFrame s t) : t.ppu.paletteCache = s.ppu.paletteCache := by rw [h.ppu]

end

/-! ## The stack -/

/-- A push in closed form: one byte of RAM and SP. -/
theorem push8_eq (b : Byte) (s : State) :
    push8 b s = { s with ram := s.ram.set (256 + s.sp.toNat) b, sp := s.sp - 1 } := by
  simp only [push8, write8_ram (stackAddr_le s.sp), ramWrite, ramKey_stackAddr]

/-- A pull in closed form: one byte of RAM, and SP. -/
theorem pull8_eq (s : State) : pull8 s = (s.ram.get (256 + (s.sp + 1).toNat), { s with sp := s.sp + 1 }) := by
  simp only [pull8, read8_ram (stackAddr_le (s.sp + 1)), ramKey_stackAddr]

theorem push16_eq (w : Word) (s : State) :
    push16 w s =
      { s with
        ram := Memory.set (s.ram.set (256 + s.sp.toNat) (hiByte w)) (256 + (s.sp - 1).toNat) (loByte w)
        sp := s.sp - 2 } := by
  simp only [push16, push8_eq, BitVec.sub_sub]
  rfl

theorem pull16_eq (s : State) :
    pull16 s =
      (mkWord (s.ram.get (256 + (s.sp + 2).toNat)) (s.ram.get (256 + (s.sp + 1).toNat)), { s with sp := s.sp + 2 }) := by
  simp only [pull16, pull8_eq, BitVec.add_assoc]
  rfl

end Sys2Proof.Machine
end

