-- ==== Sys2Proof/Laws/Flags.lean ====
section
/-! SUPPORT. The flags of P: reading one after writing one, the two held bits, and what each computation of flags
writes and leaves. -/

namespace Sys2Proof.Machine

theorem getFlag_setFlag (p : Byte) (f g : Flag) (b : Bool) :
    getFlag (setFlag p f b) g = if g = f then b else getFlag p g := by
  cases f <;> cases g <;> cases b <;> simp [getFlag, setFlag, Flag.pos]

@[simp] theorem getFlag_setFlag_self (p : Byte) (f : Flag) (b : Bool) : getFlag (setFlag p f b) f = b := by
  simp [getFlag_setFlag]

@[simp] theorem getFlag_setFlag_ne (p : Byte) {f g : Flag} (b : Bool) (h : g ≠ f) :
    getFlag (setFlag p f b) g = getFlag p g := by
  simp [getFlag_setFlag, h]

/-- Writing a flag touches neither held bit. -/
@[simp] theorem heldBits_setFlag (p : Byte) (f : Flag) (b : Bool) : heldBits (setFlag p f b) = heldBits p := by
  cases f <;> cases b <;> revert p <;> decide

/-- A status byte is its six flags and its two held bits. -/
theorem status_ext {p q : Byte} (hf : ∀ f, getFlag p f = getFlag q f) (hh : heldBits p = heldBits q) : p = q := by
  have e4 : p.getLsbD 4 = q.getLsbD 4 := by
    have := congrArg (fun b : Byte => b.getLsbD 4) hh
    simpa [heldBits] using this
  have e5 : p.getLsbD 5 = q.getLsbD 5 := by
    have := congrArg (fun b : Byte => b.getLsbD 5) hh
    simpa [heldBits] using this
  apply BitVec.eq_of_getLsbD_eq
  intro i hi
  have hc := hf .c; have hz := hf .z; have hi' := hf .i; have hd := hf .d; have hv := hf .v; have hn := hf .n
  simp only [getFlag, Flag.pos] at hc hz hi' hd hv hn
  rcases i with _ | _ | _ | _ | _ | _ | _ | _ | i <;> first | assumption | omega

@[simp] theorem heldBits_pulledStatus (b : Byte) : heldBits (pulledStatus b) = 0 := by revert b; decide

@[simp] theorem getFlag_pulledStatus (b : Byte) (f : Flag) : getFlag (pulledStatus b) f = getFlag b f := by
  cases f <;> revert b <;> decide

@[simp] theorem getFlag_breakImage (b : Byte) (f : Flag) : getFlag (breakImage b) f = getFlag b f := by
  cases f <;> revert b <;> decide

@[simp] theorem getFlag_interruptImage (b : Byte) (f : Flag) : getFlag (interruptImage b) f = getFlag b f := by
  cases f <;> revert b <;> decide

/-- PLP or RTI of the image that PHP or BRK pushed gives P back when P's held bits are 0. -/
theorem pulledStatus_breakImage {p : Byte} (h : heldBits p = 0) : pulledStatus (breakImage p) = p := by
  revert p; decide

/-- RTI of the image that IRQ or NMI pushed gives P back when P's held bits are 0. -/
theorem pulledStatus_interruptImage {p : Byte} (h : heldBits p = 0) : pulledStatus (interruptImage p) = p := by
  revert p; decide

@[simp] theorem heldBits_setNZ (r p : Byte) : heldBits (setNZ r p) = heldBits p := by simp [setNZ]
@[simp] theorem heldBits_arithFlags (q : ArithResult) (p : Byte) : heldBits (arithFlags q p) = heldBits p := by
  simp [arithFlags]
@[simp] theorem heldBits_compareFlags (r m p : Byte) : heldBits (compareFlags r m p) = heldBits p := by
  simp [compareFlags]
@[simp] theorem heldBits_bitFlags (a m p : Byte) : heldBits (bitFlags a m p) = heldBits p := by simp [bitFlags]
@[simp] theorem heldBits_shiftFlags (q : CarryResult) (p : Byte) : heldBits (shiftFlags q p) = heldBits p := by
  simp [shiftFlags]

/-- `SetNZ` writes Z and N and no other flag. -/
theorem getFlag_setNZ (r p : Byte) (f : Flag) :
    getFlag (setNZ r p) f = match f with | .z => r == 0 | .n => r.getLsbD 7 | g => getFlag p g := by
  cases f <;> simp [setNZ]

/-- ADC and SBC write C, Z, V and N and no other flag. -/
theorem getFlag_arithFlags (q : ArithResult) (p : Byte) (f : Flag) :
    getFlag (arithFlags q p) f =
      match f with | .c => q.c | .v => q.v | .z => q.r == 0 | .n => q.r.getLsbD 7 | g => getFlag p g := by
  cases f <;> simp [arithFlags, getFlag_setNZ]

/-- A compare writes C, Z and N and no other flag. -/
theorem getFlag_compareFlags (r m p : Byte) (f : Flag) :
    getFlag (compareFlags r m p) f =
      match f with
      | .c => decide (m.toNat ≤ r.toNat) | .z => r - m == 0 | .n => (r - m).getLsbD 7 | g => getFlag p g := by
  cases f <;> simp [compareFlags, getFlag_setNZ]

/-- BIT writes N, V and Z and no other flag. -/
theorem getFlag_bitFlags (a m p : Byte) (f : Flag) :
    getFlag (bitFlags a m p) f =
      match f with | .n => m.getLsbD 7 | .v => m.getLsbD 6 | .z => a &&& m == 0 | g => getFlag p g := by
  cases f <;> simp [bitFlags]

/-- A shift writes C, Z and N and no other flag. -/
theorem getFlag_shiftFlags (q : CarryResult) (p : Byte) (f : Flag) :
    getFlag (shiftFlags q p) f =
      match f with | .c => q.c | .z => q.r == 0 | .n => q.r.getLsbD 7 | g => getFlag p g := by
  cases f <;> simp [shiftFlags, getFlag_setNZ]

end Sys2Proof.Machine
end

