-- ==== Sys2Proof/Laws/Operands.lean ====
section
/-! SUPPORT. Effective addresses and operands in closed form: a pointer of page 0 is read from RAM, so computing an
effective address changes nothing, and a charge commutes with a read (40_execution_and_addressing R70 to R84). -/

namespace Sys2Proof.Machine

/-! ## A charge commutes with the bus -/

theorem read8_charge (a : Word) (n : Nat) (s : State) :
    read8 a (charge n s) = ((read8 a s).1, charge n (read8 a s).2) := by
  rw [read8_congr a (s := s) (t := charge n s) rfl rfl rfl rfl]
  conv_rhs => rw [read8_congr a (s := s) (t := s) rfl rfl rfl rfl]
  rfl

/-! ## Effective addresses -/

theorem zext16_le (b : Byte) : (zext16 b).toNat ≤ 0x1FFF := by
  have := b.isLt
  rw [zext16_toNat]; omega

theorem ramKey_zext16 (b : Byte) : ramKey (zext16 b) = b.toNat := by
  have := b.isLt
  rw [ramKey, zext16_toNat]; omega

/-- The pointer at a page-0 address, in closed form (R81, R82). -/
theorem zpPointer_eq (p : Byte) (s : State) :
    zpPointer p s = (mkWord (s.ram.get (p + 1).toNat) (s.ram.get p.toNat), s) := by
  simp only [zpPointer, readPair, read8_ram (zext16_le _), ramKey_zext16]

/-- Computing an effective address changes nothing. -/
@[simp] theorem effAddr_st (m : MemForm) (s : State) : (effAddr m s).st = s := by
  cases m <;> simp [effAddr, direct, indexed, zpPointer_eq]

/-- The effective address looks at X, Y and RAM alone. -/
theorem effAddr_congr (m : MemForm) {s t : State} (hx : t.x = s.x) (hy : t.y = s.y) (hr : t.ram = s.ram) :
    (effAddr m t).addr = (effAddr m s).addr ∧ (effAddr m t).crossed = (effAddr m s).crossed := by
  cases m <;> simp [effAddr, direct, indexed, zpPointer_eq, hx, hy, hr]

/-! ## Operands -/

theorem readOperand_imm (b : Byte) (s : State) : readOperand (.imm b) s = (b, s) := rfl

/-- The operand of a memory form: the byte at the effective address, and 1 cycle for a page crossing. -/
theorem readOperand_mem (m : MemForm) (s : State) :
    readOperand (.mem m) s =
      ((read8 (effAddr m s).addr s).1,
        if (effAddr m s).crossed then charge 1 (read8 (effAddr m s).addr s).2 else (read8 (effAddr m s).addr s).2) := by
  simp only [readOperand, crossPenalty, effAddr_st]
  split
  · rw [read8_charge]
  · rfl

/-- What reading an operand leaves: what bus reads may change, and the cycle count. -/
theorem readOperand_frame (m : SrcForm) (s : State) :
    ReadFrame s { (readOperand m s).2 with cycles := s.cycles } := by
  cases m with
  | imm b => exact .refl s
  | mem m =>
    rw [readOperand_mem]
    have h := read8_frame (effAddr m s).addr s
    have hc := h.cycles
    generalize (read8 (effAddr m s).addr s).2 = t at h hc
    have e : ReadFrame s { t with cycles := s.cycles } := by rw [← hc]; exact h
    dsimp only
    split
    · exact e
    · exact e

/-- Does an operand form cross a page (R78, R79, R82)? -/
theorem readOperand_cycles (m : MemForm) (s : State) :
    (readOperand (.mem m) s).2.cycles = s.cycles + if (effAddr m s).crossed then 1 else 0 := by
  rw [readOperand_mem]
  dsimp only
  split <;> simp [(read8_frame _ s).cycles]

theorem storeOperand_eq (m : MemForm) (v : Byte) (s : State) :
    storeOperand m v s = write8 (effAddr m s).addr v s := by
  simp [storeOperand]

/-- A read-modify-write: one read and one write at the same address (R70). -/
theorem modifyMemory_eq (m : MemForm) (f : Byte → Byte → Byte × Byte) (s : State) :
    modifyMemory m f s =
      write8 (effAddr m s).addr (f (read8 (effAddr m s).addr s).1 s.p).1
        { (read8 (effAddr m s).addr s).2 with p := (f (read8 (effAddr m s).addr s).1 s.p).2 } := by
  simp only [modifyMemory, effAddr_st, (read8_frame _ s).p]

end Sys2Proof.Machine
end

