-- ==== Sys2Proof/Laws/Effects.lean ====
section
/-! SUPPORT. What each shared operation does, said once in the terms of Safety.lean: reading an operand, one store, a
push, and an interrupt's entry. -/

namespace Sys2Proof.Machine

/-! ## Status bytes -/

theorem showsNZ_of {r q : Byte} (hz : getFlag q .z = (r == 0)) (hn : getFlag q .n = r.getLsbD 7) : ShowsNZ r q := by
  unfold ShowsNZ
  rw [hz, hn]
  clear hz hn
  revert r; decide

theorem showsNZ_setNZ (r p : Byte) : ShowsNZ r (setNZ r p) :=
  showsNZ_of (getFlag_setNZ r p .z) (getFlag_setNZ r p .n)

theorem flagsKept_setNZ (r p : Byte) : FlagsKept [.z, .n] p (setNZ r p) :=
  ⟨fun f hf => by rw [getFlag_setNZ]; cases f <;> simp_all, heldBits_setNZ _ _⟩

theorem showsNZ_arithFlags (q : ArithResult) (p : Byte) : ShowsNZ q.r (arithFlags q p) :=
  showsNZ_of (getFlag_arithFlags q p .z) (getFlag_arithFlags q p .n)

theorem flagsKept_arithFlags (q : ArithResult) (p : Byte) : FlagsKept [.c, .z, .v, .n] p (arithFlags q p) :=
  ⟨fun f hf => by rw [getFlag_arithFlags]; cases f <;> simp_all, heldBits_arithFlags _ _⟩

theorem showsNZ_compareFlags (r m p : Byte) : ShowsNZ (r - m) (compareFlags r m p) :=
  showsNZ_of (getFlag_compareFlags r m p .z) (getFlag_compareFlags r m p .n)

theorem flagsKept_compareFlags (r m p : Byte) : FlagsKept [.c, .z, .n] p (compareFlags r m p) :=
  ⟨fun f hf => by rw [getFlag_compareFlags]; cases f <;> simp_all, heldBits_compareFlags _ _ _⟩

theorem flagsKept_bitFlags (a m p : Byte) : FlagsKept [.z, .v, .n] p (bitFlags a m p) :=
  ⟨fun f hf => by rw [getFlag_bitFlags]; cases f <;> simp_all, heldBits_bitFlags _ _ _⟩

theorem showsNZ_shiftFlags (q : CarryResult) (p : Byte) : ShowsNZ q.r (shiftFlags q p) :=
  showsNZ_of (getFlag_shiftFlags q p .z) (getFlag_shiftFlags q p .n)

theorem flagsKept_shiftFlags (q : CarryResult) (p : Byte) : FlagsKept [.c, .z, .n] p (shiftFlags q p) :=
  ⟨fun f hf => by rw [getFlag_shiftFlags]; cases f <;> simp_all, heldBits_shiftFlags _ _⟩

theorem flagsKept_setFlag (p : Byte) (f : Flag) (b : Bool) : FlagsKept [f] p (setFlag p f b) :=
  ⟨fun g hg => getFlag_setFlag_ne p b (by simpa using hg), heldBits_setFlag _ _ _⟩

/-! ## Memory proper -/

/-- A byte of memory proper is read from RAM, or from the fixture's contents. -/
theorem plain_read {s t : State} {a : Word} (h : Plain s a) (hr : t.ram = s.ram)
    (hc : s.cart.isFixture = true → ∃ prg chr chr' mir, s.cart = .fixture prg chr mir ∧ t.cart = .fixture prg chr' mir) :
    (read8 a t).1 = (read8 a s).1 := by
  rcases h with h | ⟨h, hf⟩
  · rw [read8_ram h, read8_ram h, hr]
  · obtain ⟨prg, chr, chr', mir, h1, h2⟩ := hc hf
    rw [read8_fixture h h1, read8_fixture h h2]

theorem isFixture_iff (c : Cart) : c.isFixture = true ↔ ∃ prg chr mir, c = .fixture prg chr mir := by
  cases c <;> simp [Cart.isFixture]

theorem plainKept_of_eq {s t : State} (hr : t.ram = s.ram) (hc : s.cart.isFixture = true → t.cart = s.cart)
    (stored : Word → Prop) : PlainKept s t stored := by
  intro a ha _
  refine plain_read ha hr fun hf => ?_
  obtain ⟨prg, chr, mir, h⟩ := (isFixture_iff _).mp hf
  exact ⟨prg, chr, chr, mir, h, by rw [hc hf, h]⟩

theorem ReadFrame.plainKept {s t : State} (h : ReadFrame s t) (stored : Word → Prop) : PlainKept s t stored :=
  plainKept_of_eq h.ram h.fixture stored

/-! ## Reading an operand -/

theorem readOperand_readEffect (m : SrcForm) (s : State) : ReadEffect m s (readOperand m s).2 := by
  have f := readOperand_frame m s
  refine ⟨?_, rfl, rfl, rfl, ?_, ?_⟩
  · have e : ({ (readOperand m s).2 with a := s.a, x := s.x, y := s.y, p := s.p, cycles := s.cycles } : State) =
        { (readOperand m s).2 with cycles := s.cycles } := by
      have ha := f.a; have hx := f.x; have hy := f.y; have hp := f.p
      generalize (readOperand m s).2 = u at ha hx hy hp ⊢
      cases u
      simp_all
    rw [e]; exact f
  · cases m with
    | imm b => simp [readOperand, operandCrosses]
    | mem m => rw [readOperand_cycles]; rfl
  · exact plainKept_of_eq (t := (readOperand m s).2) f.ram f.fixture _

/-- Writing A, X, Y or P after the read does not spoil what is said of it. -/
theorem ReadEffect.congr {m : SrcForm} {s t u : State} (h : ReadEffect m s t)
    (e : u = { t with a := u.a, x := u.x, y := u.y, p := u.p }) : ReadEffect m s u := by
  have hr : t.ram = s.ram := h.frame.ram
  have hc : s.cart.isFixture = true → t.cart = s.cart := h.frame.fixture
  rw [e]
  refine ⟨h.frame, h.ppu, h.cart, h.ext, h.cost, ?_⟩
  exact plainKept_of_eq (t := { t with a := u.a, x := u.x, y := u.y, p := u.p }) hr hc _

/-! ## One store -/

/-- What a write outside RAM leaves: RAM, and of a fixture cartridge its CPU-side contents and its mirroring. -/
def DeviceKept (s t : State) : Prop :=
  t.ram = s.ram ∧ ∀ prg chr mir, s.cart = .fixture prg chr mir → ∃ chr', t.cart = .fixture prg chr' mir

theorem DeviceKept.of_eq {s t : State} (hr : t.ram = s.ram) (hc : s.cart.isFixture = true → t.cart = s.cart) :
    DeviceKept s t :=
  ⟨hr, fun _ chr _ h => ⟨chr, (hc (by rw [h]; rfl)).trans h⟩⟩

theorem ppuRegWrite_deviceKept (a : Word) (v : Byte) (s : State) : DeviceKept s (ppuRegWrite (ppuRegAddr a) v s) := by
  rcases ppuRegAddr_cases a with h | h | h | h | h | h | h | h <;> rw [h]
  iterate 7 exact .of_eq rfl fun _ => rfl
  show DeviceKept s (ppuDataWrite v s)
  unfold ppuDataWrite vramWrite
  split
  · exact ⟨rfl, fun prg chr mir h => ⟨_, by simp only [h, cartChrWrite]; rfl⟩⟩
  · split <;> exact .of_eq rfl fun _ => rfl

theorem dmaCopy_kept (base : Word) (s : State) :
    (dmaCopy base s).ram = s.ram ∧ (s.cart.isFixture = true → (dmaCopy base s).cart = s.cart) := by
  have key : ∀ (l : List Nat) (u : State), u.ram = s.ram → (s.cart.isFixture = true → u.cart = s.cart) →
      (l.foldl (dmaByte base) u).ram = s.ram ∧ (s.cart.isFixture = true → (l.foldl (dmaByte base) u).cart = s.cart) := by
    intro l
    induction l with
    | nil => exact fun u h1 h2 => ⟨h1, h2⟩
    | cons i l ih =>
      intro u h1 h2
      have f := read8_frame (base + BitVec.ofNat 16 i) u
      exact ih _ (f.ram.trans h1) fun hf => (f.fixture (by rw [h2 hf]; exact hf)).trans (h2 hf)
  exact key (List.range 256) s rfl fun _ => rfl

theorem write8_device {e : Word} (he : 0x1FFF < e.toNat) (v : Byte) (s : State) : DeviceKept s (write8 e v s) := by
  unfold write8
  rw [if_neg (by omega)]
  split
  · exact ppuRegWrite_deviceKept e v s
  · split
    · have k := dmaCopy_kept (mkWord v 0) s
      rw [oamDma]
      exact .of_eq (by rw [charge_ram, k.1]) (fun hf => by rw [charge_cart, k.2 hf])
    · split
      · unfold extWrite; split <;> exact .of_eq rfl fun _ => rfl
      · split
        · exact .of_eq rfl fun _ => rfl
        · unfold cartCpuWrite
          split
          · exact .of_eq rfl fun _ => rfl
          · rename_i m hm
            exact ⟨rfl, fun prg chr mir h => by rw [hm] at h; cases h⟩

/-- One bus write, in the terms of the claims. -/
theorem write8_storeEffect (e : Word) (v : Byte) (s : State) : StoreEffect e v s (write8 e v s) := by
  refine ⟨rfl, write8_frame e v s, fun h => ?_, fun h => (write8_device h v s).1, fun hw a h => ?_, fun a ha hn => ?_⟩
  · rw [write8_ram h]; rfl
  · obtain ⟨h1, h2, h3⟩ := h
    rw [write8_ram h1, read8_ram h2]
    have hk : ramKey a = ramKey e := h3
    simp only [ramWrite, hk]
    exact SparseMap.get_set_self hw
  · by_cases he : e.toNat ≤ 0x1FFF
    · rw [write8_ram he]
      rcases ha with ha | ⟨ha, hf⟩
      · rw [read8_ram ha, read8_ram ha]
        simp only [ramWrite]
        exact SparseMap.get_set_ne fun hk => hn ⟨he, ha, hk⟩
      · obtain ⟨prg, chr, mir, hc⟩ := (isFixture_iff _).mp hf
        rw [read8_fixture ha hc, read8_fixture ha (s := ramWrite e v s) hc]
    · have d := write8_device (by omega : 0x1FFF < e.toNat) v s
      refine plain_read ha d.1 fun hf => ?_
      obtain ⟨prg, chr, mir, hc⟩ := (isFixture_iff _).mp hf
      obtain ⟨chr', hc'⟩ := d.2 prg chr mir hc
      exact ⟨prg, chr, chr', mir, hc, hc'⟩

/-- The first `n` bytes of an OAM DMA from a page whose reads change nothing (61_ppu_oam R197). -/
theorem dmaFold_plain (s : State) (base : Word) (n : Nat) (hn : n ≤ 256) (hw : Memory.wf 256 s.ppu.oam = true)
    (hp : ∀ i, i < 256 → Plain s (base + BitVec.ofNat 16 i)) :
    ∃ o, (List.range n).foldl (dmaByte base) s = { s with ppu := { s.ppu with oam := o } } ∧ Memory.wf 256 o = true ∧
      (∀ i, i < n → o.get i = (read8 (base + BitVec.ofNat 16 i) s).1) ∧ ∀ i, n ≤ i → o.get i = s.ppu.oam.get i := by
  induction n with
  | zero => exact ⟨_, rfl, hw, by simp, fun _ _ => rfl⟩
  | succ n ih =>
    obtain ⟨o, e, w, h1, h2⟩ := ih (by omega)
    rw [List.range_succ, List.foldl_append, e]
    simp only [List.foldl_cons, List.foldl_nil, dmaByte]
    have hr : read8 (base + BitVec.ofNat 16 n) { s with ppu := { s.ppu with oam := o } } =
        ((read8 (base + BitVec.ofNat 16 n) s).1, { s with ppu := { s.ppu with oam := o } }) := by
      rcases hp n (by omega) with hq | ⟨hq, hf⟩
      · rw [read8_ram hq, read8_ram hq]
      · obtain ⟨prg, chr, mir, hc⟩ := (isFixture_iff _).mp hf
        rw [read8_fixture hq hc, read8_fixture (s := { s with ppu := { s.ppu with oam := o } }) hq hc]
    rw [hr]
    refine ⟨_, rfl, SparseMap.wf_set w (by omega), fun i hi => ?_, fun i hi => ?_⟩
    · by_cases he : i = n
      · subst he; exact SparseMap.get_set_self w
      · exact (SparseMap.get_set_ne he).trans (h1 i (by omega))
    · exact (SparseMap.get_set_ne (by omega)).trans (h2 i (by omega))

/-! ## The stack -/

theorem stackAddr_eq (sp : Byte) : stackAddr sp = 0x0100 + zext16 sp := by
  revert sp; decide

theorem sameCell_stack (sp : Byte) (a : Word) :
    SameCell (0x0100 + zext16 sp) a ↔ a.toNat ≤ 0x1FFF ∧ ramKey a = 256 + sp.toNat := by
  rw [← stackAddr_eq]
  have h1 := stackAddr_le sp
  have h2 := ramKey_stackAddr sp
  unfold SameCell
  unfold ramKey at h2 ⊢
  rw [h2]
  exact ⟨fun h => ⟨h.2.1, h.2.2⟩, fun h => ⟨h1, h.1, h.2⟩⟩

theorem read8_stack (sp : Byte) (s : State) : read8 (0x0100 + zext16 sp) s = (s.ram.get (256 + sp.toNat), s) := by
  rw [← stackAddr_eq, read8_ram (stackAddr_le sp), ramKey_stackAddr]

/-- RAM after pushing bytes, the first at `0x0100 | sp`. -/
def pushRam : List Byte → Byte → Memory → Memory
  | [], _, m => m
  | b :: bs, sp, m => pushRam bs (sp - 1) (m.set (256 + sp.toNat) b)

theorem pushRam_wf (bs : List Byte) (sp : Byte) {m : Memory} (h : Memory.wf 2048 m = true) :
    Memory.wf 2048 (pushRam bs sp m) = true := by
  induction bs generalizing sp m with
  | nil => exact h
  | cons b bs ih =>
    have := sp.isLt
    exact ih _ (SparseMap.wf_set h (by omega))

/-- A byte not among the pushed ones is as before. -/
theorem pushRam_get_ne (bs : List Byte) (sp : Byte) (m : Memory) {i : Nat}
    (h : ∀ k, k < bs.length → i ≠ 256 + (sp - BitVec.ofNat 8 k).toNat) : (pushRam bs sp m).get i = m.get i := by
  induction bs generalizing sp m with
  | nil => rfl
  | cons b bs ih =>
    rw [pushRam, ih]
    · exact SparseMap.get_set_ne (by simpa using h 0 (by simp))
    · intro k hk
      have e : sp - 1 - BitVec.ofNat 8 k = sp - BitVec.ofNat 8 (k + 1) := by
        rw [BitVec.sub_sub, BitVec.ofNat_add, BitVec.add_comm]; rfl
      rw [e]
      exact h (k + 1) (by simpa using hk)

/-- A pushed byte reads back, of at most 256 pushed. -/
theorem pushRam_get (bs : List Byte) (sp : Byte) {m : Memory} (hw : Memory.wf 2048 m = true) (hl : bs.length ≤ 256)
    (k : Nat) (hk : k < bs.length) : (pushRam bs sp m).get (256 + (sp - BitVec.ofNat 8 k).toNat) = bs[k] := by
  induction bs generalizing sp m k with
  | nil => simp at hk
  | cons b bs ih =>
    have hlt := sp.isLt
    have hw' : Memory.wf 2048 (m.set (256 + sp.toNat) b) = true := SparseMap.wf_set hw (by omega)
    cases k with
    | zero =>
      rw [pushRam, pushRam_get_ne]
      · rw [show sp - BitVec.ofNat 8 0 = sp by simp]
        exact SparseMap.get_set_self hw
      · intro j hj
        simp only [List.length_cons] at hl
        simp only [BitVec.ofNat_eq_ofNat, BitVec.toNat_sub, BitVec.toNat_ofNat]
        omega
    | succ k =>
      have e : sp - 1 - BitVec.ofNat 8 k = sp - BitVec.ofNat 8 (k + 1) := by
        rw [BitVec.sub_sub, BitVec.ofNat_add, BitVec.add_comm]; rfl
      have := ih (sp - 1) hw' (by simp only [List.length_cons] at hl; omega) k (by simpa using hk)
      rw [e] at this
      exact this

/-- A state whose RAM is another's with bytes pushed, and whose cartridge a fixture's reads left alone. -/
theorem pushed_of {bs : List Byte} {s t : State} (hr : t.ram = pushRam bs s.sp s.ram) (hl : bs.length ≤ 256)
    (hc : s.cart.isFixture = true → t.cart = s.cart) : Pushed bs s t := by
  constructor
  · intro hw k hk
    rw [read8_stack, hr]
    exact pushRam_get bs s.sp hw hl k hk
  · intro a ha hn
    rcases ha with ha | ⟨ha, hf⟩
    · rw [read8_ram ha, read8_ram ha, hr]
      exact pushRam_get_ne bs s.sp s.ram fun k hk he =>
        hn ⟨k, hk, (sameCell_stack _ a).mpr ⟨ha, he⟩⟩
    · obtain ⟨prg, chr, mir, h⟩ := (isFixture_iff _).mp hf
      rw [read8_fixture ha h, read8_fixture ha ((hc hf).trans h)]

theorem push8_pushRam (b : Byte) (s : State) : push8 b s = { s with ram := pushRam [b] s.sp s.ram, sp := s.sp - 1 } := by
  rw [push8_eq]; rfl

theorem push16_pushRam (w : Word) (s : State) :
    push16 w s = { s with ram := pushRam [hiByte w, loByte w] s.sp s.ram, sp := s.sp - 2 } := by
  rw [push16_eq]; rfl

/-- A read outside RAM does not look at RAM. -/
theorem read8_device_ram {a : Word} (ha : 0x1FFF < a.toNat) (s : State) (m : Memory) :
    read8 a { s with ram := m } = ((read8 a s).1, { (read8 a s).2 with ram := m }) := by
  have hn : ¬a.toNat ≤ 0x1FFF := by omega
  simp only [read8, hn, ↓reduceIte]
  split
  · rcases ppuRegAddr_cases a with h | h | h | h | h | h | h | h <;> rw [h] <;> try rfl
    by_cases h1 : 0x3F00 ≤ (vramAddr s.ppu.v).toNat
    · simp only [ppuRegRead_2007, ppuDataRead, h1, ↓reduceIte]
    · by_cases h2 : (vramAddr s.ppu.v).toNat < 0x2000
      · simp only [ppuRegRead_2007, ppuDataRead, vramRead, h1, h2, ↓reduceIte]; rfl
      · simp only [ppuRegRead_2007, ppuDataRead, vramRead, h1, h2, ↓reduceIte]; rfl
  · split
    · rfl
    · split
      · obtain ⟨_, _, _, _, _, _, _, _, _, _, ext, _, _, _, _⟩ := s
        cases ext <;> rfl
      · split
        · rfl
        · obtain ⟨_, _, _, _, _, _, _, _, _, cart, _, _, _, _, _⟩ := s
          cases cart <;> rfl

/-- A read outside RAM, of a state with RAM, SP and P replaced. -/
theorem read8_device {a : Word} (ha : 0x1FFF < a.toNat) (s : State) (m : Memory) (sp p : Byte) :
    read8 a { s with ram := m, sp := sp, p := p } =
      ((read8 a s).1, { (read8 a s).2 with ram := m, sp := sp, p := p }) := by
  rw [read8_congr a (s := { s with ram := m }) (t := { s with ram := m, sp := sp, p := p }) rfl rfl rfl rfl,
    read8_device_ram ha]
  conv_rhs => rw [read8_congr a (s := s) (t := s) rfl rfl rfl rfl]

/-- An interrupt's entry in closed form (60_exceptions R156): three bytes pushed, I set, PC from the vector. -/
theorem enterInterrupt_eq (saved : Word) (image : Byte) (vector : Word) (s : State) (hv : 0x1FFF < vector.toNat)
    (hv' : 0x1FFF < (vector + 1).toNat) :
    enterInterrupt saved image vector s =
      { (read16 vector s).2 with
        ram := pushRam [hiByte saved, loByte saved, image] s.sp s.ram
        sp := s.sp - 3, p := setFlag s.p .i true, pc := (read16 vector s).1 } := by
  have e3 : s.sp - 2 - 1 = s.sp - 3 := by rw [BitVec.sub_sub]; rfl
  have hram : pushRam [image] (s.sp - 2) (pushRam [hiByte saved, loByte saved] s.sp s.ram) =
      pushRam [hiByte saved, loByte saved, image] s.sp s.ram := by
    simp only [pushRam, BitVec.sub_sub]; rfl
  have key : ∀ (m : Memory) (sp p : Byte), jumpVector vector { s with ram := m, sp := sp, p := p } =
      { (read16 vector s).2 with ram := m, sp := sp, p := p, pc := (read16 vector s).1 } := by
    intro m sp p
    rw [jumpVector, read16, readPair, read8_device hv]
    dsimp only
    rw [read8_device hv']
    rfl
  simp only [enterInterrupt, push16_pushRam, push8_pushRam, e3, hram, setFlagOf]
  exact key _ _ _

/-- The entry's vector reads change nothing but the cartridge. -/
theorem read16_cart {a : Word} (h : 0x4020 ≤ a.toNat) (h' : 0x4020 ≤ (a + 1).toNat) (s : State) :
    (read16 a s).2 = { s with cart := (read16 a s).2.cart } := by
  have one : ∀ {a : Word} (_ : 0x4020 ≤ a.toNat) (s : State), (read8 a s).2 = { s with cart := (read8 a s).2.cart } := by
    intro a h s
    have h4 : a ≠ 0x4014 := fun e => by rw [e] at h; revert h; decide
    simp only [read8]
    rw [if_neg (by omega), if_neg (by omega), if_neg h4, if_neg (by omega), if_neg (by omega)]
    unfold cartCpuRead
    split <;> rfl
  simp only [read16, readPair]
  have e1 := one h s
  have e2 := one h' (read8 a s).2
  generalize (read8 (a + 1) (read8 a s).2).2 = u at *
  rw [e1] at e2
  exact e2

/-- An interrupt's entry through a vector of the cartridge, in the terms of the claims (60_exceptions R156). -/
theorem enterInterrupt_effect (saved : Word) (image : Byte) (vector : Word) (s : State) (hv : 0x4020 ≤ vector.toNat)
    (hv' : 0x4020 ≤ (vector + 1).toNat) :
    let t := enterInterrupt saved image vector s
    t = { s with ram := t.ram, sp := s.sp - 3, p := t.p, pc := t.pc, cart := t.cart } ∧
    t.pc = mkWord (read8 (vector + 1) (read8 vector s).2).1 (read8 vector s).1 ∧
    t.cart = (read8 (vector + 1) (read8 vector s).2).2.cart ∧
    getFlag t.p .i = true ∧ FlagsKept [.i] s.p t.p ∧ Pushed [hiByte saved, loByte saved, image] s t := by
  intro t
  have e : t = _ := enterInterrupt_eq saved image vector s (by omega) (by omega)
  have hc := read16_cart hv hv' s
  rw [e]
  refine ⟨?_, rfl, rfl, getFlag_setFlag_self _ _ _, flagsKept_setFlag _ _ _, ?_⟩
  · generalize (read16 vector s).1 = w
    generalize (read16 vector s).2 = u at *
    rw [hc]
  · exact pushed_of rfl (by simp) (read16_frame vector s).fixture

end Sys2Proof.Machine
end

