-- ==== Sys2Proof/Laws/Invariant.lean ====
section
/-! SUPPORT. The shared operations keep the invariant: every memory stays in canonical form, the PPU's status keeps its
unused bits at 0, and no bus access sets `faulted` (60_exceptions R150). -/

namespace Sys2Proof.Machine

theorem palIndex_lt (a : PpuAddr) : palIndex a < 32 := by
  unfold palIndex
  split <;> omega

theorem ntKey_lt (c : Cart) (a : PpuAddr) : ntKey c a < 4096 := by
  unfold ntKey
  have := (mirror c ((ntAddr a).extractLsb' 10 2)).isLt
  omega

theorem clearVbl_low (b : Byte) (h : b &&& 0x1F = 0) : (b &&& 0x7F) &&& 0x1F = 0 := by
  revert b; decide

theorem setVbl_low (b : Byte) (h : b &&& 0x1F = 0) : (b ||| 0x80) &&& 0x1F = 0 := by
  revert b; decide

/-! ## Cartridges -/

theorem cartCpuRead_cart_wf (a : Word) {s : State} (h : s.cart.wf = true) : (cartCpuRead a s).2.cart.wf = true := by
  unfold cartCpuRead
  split
  · exact h
  · rfl

theorem cartAfterChrRead_wf {c : Cart} (h : c.wf = true) (a : PpuAddr) : (cartAfterChrRead c a).wf = true := by
  cases c
  · exact h
  · rfl

theorem cartChrWrite_wf {c : Cart} (h : c.wf = true) {a : PpuAddr} (ha : a.toNat < 0x2000) (d : Byte) :
    (cartChrWrite c a d).wf = true := by
  cases c
  · simp only [Cart.wf, cartChrWrite, Bool.and_eq_true] at h ⊢
    exact ⟨h.1, SparseMap.wf_set h.2 ha⟩
  · rfl

theorem cartCpuWrite_cart_wf (a : Word) (v : Byte) {s : State} (h : s.cart.wf = true) :
    (cartCpuWrite a v s).cart.wf = true := by
  unfold cartCpuWrite
  split
  · exact h
  · rfl

theorem read8_cart_wf (a : Word) {s : State} (h : s.cart.wf = true) : (read8 a s).2.cart.wf = true := by
  unfold read8
  split
  · exact h
  · split
    · rcases ppuRegAddr_cases a with e | e | e | e | e | e | e | e <;> rw [e] <;> try exact h
      show (ppuDataRead s).2.cart.wf = true
      unfold ppuDataRead
      split
      · exact h
      · simp only [vramRead]
        split
        · exact cartAfterChrRead_wf h _
        · exact h
    · split
      · exact h
      · split
        · unfold extRead; split <;> exact h
        · split
          · exact h
          · exact cartCpuRead_cart_wf a h

/-! ## Reads -/

/-- What a bus read leaves of the PPU keeps the PPU's invariant. -/
theorem PpuInv.readFrame {s t : State} (h : PpuInv s.ppu) (f : ReadFrame s t) : PpuInv t.ppu := by
  refine ⟨?_, ?_, ?_, ?_, ?_, ?_, ?_, ?_⟩
  · rcases f.status with e | e <;> rw [e]
    · exact h.status
    · exact clearVbl_low _ h.status
  · rw [f.scanline]; exact h.scanline
  · rw [f.oam]; exact h.oam
  · rw [f.palette]; exact h.palette
  · rw [f.paletteCache]; exact h.paletteCache
  · rw [f.nt]; exact h.nt
  · rw [f.fb]; exact h.fb
  · rw [f.info]; exact h.info

theorem Inv.readFrame {s t : State} (h : Inv s) (f : ReadFrame s t) (hc : t.cart.wf = true) : Inv t :=
  ⟨by rw [f.p]; exact h.held, by rw [f.ram]; exact h.ram, h.ppu.readFrame f, hc, by rw [f.phase]; exact h.phase,
    by rw [f.inputs]; exact h.inputs, by rw [f.faulted]; exact h.faulted⟩

theorem Inv.read8 {s : State} (h : Inv s) (a : Word) : Inv (read8 a s).2 :=
  h.readFrame (read8_frame a s) (read8_cart_wf a h.cart)

theorem Inv.readPair {s : State} (h : Inv s) (lo hi : Word) : Inv (readPair lo hi s).2 := (h.read8 lo).read8 hi

theorem Inv.read16 {s : State} (h : Inv s) (a : Word) : Inv (read16 a s).2 := h.readPair _ _

/-! ## Updates of registers -/

/-- The invariant does not look at A, X, Y, SP, PC, the cycle count, the device or the parameters, and of P at the held
bits alone. -/
theorem Inv.congr {s t : State} (h : Inv s) (hp : heldBits t.p = heldBits s.p) (hr : t.ram = s.ram)
    (hq : t.ppu = s.ppu) (hc : t.cart = s.cart) (hf : t.phase = s.phase) (hi : t.inputs = s.inputs)
    (hb : t.faulted = s.faulted) : Inv t :=
  ⟨hp.trans h.held, by rw [hr]; exact h.ram, by rw [hq]; exact h.ppu, by rw [hc]; exact h.cart,
    by rw [hf]; exact h.phase, by rw [hi]; exact h.inputs, by rw [hb]; exact h.faulted⟩

theorem Inv.charge {s : State} (h : Inv s) (n : Nat) : Inv (charge n s) := h.congr rfl rfl rfl rfl rfl rfl rfl

theorem Inv.setFlagOf {s : State} (h : Inv s) (f : Flag) (b : Bool) : Inv (setFlagOf f b s) :=
  h.congr (heldBits_setFlag _ _ _) rfl rfl rfl rfl rfl rfl

/-! ## Writes -/

theorem PpuInv.ctrl0Write {p : Ppu} (h : PpuInv p) (d : Byte) : PpuInv (ctrl0Write d p) :=
  ⟨h.status, h.scanline, h.oam, h.palette, h.paletteCache, h.nt, h.fb, h.info⟩

theorem PpuInv.ctrl1Write {p : Ppu} (h : PpuInv p) (d : Byte) : PpuInv (ctrl1Write d p) :=
  ⟨h.status, h.scanline, h.oam, h.palette, h.paletteCache, h.nt, h.fb, h.info⟩

theorem PpuInv.oamAddrWrite {p : Ppu} (h : PpuInv p) (d : Byte) : PpuInv (oamAddrWrite d p) :=
  ⟨h.status, h.scanline, h.oam, h.palette, h.paletteCache, h.nt, h.fb, h.info⟩

theorem PpuInv.oamDataWrite {p : Ppu} (h : PpuInv p) (d : Byte) : PpuInv (oamDataWrite d p) :=
  ⟨h.status, h.scanline, SparseMap.wf_set h.oam p.oamaddr.isLt, h.palette, h.paletteCache, h.nt, h.fb, h.info⟩

theorem PpuInv.scrollWrite {p : Ppu} (h : PpuInv p) (d : Byte) : PpuInv (scrollWrite d p) := by
  unfold Machine.scrollWrite
  split <;> exact ⟨h.status, h.scanline, h.oam, h.palette, h.paletteCache, h.nt, h.fb, h.info⟩

theorem PpuInv.addrWrite {p : Ppu} (h : PpuInv p) (d : Byte) : PpuInv (addrWrite d p) := by
  unfold Machine.addrWrite
  split <;> exact ⟨h.status, h.scanline, h.oam, h.palette, h.paletteCache, h.nt, h.fb, h.info⟩

theorem PpuInv.bumpV {p : Ppu} (h : PpuInv p) : PpuInv p.bumpV :=
  ⟨h.status, h.scanline, h.oam, h.palette, h.paletteCache, h.nt, h.fb, h.info⟩

/-- A change of the PPU and of the cartridge alone that keeps both well-formed keeps the invariant. -/
theorem Inv.withPpuCart {s t : State} (h : Inv s) (hq : PpuInv t.ppu) (hc : t.cart.wf = true)
    (he : t = { s with ppu := t.ppu, cart := t.cart }) : Inv t := by
  rw [he]
  exact ⟨h.held, h.ram, hq, hc, h.phase, h.inputs, h.faulted⟩

theorem Inv.vramWrite {s : State} (h : Inv s) (a : PpuAddr) (d : Byte) : Inv (vramWrite a d s) := by
  unfold Machine.vramWrite
  split
  · exact h.withPpuCart h.ppu (cartChrWrite_wf h.cart ‹_› d) rfl
  · split
    · exact h.withPpuCart ⟨h.ppu.status, h.ppu.scanline, h.ppu.oam, h.ppu.palette, h.ppu.paletteCache,
        SparseMap.wf_set h.ppu.nt (ntKey_lt _ _), h.ppu.fb, h.ppu.info⟩ h.cart rfl
    · exact h.withPpuCart ⟨h.ppu.status, h.ppu.scanline, h.ppu.oam, SparseMap.wf_set h.ppu.palette (palIndex_lt _),
        h.ppu.paletteCache, h.ppu.nt, h.ppu.fb, h.ppu.info⟩ h.cart rfl

theorem Inv.ppuRegWrite {s : State} (h : Inv s) (a : Word) (d : Byte) : Inv (ppuRegWrite (ppuRegAddr a) d s) := by
  rcases ppuRegAddr_cases a with e | e | e | e | e | e | e | e <;> rw [e]
  · exact h.withPpuCart (h.ppu.ctrl0Write d) h.cart rfl
  · exact h.withPpuCart (h.ppu.ctrl1Write d) h.cart rfl
  · exact h
  · exact h.withPpuCart (h.ppu.oamAddrWrite d) h.cart rfl
  · exact h.withPpuCart (h.ppu.oamDataWrite d) h.cart rfl
  · exact h.withPpuCart (h.ppu.scrollWrite d) h.cart rfl
  · exact h.withPpuCart (h.ppu.addrWrite d) h.cart rfl
  · have k := h.vramWrite (vramAddr s.ppu.v) d
    exact k.withPpuCart k.ppu.bumpV k.cart rfl

theorem Inv.oamWrite {s : State} (h : Inv s) {i : Nat} (hi : i < 256) (v : Byte) : Inv (oamWrite i v s) :=
  h.withPpuCart ⟨h.ppu.status, h.ppu.scanline, SparseMap.wf_set h.ppu.oam hi, h.ppu.palette, h.ppu.paletteCache,
    h.ppu.nt, h.ppu.fb, h.ppu.info⟩ h.cart rfl

theorem Inv.dmaCopy {s : State} (h : Inv s) (base : Word) : Inv (dmaCopy base s) := by
  have key : ∀ (l : List Nat) (s : State), (∀ i ∈ l, i < 256) → Inv s → Inv (l.foldl (dmaByte base) s) := by
    intro l
    induction l with
    | nil => exact fun _ _ h => h
    | cons i l ih =>
      intro s hl h
      exact ih _ (fun j hj => hl j (List.mem_cons_of_mem _ hj))
        ((h.read8 _).oamWrite (hl i List.mem_cons_self) _)
  exact key _ s (fun i hi => List.mem_range.mp hi) h

theorem Inv.ramWrite {s : State} (h : Inv s) (a : Word) (v : Byte) : Inv (ramWrite a v s) :=
  ⟨h.held, SparseMap.wf_set h.ram (ramKey_lt a), h.ppu, h.cart, h.phase, h.inputs, h.faulted⟩

theorem Inv.write8 {s : State} (h : Inv s) (a : Word) (v : Byte) : Inv (write8 a v s) := by
  unfold Machine.write8
  split
  · exact h.ramWrite a v
  · split
    · exact h.ppuRegWrite a v
    · split
      · exact (h.dmaCopy _).charge 512
      · split
        · unfold extWrite
          split
          · exact h
          · exact h.congr rfl rfl rfl rfl rfl rfl rfl
        · split
          · exact h
          · exact h.withPpuCart (by unfold cartCpuWrite; split <;> exact h.ppu) (cartCpuWrite_cart_wf a v h.cart)
              (by unfold cartCpuWrite; split <;> rfl)

/-! ## The stack and the interrupts -/

theorem Inv.push8 {s : State} (h : Inv s) (b : Byte) : Inv (push8 b s) :=
  (h.write8 (stackAddr s.sp) b).congr rfl rfl rfl rfl rfl rfl rfl

theorem Inv.pull8 {s : State} (h : Inv s) : Inv (pull8 s).2 :=
  (h.congr (t := { s with sp := s.sp + 1 }) rfl rfl rfl rfl rfl rfl rfl).read8 _

theorem Inv.push16 {s : State} (h : Inv s) (w : Word) : Inv (push16 w s) := (h.push8 _).push8 _

theorem Inv.pull16 {s : State} (h : Inv s) : Inv (pull16 s).2 := h.pull8.pull8

theorem Inv.jumpVector {s : State} (h : Inv s) (v : Word) : Inv (jumpVector v s) :=
  (h.read16 v).congr rfl rfl rfl rfl rfl rfl rfl

theorem Inv.enterInterrupt {s : State} (h : Inv s) (w : Word) (b : Byte) (v : Word) : Inv (enterInterrupt w b v s) :=
  ((((h.push16 w).push8 b).setFlagOf .i true).jumpVector v)

theorem Inv.returnFromInterrupt {s : State} (h : Inv s) : Inv (returnFromInterrupt s) := by
  have h1 := h.pull8
  have h2 : Inv { (Machine.pull8 s).2 with p := pulledStatus (Machine.pull8 s).1 } :=
    ⟨heldBits_pulledStatus _, h1.ram, h1.ppu, h1.cart, h1.phase, h1.inputs, h1.faulted⟩
  exact h2.pull16.congr rfl rfl rfl rfl rfl rfl rfl

end Sys2Proof.Machine
end

