-- ==== Sys2Proof/Laws/PerInstr.lean ====
section
/-! SUPPORT. For every instruction as syntax (LAWS.json's family `Encoding`): its opcode byte calls for as many operand
bytes as it has, and the decoder's table gives the instruction back from them (30_encoding R56, R58, R61, R64). -/

namespace Sys2Proof.Laws.Encoding

/-- What holds of an instruction's encoding. -/
def Statement (i : Instr) : Prop :=
  i.wf = true → operandCount i.opcode = i.operands.length ∧
    decodeOp i.opcode (i.operands.getD 0 0) (i.operands.getD 1 0) = i

/-- An address is the two bytes it is written as. -/
theorem word_bytes (w : Word) : ∃ hi lo, w = mkWord hi lo := ⟨hiByte w, loByte w, by simp⟩

theorem lda (m : AluMode) : Statement (.lda m) := by
  intro _
  cases m with
  | imm b => exact ⟨rfl, rfl⟩
  | zp b => exact ⟨rfl, rfl⟩
  | zpx b => exact ⟨rfl, rfl⟩
  | abs w =>
    obtain ⟨hi, lo, rfl⟩ := word_bytes w
    simp only [Instr.operands, AluMode.src, SrcForm.bytes, MemForm.bytes, loByte_mkWord, hiByte_mkWord]
    exact ⟨rfl, rfl⟩
  | absx w =>
    obtain ⟨hi, lo, rfl⟩ := word_bytes w
    simp only [Instr.operands, AluMode.src, SrcForm.bytes, MemForm.bytes, loByte_mkWord, hiByte_mkWord]
    exact ⟨rfl, rfl⟩
  | absy w =>
    obtain ⟨hi, lo, rfl⟩ := word_bytes w
    simp only [Instr.operands, AluMode.src, SrcForm.bytes, MemForm.bytes, loByte_mkWord, hiByte_mkWord]
    exact ⟨rfl, rfl⟩
  | indx b => exact ⟨rfl, rfl⟩
  | indy b => exact ⟨rfl, rfl⟩

theorem ldx (m : LdxMode) : Statement (.ldx m) := by
  intro _
  cases m with
  | imm b => exact ⟨rfl, rfl⟩
  | zp b => exact ⟨rfl, rfl⟩
  | zpy b => exact ⟨rfl, rfl⟩
  | abs w =>
    obtain ⟨hi, lo, rfl⟩ := word_bytes w
    simp only [Instr.operands, LdxMode.src, SrcForm.bytes, MemForm.bytes, loByte_mkWord, hiByte_mkWord]
    exact ⟨rfl, rfl⟩
  | absy w =>
    obtain ⟨hi, lo, rfl⟩ := word_bytes w
    simp only [Instr.operands, LdxMode.src, SrcForm.bytes, MemForm.bytes, loByte_mkWord, hiByte_mkWord]
    exact ⟨rfl, rfl⟩

theorem ldy (m : LdyMode) : Statement (.ldy m) := by
  intro _
  cases m with
  | imm b => exact ⟨rfl, rfl⟩
  | zp b => exact ⟨rfl, rfl⟩
  | zpx b => exact ⟨rfl, rfl⟩
  | abs w =>
    obtain ⟨hi, lo, rfl⟩ := word_bytes w
    simp only [Instr.operands, LdyMode.src, SrcForm.bytes, MemForm.bytes, loByte_mkWord, hiByte_mkWord]
    exact ⟨rfl, rfl⟩
  | absx w =>
    obtain ⟨hi, lo, rfl⟩ := word_bytes w
    simp only [Instr.operands, LdyMode.src, SrcForm.bytes, MemForm.bytes, loByte_mkWord, hiByte_mkWord]
    exact ⟨rfl, rfl⟩

theorem sta (m : StaMode) : Statement (.sta m) := by
  intro _
  cases m with
  | zp b => exact ⟨rfl, rfl⟩
  | zpx b => exact ⟨rfl, rfl⟩
  | abs w =>
    obtain ⟨hi, lo, rfl⟩ := word_bytes w
    simp only [Instr.operands, StaMode.mem, MemForm.bytes, loByte_mkWord, hiByte_mkWord]
    exact ⟨rfl, rfl⟩
  | absx w =>
    obtain ⟨hi, lo, rfl⟩ := word_bytes w
    simp only [Instr.operands, StaMode.mem, MemForm.bytes, loByte_mkWord, hiByte_mkWord]
    exact ⟨rfl, rfl⟩
  | absy w =>
    obtain ⟨hi, lo, rfl⟩ := word_bytes w
    simp only [Instr.operands, StaMode.mem, MemForm.bytes, loByte_mkWord, hiByte_mkWord]
    exact ⟨rfl, rfl⟩
  | indx b => exact ⟨rfl, rfl⟩
  | indy b => exact ⟨rfl, rfl⟩

theorem stx (m : StxMode) : Statement (.stx m) := by
  intro _
  cases m with
  | zp b => exact ⟨rfl, rfl⟩
  | zpy b => exact ⟨rfl, rfl⟩
  | abs w =>
    obtain ⟨hi, lo, rfl⟩ := word_bytes w
    simp only [Instr.operands, StxMode.mem, MemForm.bytes, loByte_mkWord, hiByte_mkWord]
    exact ⟨rfl, rfl⟩

theorem sty (m : StyMode) : Statement (.sty m) := by
  intro _
  cases m with
  | zp b => exact ⟨rfl, rfl⟩
  | zpx b => exact ⟨rfl, rfl⟩
  | abs w =>
    obtain ⟨hi, lo, rfl⟩ := word_bytes w
    simp only [Instr.operands, StyMode.mem, MemForm.bytes, loByte_mkWord, hiByte_mkWord]
    exact ⟨rfl, rfl⟩

theorem tax : Statement .tax := fun _ => ⟨rfl, rfl⟩

theorem tay : Statement .tay := fun _ => ⟨rfl, rfl⟩

theorem tsx : Statement .tsx := fun _ => ⟨rfl, rfl⟩

theorem txa : Statement .txa := fun _ => ⟨rfl, rfl⟩

theorem txs : Statement .txs := fun _ => ⟨rfl, rfl⟩

theorem tya : Statement .tya := fun _ => ⟨rfl, rfl⟩

theorem adc (m : AluMode) : Statement (.adc m) := by
  intro _
  cases m with
  | imm b => exact ⟨rfl, rfl⟩
  | zp b => exact ⟨rfl, rfl⟩
  | zpx b => exact ⟨rfl, rfl⟩
  | abs w =>
    obtain ⟨hi, lo, rfl⟩ := word_bytes w
    simp only [Instr.operands, AluMode.src, SrcForm.bytes, MemForm.bytes, loByte_mkWord, hiByte_mkWord]
    exact ⟨rfl, rfl⟩
  | absx w =>
    obtain ⟨hi, lo, rfl⟩ := word_bytes w
    simp only [Instr.operands, AluMode.src, SrcForm.bytes, MemForm.bytes, loByte_mkWord, hiByte_mkWord]
    exact ⟨rfl, rfl⟩
  | absy w =>
    obtain ⟨hi, lo, rfl⟩ := word_bytes w
    simp only [Instr.operands, AluMode.src, SrcForm.bytes, MemForm.bytes, loByte_mkWord, hiByte_mkWord]
    exact ⟨rfl, rfl⟩
  | indx b => exact ⟨rfl, rfl⟩
  | indy b => exact ⟨rfl, rfl⟩

theorem sbc (m : AluMode) : Statement (.sbc m) := by
  intro _
  cases m with
  | imm b => exact ⟨rfl, rfl⟩
  | zp b => exact ⟨rfl, rfl⟩
  | zpx b => exact ⟨rfl, rfl⟩
  | abs w =>
    obtain ⟨hi, lo, rfl⟩ := word_bytes w
    simp only [Instr.operands, AluMode.src, SrcForm.bytes, MemForm.bytes, loByte_mkWord, hiByte_mkWord]
    exact ⟨rfl, rfl⟩
  | absx w =>
    obtain ⟨hi, lo, rfl⟩ := word_bytes w
    simp only [Instr.operands, AluMode.src, SrcForm.bytes, MemForm.bytes, loByte_mkWord, hiByte_mkWord]
    exact ⟨rfl, rfl⟩
  | absy w =>
    obtain ⟨hi, lo, rfl⟩ := word_bytes w
    simp only [Instr.operands, AluMode.src, SrcForm.bytes, MemForm.bytes, loByte_mkWord, hiByte_mkWord]
    exact ⟨rfl, rfl⟩
  | indx b => exact ⟨rfl, rfl⟩
  | indy b => exact ⟨rfl, rfl⟩

theorem and (m : AluMode) : Statement (.and m) := by
  intro _
  cases m with
  | imm b => exact ⟨rfl, rfl⟩
  | zp b => exact ⟨rfl, rfl⟩
  | zpx b => exact ⟨rfl, rfl⟩
  | abs w =>
    obtain ⟨hi, lo, rfl⟩ := word_bytes w
    simp only [Instr.operands, AluMode.src, SrcForm.bytes, MemForm.bytes, loByte_mkWord, hiByte_mkWord]
    exact ⟨rfl, rfl⟩
  | absx w =>
    obtain ⟨hi, lo, rfl⟩ := word_bytes w
    simp only [Instr.operands, AluMode.src, SrcForm.bytes, MemForm.bytes, loByte_mkWord, hiByte_mkWord]
    exact ⟨rfl, rfl⟩
  | absy w =>
    obtain ⟨hi, lo, rfl⟩ := word_bytes w
    simp only [Instr.operands, AluMode.src, SrcForm.bytes, MemForm.bytes, loByte_mkWord, hiByte_mkWord]
    exact ⟨rfl, rfl⟩
  | indx b => exact ⟨rfl, rfl⟩
  | indy b => exact ⟨rfl, rfl⟩

theorem ora (m : AluMode) : Statement (.ora m) := by
  intro _
  cases m with
  | imm b => exact ⟨rfl, rfl⟩
  | zp b => exact ⟨rfl, rfl⟩
  | zpx b => exact ⟨rfl, rfl⟩
  | abs w =>
    obtain ⟨hi, lo, rfl⟩ := word_bytes w
    simp only [Instr.operands, AluMode.src, SrcForm.bytes, MemForm.bytes, loByte_mkWord, hiByte_mkWord]
    exact ⟨rfl, rfl⟩
  | absx w =>
    obtain ⟨hi, lo, rfl⟩ := word_bytes w
    simp only [Instr.operands, AluMode.src, SrcForm.bytes, MemForm.bytes, loByte_mkWord, hiByte_mkWord]
    exact ⟨rfl, rfl⟩
  | absy w =>
    obtain ⟨hi, lo, rfl⟩ := word_bytes w
    simp only [Instr.operands, AluMode.src, SrcForm.bytes, MemForm.bytes, loByte_mkWord, hiByte_mkWord]
    exact ⟨rfl, rfl⟩
  | indx b => exact ⟨rfl, rfl⟩
  | indy b => exact ⟨rfl, rfl⟩

theorem eor (m : AluMode) : Statement (.eor m) := by
  intro _
  cases m with
  | imm b => exact ⟨rfl, rfl⟩
  | zp b => exact ⟨rfl, rfl⟩
  | zpx b => exact ⟨rfl, rfl⟩
  | abs w =>
    obtain ⟨hi, lo, rfl⟩ := word_bytes w
    simp only [Instr.operands, AluMode.src, SrcForm.bytes, MemForm.bytes, loByte_mkWord, hiByte_mkWord]
    exact ⟨rfl, rfl⟩
  | absx w =>
    obtain ⟨hi, lo, rfl⟩ := word_bytes w
    simp only [Instr.operands, AluMode.src, SrcForm.bytes, MemForm.bytes, loByte_mkWord, hiByte_mkWord]
    exact ⟨rfl, rfl⟩
  | absy w =>
    obtain ⟨hi, lo, rfl⟩ := word_bytes w
    simp only [Instr.operands, AluMode.src, SrcForm.bytes, MemForm.bytes, loByte_mkWord, hiByte_mkWord]
    exact ⟨rfl, rfl⟩
  | indx b => exact ⟨rfl, rfl⟩
  | indy b => exact ⟨rfl, rfl⟩

theorem cmp (m : AluMode) : Statement (.cmp m) := by
  intro _
  cases m with
  | imm b => exact ⟨rfl, rfl⟩
  | zp b => exact ⟨rfl, rfl⟩
  | zpx b => exact ⟨rfl, rfl⟩
  | abs w =>
    obtain ⟨hi, lo, rfl⟩ := word_bytes w
    simp only [Instr.operands, AluMode.src, SrcForm.bytes, MemForm.bytes, loByte_mkWord, hiByte_mkWord]
    exact ⟨rfl, rfl⟩
  | absx w =>
    obtain ⟨hi, lo, rfl⟩ := word_bytes w
    simp only [Instr.operands, AluMode.src, SrcForm.bytes, MemForm.bytes, loByte_mkWord, hiByte_mkWord]
    exact ⟨rfl, rfl⟩
  | absy w =>
    obtain ⟨hi, lo, rfl⟩ := word_bytes w
    simp only [Instr.operands, AluMode.src, SrcForm.bytes, MemForm.bytes, loByte_mkWord, hiByte_mkWord]
    exact ⟨rfl, rfl⟩
  | indx b => exact ⟨rfl, rfl⟩
  | indy b => exact ⟨rfl, rfl⟩

theorem cpx (m : CpMode) : Statement (.cpx m) := by
  intro _
  cases m with
  | imm b => exact ⟨rfl, rfl⟩
  | zp b => exact ⟨rfl, rfl⟩
  | abs w =>
    obtain ⟨hi, lo, rfl⟩ := word_bytes w
    simp only [Instr.operands, CpMode.src, SrcForm.bytes, MemForm.bytes, loByte_mkWord, hiByte_mkWord]
    exact ⟨rfl, rfl⟩

theorem cpy (m : CpMode) : Statement (.cpy m) := by
  intro _
  cases m with
  | imm b => exact ⟨rfl, rfl⟩
  | zp b => exact ⟨rfl, rfl⟩
  | abs w =>
    obtain ⟨hi, lo, rfl⟩ := word_bytes w
    simp only [Instr.operands, CpMode.src, SrcForm.bytes, MemForm.bytes, loByte_mkWord, hiByte_mkWord]
    exact ⟨rfl, rfl⟩

theorem bit (m : BitMode) : Statement (.bit m) := by
  intro _
  cases m with
  | zp b => exact ⟨rfl, rfl⟩
  | abs w =>
    obtain ⟨hi, lo, rfl⟩ := word_bytes w
    simp only [Instr.operands, BitMode.src, SrcForm.bytes, MemForm.bytes, loByte_mkWord, hiByte_mkWord]
    exact ⟨rfl, rfl⟩

theorem inc (m : IncMode) : Statement (.inc m) := by
  intro _
  cases m with
  | zp b => exact ⟨rfl, rfl⟩
  | zpx b => exact ⟨rfl, rfl⟩
  | abs w =>
    obtain ⟨hi, lo, rfl⟩ := word_bytes w
    simp only [Instr.operands, IncMode.mem, MemForm.bytes, loByte_mkWord, hiByte_mkWord]
    exact ⟨rfl, rfl⟩
  | absx w =>
    obtain ⟨hi, lo, rfl⟩ := word_bytes w
    simp only [Instr.operands, IncMode.mem, MemForm.bytes, loByte_mkWord, hiByte_mkWord]
    exact ⟨rfl, rfl⟩

theorem dec (m : IncMode) : Statement (.dec m) := by
  intro _
  cases m with
  | zp b => exact ⟨rfl, rfl⟩
  | zpx b => exact ⟨rfl, rfl⟩
  | abs w =>
    obtain ⟨hi, lo, rfl⟩ := word_bytes w
    simp only [Instr.operands, IncMode.mem, MemForm.bytes, loByte_mkWord, hiByte_mkWord]
    exact ⟨rfl, rfl⟩
  | absx w =>
    obtain ⟨hi, lo, rfl⟩ := word_bytes w
    simp only [Instr.operands, IncMode.mem, MemForm.bytes, loByte_mkWord, hiByte_mkWord]
    exact ⟨rfl, rfl⟩

theorem inx : Statement .inx := fun _ => ⟨rfl, rfl⟩

theorem iny : Statement .iny := fun _ => ⟨rfl, rfl⟩

theorem dex : Statement .dex := fun _ => ⟨rfl, rfl⟩

theorem dey : Statement .dey := fun _ => ⟨rfl, rfl⟩

theorem asl (m : ShiftMode) : Statement (.asl m) := by
  intro _
  cases m with
  | acc => exact ⟨rfl, rfl⟩
  | zp b => exact ⟨rfl, rfl⟩
  | zpx b => exact ⟨rfl, rfl⟩
  | abs w =>
    obtain ⟨hi, lo, rfl⟩ := word_bytes w
    simp only [Instr.operands, ShiftMode.rmw, RmwForm.bytes, MemForm.bytes, loByte_mkWord, hiByte_mkWord]
    exact ⟨rfl, rfl⟩
  | absx w =>
    obtain ⟨hi, lo, rfl⟩ := word_bytes w
    simp only [Instr.operands, ShiftMode.rmw, RmwForm.bytes, MemForm.bytes, loByte_mkWord, hiByte_mkWord]
    exact ⟨rfl, rfl⟩

theorem lsr (m : ShiftMode) : Statement (.lsr m) := by
  intro _
  cases m with
  | acc => exact ⟨rfl, rfl⟩
  | zp b => exact ⟨rfl, rfl⟩
  | zpx b => exact ⟨rfl, rfl⟩
  | abs w =>
    obtain ⟨hi, lo, rfl⟩ := word_bytes w
    simp only [Instr.operands, ShiftMode.rmw, RmwForm.bytes, MemForm.bytes, loByte_mkWord, hiByte_mkWord]
    exact ⟨rfl, rfl⟩
  | absx w =>
    obtain ⟨hi, lo, rfl⟩ := word_bytes w
    simp only [Instr.operands, ShiftMode.rmw, RmwForm.bytes, MemForm.bytes, loByte_mkWord, hiByte_mkWord]
    exact ⟨rfl, rfl⟩

theorem rol (m : ShiftMode) : Statement (.rol m) := by
  intro _
  cases m with
  | acc => exact ⟨rfl, rfl⟩
  | zp b => exact ⟨rfl, rfl⟩
  | zpx b => exact ⟨rfl, rfl⟩
  | abs w =>
    obtain ⟨hi, lo, rfl⟩ := word_bytes w
    simp only [Instr.operands, ShiftMode.rmw, RmwForm.bytes, MemForm.bytes, loByte_mkWord, hiByte_mkWord]
    exact ⟨rfl, rfl⟩
  | absx w =>
    obtain ⟨hi, lo, rfl⟩ := word_bytes w
    simp only [Instr.operands, ShiftMode.rmw, RmwForm.bytes, MemForm.bytes, loByte_mkWord, hiByte_mkWord]
    exact ⟨rfl, rfl⟩

theorem ror (m : ShiftMode) : Statement (.ror m) := by
  intro _
  cases m with
  | acc => exact ⟨rfl, rfl⟩
  | zp b => exact ⟨rfl, rfl⟩
  | zpx b => exact ⟨rfl, rfl⟩
  | abs w =>
    obtain ⟨hi, lo, rfl⟩ := word_bytes w
    simp only [Instr.operands, ShiftMode.rmw, RmwForm.bytes, MemForm.bytes, loByte_mkWord, hiByte_mkWord]
    exact ⟨rfl, rfl⟩
  | absx w =>
    obtain ⟨hi, lo, rfl⟩ := word_bytes w
    simp only [Instr.operands, ShiftMode.rmw, RmwForm.bytes, MemForm.bytes, loByte_mkWord, hiByte_mkWord]
    exact ⟨rfl, rfl⟩

theorem jmp (m : JmpMode) : Statement (.jmp m) := by
  intro _
  cases m with
  | abs w =>
    obtain ⟨hi, lo, rfl⟩ := word_bytes w
    simp only [Instr.operands, JmpMode.bytes, loByte_mkWord, hiByte_mkWord]
    exact ⟨rfl, rfl⟩
  | ind w =>
    obtain ⟨hi, lo, rfl⟩ := word_bytes w
    simp only [Instr.operands, JmpMode.bytes, loByte_mkWord, hiByte_mkWord]
    exact ⟨rfl, rfl⟩

theorem jsr (w : Word) : Statement (.jsr w) := by
  intro _
  obtain ⟨hi, lo, rfl⟩ := word_bytes w
  simp only [Instr.operands, loByte_mkWord, hiByte_mkWord]
  exact ⟨rfl, rfl⟩

theorem rts : Statement .rts := fun _ => ⟨rfl, rfl⟩

theorem rti : Statement .rti := fun _ => ⟨rfl, rfl⟩

theorem bcc (off : Byte) : Statement (.bcc off) := fun _ => ⟨rfl, rfl⟩

theorem bcs (off : Byte) : Statement (.bcs off) := fun _ => ⟨rfl, rfl⟩

theorem beq (off : Byte) : Statement (.beq off) := fun _ => ⟨rfl, rfl⟩

theorem bmi (off : Byte) : Statement (.bmi off) := fun _ => ⟨rfl, rfl⟩

theorem bne (off : Byte) : Statement (.bne off) := fun _ => ⟨rfl, rfl⟩

theorem bpl (off : Byte) : Statement (.bpl off) := fun _ => ⟨rfl, rfl⟩

theorem bvc (off : Byte) : Statement (.bvc off) := fun _ => ⟨rfl, rfl⟩

theorem bvs (off : Byte) : Statement (.bvs off) := fun _ => ⟨rfl, rfl⟩

theorem brk : Statement .brk := fun _ => ⟨rfl, rfl⟩

theorem pha : Statement .pha := fun _ => ⟨rfl, rfl⟩

theorem php : Statement .php := fun _ => ⟨rfl, rfl⟩

theorem pla : Statement .pla := fun _ => ⟨rfl, rfl⟩

theorem plp : Statement .plp := fun _ => ⟨rfl, rfl⟩

theorem clc : Statement .clc := fun _ => ⟨rfl, rfl⟩

theorem cld : Statement .cld := fun _ => ⟨rfl, rfl⟩

theorem cli : Statement .cli := fun _ => ⟨rfl, rfl⟩

theorem clv : Statement .clv := fun _ => ⟨rfl, rfl⟩

theorem sec : Statement .sec := fun _ => ⟨rfl, rfl⟩

theorem sed : Statement .sed := fun _ => ⟨rfl, rfl⟩

theorem sei : Statement .sei := fun _ => ⟨rfl, rfl⟩

theorem nop : Statement .nop := fun _ => ⟨rfl, rfl⟩

theorem unknown (op : Byte) : Statement (.unknown op) := fun h =>
  have hm : op ∈ unknownOpcodes := by simpa [Instr.wf] using h
  ⟨by
    have e := opRow_isNone_iff op
    rw [List.contains_iff_mem.mpr hm, Option.isNone_iff_eq_none] at e
    simp [Instr.opcode, operandCount, e, Instr.operands], decodeOp_unknown hm _ _⟩

end Sys2Proof.Laws.Encoding
end

