-- ==== Sys2Proof/Laws/Render.lean ====
section
/-! SUPPORT. The scanline renderers: a line has 256 dots, each of alpha 255 and with an info byte of two bits, and
drawing it keeps the invariant (10_state R34, 61_ppu_oam R186 to R194); what the sprites do, column by column (R188 to
R192). -/

namespace Sys2Proof.Machine

/-- What holds of every dot of a line (R34): alpha 255, and bits 7..2 of the info byte 0. -/
def Dot.ok (d : Dot) : Prop := d.px.a = 0xFF ∧ d.info &&& 0xFC = 0

@[simp] theorem colorOf_a (s : State) (i : Nat) : (colorOf s i).a = 0xFF := rfl

theorem blankDot_ok (s : State) : (blankDot s).ok :=
  ⟨rfl, show (0 : Byte) &&& 0xFC = 0 by decide⟩

theorem bgDot_ok (s : State) (sx : Nat) (fx : BitVec 3) (v : BitVec 15) : (bgDot s sx fx v).ok := by
  unfold bgDot
  split
  · exact blankDot_ok s
  · split
    · exact blankDot_ok s
    · exact ⟨rfl, show (0x01 : Byte) &&& 0xFC = 0 by decide⟩

@[simp] theorem bgDots_length (s : State) (n sx : Nat) (fx : BitVec 3) (v : BitVec 15) :
    (bgDots s n sx fx v).length = n := by
  induction n generalizing sx fx v with
  | zero => rfl
  | succ n ih => simp [bgDots, ih]

theorem bgDots_ok (s : State) (n sx : Nat) (fx : BitVec 3) (v : BitVec 15) : ∀ d ∈ bgDots s n sx fx v, d.ok := by
  induction n generalizing sx fx v with
  | zero => intro d h; cases h
  | succ n ih =>
    intro d h
    rcases List.mem_cons.mp h with rfl | h
    · exact bgDot_ok ..
    · exact ih _ _ _ d h

theorem bgDots_getElem (s : State) (n sx : Nat) (fx : BitVec 3) (v : BitVec 15) (k : Nat)
    (h : k < (bgDots s n sx fx v).length) :
    (bgDots s n sx fx v)[k] = bgDot s (sx + k) (advanceXTimes k fx v).1 (advanceXTimes k fx v).2 := by
  induction n generalizing sx fx v k with
  | zero => simp [bgDots] at h
  | succ n ih =>
    cases k with
    | zero => rfl
    | succ k =>
      have := ih (sx + 1) (advanceX fx v).1 (advanceX fx v).2 k (by simpa using h)
      simpa [bgDots, advanceXTimes, Nat.add_assoc, Nat.add_comm 1 k] using this

/-- A line of a buffer is as it should be. -/
structure LineBuf.ok (b : LineBuf) : Prop where
  length : b.dots.length = 256
  dots : ∀ d ∈ b.dots, d.ok

theorem backgroundLine_length (s : State) (v : BitVec 15) : (backgroundLine s v).length = 256 := by
  unfold backgroundLine
  split
  · exact bgDots_length ..
  · exact List.length_replicate

theorem lineBackground_ok (s : State) : (lineBackground s).ok := by
  refine ⟨backgroundLine_length s _, ?_⟩
  intro d h
  simp only [lineBackground, backgroundLine] at h
  split at h
  · exact bgDots_ok _ _ _ _ _ d h
  · rw [(List.mem_replicate.mp h).2]; exact blankDot_ok s

theorem spriteDot_ok {d : Dot} (h : d.ok) {c : Pixel} (hc : c.a = 0xFF) (b : Bool) : (spriteDot c b d).ok := by
  refine ⟨?_, ?_⟩
  · simp only [spriteDot]
    split
    · exact h.1
    · exact hc
  · have := h.2
    simp only [spriteDot]
    generalize d.info = i at this ⊢
    revert i; decide

theorem spritePixel_ok (s : State) (i : Nat) (sp : Sprite) (t : TileRow) {b : LineBuf} (h : b.ok) (c : Nat) :
    (spritePixel s i sp t b c).ok := by
  unfold spritePixel
  simp only
  generalize (if sp.attr.getLsbD 6 = true then 7 - c else c) = col
  split
  · exact h
  · split
    · exact h
    · split
      · exact h
      · rename_i d hd
        split
        · exact h
        · refine ⟨by simpa using h.length, fun e he => ?_⟩
          rcases List.mem_or_eq_of_mem_set he with he | rfl
          · exact h.dots e he
          · exact spriteDot_ok (h.dots d (List.mem_of_getElem? hd)) rfl _

theorem drawSprite_ok (s : State) (i : Nat) (sp : Sprite) (row : Nat) {b : LineBuf} (h : b.ok) :
    (drawSprite s i sp row b).ok := by
  unfold drawSprite
  generalize List.range 8 = l
  induction l generalizing b with
  | nil => exact h
  | cons c l ih => exact ih (spritePixel_ok s i sp _ h c)

theorem renderSprites_ok (s : State) (line : Nat) {b : LineBuf} (h : b.ok) : (renderSprites s line b).2.ok := by
  have key : ∀ (l : List Nat) (q : Nat × LineBuf), q.2.ok → (l.foldl (evalSprite s line) q).2.ok := by
    intro l
    induction l with
    | nil => exact fun _ h => h
    | cons i l ih =>
      intro q h
      refine ih _ ?_
      unfold evalSprite
      split
      · exact h
      · simp only
        split
        · exact drawSprite_ok s i _ _ h
        · exact h
  exact key _ _ h

theorem lineSprites_ok (s : State) (line : Nat) : (lineSprites s line).1.ok := by
  unfold lineSprites
  split
  · exact renderSprites_ok s line (lineBackground_ok s)
  · exact lineBackground_ok s

theorem spriteStatus_low {st : Byte} (h : st &&& 0x1F = 0) (a b : Bool) : spriteStatus st a b &&& 0x1F = 0 := by
  revert h; cases a <;> cases b <;> revert st <;> decide

theorem drawScanline_ppuInv {s : State} (h : PpuInv s.ppu) {line : Nat} (hl : line < 240) :
    PpuInv (drawScanline line s).ppu := by
  have ok := lineSprites_ok s line
  refine ⟨spriteStatus_low h.status _ _, h.scanline, h.oam, h.palette, h.paletteCache, h.nt, ?_, ?_⟩
  · have hf := h.fb
    simp only [fbWf, Bool.and_eq_true, List.all_eq_true] at hf ⊢
    refine ⟨SparseMap.wf_set hf.1 hl, fun e he => ?_⟩
    rcases SparseMap.mem_set he with he | rfl
    · exact hf.2 e he
    · simp only [List.length_map, ok.length, decide_true, true_and]
      intro px hpx
      obtain ⟨d, hd, rfl⟩ := List.mem_map.mp hpx
      simpa using (ok.dots d hd).1
  · have hf := h.info
    simp only [infoWf, Bool.and_eq_true, List.all_eq_true] at hf ⊢
    refine ⟨SparseMap.wf_set hf.1 hl, fun e he => ?_⟩
    rcases SparseMap.mem_set he with he | rfl
    · exact hf.2 e he
    · simp only [List.length_map, ok.length, decide_true, true_and]
      intro b hb
      obtain ⟨d, hd, rfl⟩ := List.mem_map.mp hb
      simpa using (ok.dots d hd).2

theorem Inv.drawScanline {s : State} (h : Inv s) {line : Nat} (hl : line < 240) : Inv (drawScanline line s) :=
  h.withPpuCart (drawScanline_ppuInv h.ppu hl) h.cart rfl

theorem frameStart_low (b : Byte) (h : b &&& 0x1F = 0) : (b &&& 0x1F) &&& 0x1F = 0 := by
  revert b; decide

theorem Inv.frameStart {s : State} (h : Inv s) : Inv (frameStart s) :=
  h.withPpuCart ⟨frameStart_low _ h.ppu.status, h.ppu.scanline, h.ppu.oam, h.ppu.palette, h.ppu.palette, h.ppu.nt, rfl,
    rfl⟩ h.cart rfl

/-! ## The scroll state machine -/

/-- Eight advances come back to the same fine-x, with one step of coarse-x (R181). -/
theorem advanceXTimes_add (m n : Nat) (fx : BitVec 3) (v : BitVec 15) :
    advanceXTimes (m + n) fx v = advanceXTimes n (advanceXTimes m fx v).1 (advanceXTimes m fx v).2 := by
  induction m generalizing fx v with
  | zero => simp [advanceXTimes]
  | succ m ih => rw [Nat.succ_add]; exact ih _ _

/-! ## Sprites, column by column (R188 to R192) -/

/-- The value a sprite on one of its rows has at a column of the screen; 0 off it, clipped or transparent (R191). -/
def spriteValue (s : State) (sp : Sprite) (row k : Nat) : Byte :=
  if k < sp.x.toNat ∨ sp.x.toNat + 8 ≤ k ∨ (k < 8 ∧ s.ppu.ctrl1.getLsbD 2 = false) then 0
  else tilePixel s (spriteTile s sp row).base (spriteTile s sp row).tile (spriteTile s sp row).row
    (if sp.attr.getLsbD 6 then 7 - (k - sp.x.toNat) else k - sp.x.toNat)

/-- A dot after a sprite of value `p` there (R191). -/
def spriteOver (s : State) (sp : Sprite) (p : Byte) (d : Dot) : Dot :=
  if p = 0 ∨ d.info.getLsbD 1 = true then d
  else spriteDot (colorOf s (0x10 ||| ((sp.attr &&& 3) <<< 2) ||| p).toNat) (sp.attr.getLsbD 5) d

theorem map_spriteOver_zero (s : State) (sp : Sprite) (o : Option Dot) : o.map (spriteOver s sp 0) = o := by
  cases o <;> simp [spriteOver]

/-- The value of a sprite at its own column c. -/
theorem spriteValue_at (s : State) (sp : Sprite) (row : Nat) {c : Nat} (hc : c < 8) :
    spriteValue s sp row (sp.x.toNat + c) =
      if sp.x.toNat + c < 8 ∧ s.ppu.ctrl1.getLsbD 2 = false then 0
      else tilePixel s (spriteTile s sp row).base (spriteTile s sp row).tile (spriteTile s sp row).row
        (if sp.attr.getLsbD 6 then 7 - c else c) := by
  unfold spriteValue
  rw [show sp.x.toNat + c - sp.x.toNat = c by omega]
  by_cases hk : sp.x.toNat + c < 8 ∧ s.ppu.ctrl1.getLsbD 2 = false
  · rw [if_pos hk, if_pos (.inr (.inr hk))]
  · rw [if_neg hk, if_neg (by rintro (h | h | h) <;> first | omega | exact hk h)]

/-- One pixel of a sprite, seen from a column. -/
theorem spritePixel_dots (s : State) (i row : Nat) (sp : Sprite) (b : LineBuf) {c : Nat} (hc : c < 8) (k : Nat) :
    (spritePixel s i sp (spriteTile s sp row) b c).dots[k]? =
      if k = sp.x.toNat + c then b.dots[k]?.map (spriteOver s sp (spriteValue s sp row k)) else b.dots[k]? := by
  have hv := spriteValue_at s sp row hc
  unfold spritePixel
  simp only
  generalize tilePixel s (spriteTile s sp row).base (spriteTile s sp row).tile (spriteTile s sp row).row
    (if sp.attr.getLsbD 6 then 7 - c else c) = p at hv ⊢
  generalize sp.x.toNat + c = sx at hv ⊢
  by_cases hk : k = sx
  · subst hk
    rw [if_pos rfl, hv]
    split
    · exact (map_spriteOver_zero s sp _).symm
    · split
      · rename_i hp; rw [hp]; exact (map_spriteOver_zero s sp _).symm
      · rename_i hp
        cases hd : b.dots[k]? with
        | none => exact hd
        | some d =>
          simp only [Option.map_some, spriteOver, hp, false_or]
          split
          · exact hd
          · exact List.getElem?_set_self (List.getElem?_eq_some_iff.mp hd).1
  · rw [if_neg hk]
    split
    · rfl
    · split
      · rfl
      · split
        · rfl
        · split
          · rfl
          · exact List.getElem?_set_ne (fun h => hk h.symm)

/-- The first `n` columns of a sprite drawn, seen from a column of the screen. -/
theorem spriteColumns_dots (s : State) (i row : Nat) (sp : Sprite) (b : LineBuf) (k : Nat) {n : Nat} (hn : n ≤ 8) :
    ((List.range n).foldl (spritePixel s i sp (spriteTile s sp row)) b).dots[k]? =
      if sp.x.toNat ≤ k ∧ k < sp.x.toNat + n then b.dots[k]?.map (spriteOver s sp (spriteValue s sp row k))
      else b.dots[k]? := by
  induction n with
  | zero => rw [if_neg (by omega)]; rfl
  | succ n ih =>
    rw [List.range_succ, List.foldl_append, List.foldl_cons, List.foldl_nil, spritePixel_dots s i row sp _ hn,
      ih (by omega)]
    split
    · rw [if_neg (by omega), if_pos (by omega)]
    · split
      · rw [if_pos (by omega)]
      · rw [if_neg (by omega)]

/-- A drawn sprite, seen from a column. -/
theorem drawSprite_dots (s : State) (i row : Nat) (sp : Sprite) (b : LineBuf) (k : Nat) :
    (drawSprite s i sp row b).dots[k]? = b.dots[k]?.map (spriteOver s sp (spriteValue s sp row k)) := by
  rw [drawSprite, spriteColumns_dots s i row sp b k (Nat.le_refl 8)]
  split
  · rfl
  · have : spriteValue s sp row k = 0 := if_pos (by omega)
    rw [this, map_spriteOver_zero]

/-- A dot where a sprite of value `p` makes sprite 0 hit: not yet a sprite's, on an opaque background (R191, R192). -/
def hits (p : Byte) (d : Dot) : Prop := p ≠ 0 ∧ d.info.getLsbD 1 = false ∧ d.info.getLsbD 0 = true

/-- One pixel of a sprite, and the sprite-0 hit. -/
theorem spritePixel_s0 (s : State) (i row : Nat) (sp : Sprite) (b : LineBuf) {c : Nat} (hc : c < 8) :
    (spritePixel s i sp (spriteTile s sp row) b c).s0 = true ↔
      b.s0 = true ∨ (i = 0 ∧ ∃ d, b.dots[sp.x.toNat + c]? = some d ∧ hits (spriteValue s sp row (sp.x.toNat + c)) d) := by
  have hv := spriteValue_at s sp row hc
  unfold spritePixel hits
  simp only
  generalize spriteValue s sp row (sp.x.toNat + c) = q at hv ⊢
  generalize tilePixel s (spriteTile s sp row).base (spriteTile s sp row).tile (spriteTile s sp row).row
    (if sp.attr.getLsbD 6 then 7 - c else c) = p at hv ⊢
  generalize sp.x.toNat + c = sx at hv ⊢
  subst hv
  split
  · simp
  · split
    · simp_all
    · rename_i hp
      split
      · simp_all
      · rename_i d hd
        split
        · simp_all
        · simp_all

/-- A drawn sprite, and the sprite-0 hit. -/
theorem drawSprite_s0 (s : State) (i row : Nat) (sp : Sprite) (b : LineBuf) :
    (drawSprite s i sp row b).s0 = true ↔
      b.s0 = true ∨ (i = 0 ∧ ∃ k d, b.dots[k]? = some d ∧ hits (spriteValue s sp row k) d) := by
  have key : ∀ n, n ≤ 8 → (((List.range n).foldl (spritePixel s i sp (spriteTile s sp row)) b).s0 = true ↔
      b.s0 = true ∨ (i = 0 ∧ ∃ k d, k < sp.x.toNat + n ∧ b.dots[k]? = some d ∧ hits (spriteValue s sp row k) d)) := by
    intro n
    induction n with
    | zero =>
      intro _
      refine ⟨.inl, ?_⟩
      rintro (h | ⟨-, k, d, hk, -, h, -⟩)
      · exact h
      · exact absurd (if_pos (.inl (by omega))) h
    | succ n ih =>
      intro hn
      rw [List.range_succ, List.foldl_append, List.foldl_cons, List.foldl_nil, spritePixel_s0 s i row sp _ hn,
        ih (by omega), spriteColumns_dots s i row sp b _ (by omega), if_neg (by omega)]
      constructor
      · rintro ((h | ⟨hi, k, d, hk, h⟩) | ⟨hi, d, h⟩)
        · exact .inl h
        · exact .inr ⟨hi, k, d, by omega, h⟩
        · exact .inr ⟨hi, _, d, by omega, h⟩
      · rintro (h | ⟨hi, k, d, hk, h⟩)
        · exact .inl (.inl h)
        · by_cases e : k = sp.x.toNat + n
          · subst e; exact .inr ⟨hi, d, h⟩
          · exact .inl (.inr ⟨hi, k, d, by omega, h⟩)
  rw [drawSprite, key 8 (Nat.le_refl 8)]
  constructor
  · rintro (h | ⟨hi, k, d, -, h⟩)
    · exact .inl h
    · exact .inr ⟨hi, k, d, h⟩
  · rintro (h | ⟨hi, k, d, h⟩)
    · exact .inl h
    · refine .inr ⟨hi, k, d, ?_, h⟩
      by_contra hk
      exact h.2.1 (if_pos (.inr (.inl (by omega))))

/-! ## The sprites of a line -/

/-- The value of sprite i, in range on a line, at a column. -/
def spriteValueOn (s : State) (line i k : Nat) : Byte :=
  spriteValue s (spriteAt s i) (line - ((spriteAt s i).y.toNat + s.cfg.spriteYOffset)) k

/-- Sprite i drawn on a line it is in range of. -/
def drawOn (s : State) (line : Nat) (b : LineBuf) (i : Nat) : LineBuf :=
  drawSprite s i (spriteAt s i) (line - ((spriteAt s i).y.toNat + s.cfg.spriteYOffset)) b

theorem spriteRow_eq (s : State) (line i : Nat) :
    spriteRow s (spriteAt s i) line =
      if spriteInRange s line i = true then some (line - ((spriteAt s i).y.toNat + s.cfg.spriteYOffset)) else none := by
  simp only [spriteRow, spriteInRange, decide_eq_true_eq]
  rfl

theorem evalSprite_eq (s : State) (line : Nat) (q : Nat × LineBuf) (i : Nat) :
    evalSprite s line q i =
      if spriteInRange s line i = true then (q.1 + 1, if q.1 < 8 then drawOn s line q.2 i else q.2) else q := by
  rw [evalSprite, spriteRow_eq]
  by_cases h : spriteInRange s line i = true
  · rw [if_pos h, if_pos h]; rfl
  · rw [if_neg h, if_neg h]

/-- Sprite evaluation counts the sprites in range and draws the first eight, in index order (R188). -/
theorem renderSprites_eq (s : State) (line : Nat) (b : LineBuf) :
    renderSprites s line b =
      (((List.range 64).filter (spriteInRange s line)).length, (drawnSprites s line).foldl (drawOn s line) b) := by
  have key : ∀ (l : List Nat) (q : Nat × LineBuf), l.foldl (evalSprite s line) q =
      (q.1 + (l.filter (spriteInRange s line)).length,
        ((l.filter (spriteInRange s line)).take (8 - q.1)).foldl (drawOn s line) q.2) := by
    intro l
    induction l with
    | nil => intro q; simp
    | cons i l ih =>
      intro q
      rw [List.foldl_cons, ih, evalSprite_eq]
      by_cases h : spriteInRange s line i = true
      · rw [if_pos h, List.filter_cons_of_pos h]
        by_cases hq : q.1 < 8
        · rw [if_pos hq, show 8 - q.1 = (8 - (q.1 + 1)) + 1 by omega, List.take_succ_cons, List.foldl_cons,
            List.length_cons]
          congr 1
          dsimp only
          omega
        · rw [if_neg hq]
          dsimp only
          rw [show 8 - q.1 = 0 by omega, show 8 - (q.1 + 1) = 0 by omega, List.length_cons]
          congr 1
          omega
      · rw [if_neg h, List.filter_cons_of_neg h]
  rw [renderSprites, key]
  simp [drawnSprites]

/-- A dot after the sprites of a list: the first one that has a value there owns it (R191). -/
theorem spriteOver_fold (s : State) (v : Nat → Byte) (l : List Nat) (d : Dot) :
    l.foldl (fun d i => spriteOver s (spriteAt s i) (v i) d) d =
      if d.info.getLsbD 1 = true then d
      else
        match l.find? fun i => decide (v i ≠ 0) with
        | none => d
        | some i => spriteOver s (spriteAt s i) (v i) d := by
  induction l generalizing d with
  | nil => simp
  | cons i l ih =>
    rw [List.foldl_cons, ih]
    by_cases hd : d.info.getLsbD 1 = true
    · simp [spriteOver, hd]
    · by_cases hv : v i = 0
      · simp [spriteOver, hv]
      · have : (spriteOver s (spriteAt s i) (v i) d).info.getLsbD 1 = true := by
          rw [spriteOver, if_neg (not_or.mpr ⟨hv, hd⟩)]
          exact (BitVec.getLsbD_or ..).trans (Bool.or_true _)
        rw [if_pos this, if_neg hd, List.find?_cons, decide_eq_true hv]

/-- The sprites of a list drawn in order, seen from a column. -/
theorem drawOn_fold_dots (s : State) (line : Nat) (l : List Nat) (b : LineBuf) (k : Nat) :
    (l.foldl (drawOn s line) b).dots[k]? =
      b.dots[k]?.map fun d => l.foldl (fun d i => spriteOver s (spriteAt s i) (spriteValueOn s line i k) d) d := by
  induction l generalizing b with
  | nil => simp
  | cons i l ih =>
    rw [List.foldl_cons, ih, drawOn, drawSprite_dots, Option.map_map]
    rfl

/-- Sprites other than sprite 0 do not hit. -/
theorem drawOn_fold_s0 (s : State) (line : Nat) (l : List Nat) (h : 0 ∉ l) (b : LineBuf) :
    (l.foldl (drawOn s line) b).s0 = true ↔ b.s0 = true := by
  induction l generalizing b with
  | nil => rfl
  | cons i l ih =>
    rw [List.foldl_cons, ih (fun k => h (List.mem_cons_of_mem _ k)), drawOn, drawSprite_s0]
    exact ⟨fun k => k.resolve_right fun k => h (k.1 ▸ List.mem_cons_self), .inl⟩

/-- Where sprite 0 is drawn, it is drawn first. -/
theorem drawnSprites_zero (s : State) (line : Nat) :
    (0 ∉ drawnSprites s line) ∨ ∃ l, drawnSprites s line = 0 :: l ∧ 0 ∉ l := by
  have hr : List.range 64 = 0 :: (List.range 63).map Nat.succ := List.range_succ_eq_map
  have hz : ∀ n, 0 ∉ (((List.range 63).map Nat.succ).filter (spriteInRange s line)).take n := by
    intro n h
    have := (List.mem_filter.mp (List.mem_of_mem_take h)).1
    simp at this
  unfold drawnSprites
  rw [hr]
  by_cases h : spriteInRange s line 0 = true
  · rw [List.filter_cons_of_pos h, List.take_succ_cons]
    exact .inr ⟨_, rfl, hz 7⟩
  · rw [List.filter_cons_of_neg h]
    exact .inl (hz 8)

/-- The sprite-0 hit of a line (R192). -/
theorem drawnSprites_s0 (s : State) (line : Nat) (b : LineBuf) :
    ((drawnSprites s line).foldl (drawOn s line) b).s0 = true ↔
      b.s0 = true ∨ (0 ∈ drawnSprites s line ∧ ∃ k d, b.dots[k]? = some d ∧ hits (spriteValueOn s line 0 k) d) := by
  rcases drawnSprites_zero s line with h | ⟨l, e, h⟩
  · rw [drawOn_fold_s0 s line _ h]
    exact ⟨.inl, fun k => k.resolve_right fun k => h k.1⟩
  · rw [e, List.foldl_cons, drawOn_fold_s0 s line l h, drawOn, drawSprite_s0]
    exact ⟨fun k => k.imp_right fun k => ⟨List.mem_cons_self, k.2⟩, fun k => k.imp_right fun k => ⟨rfl, k.2⟩⟩

/-! ## The rules' numbers -/

theorem planeBit_toNat (b : Byte) (col : Nat) : (planeBit b col).toNat = b.toNat / 2 ^ (7 - col) % 2 := by
  rw [planeBit, BitVec.toNat_and, BitVec.toNat_ushiftRight, Nat.shiftRight_eq_div_pow]
  exact Nat.and_one_is_mod _

/-- A tile's pixel as a number (R183). -/
theorem tilePixel_toNat (s : State) (base : PpuAddr) (tile : Byte) (row col : Nat) :
    (tilePixel s base tile row col).toNat =
      (vramPeek s (base + BitVec.ofNat 14 (16 * tile.toNat + row))).toNat / 2 ^ (7 - col) % 2 +
        2 * ((vramPeek s (base + BitVec.ofNat 14 (16 * tile.toNat + 8 + row))).toNat / 2 ^ (7 - col) % 2) := by
  rw [← planeBit_toNat, ← planeBit_toNat]
  simp only [tilePixel]
  generalize hl : planeBit (vramPeek s (base + BitVec.ofNat 14 (16 * tile.toNat + row))) col = l
  generalize hh : planeBit (vramPeek s (base + BitVec.ofNat 14 (16 * tile.toNat + 8 + row))) col = h
  have l2 : l.toNat < 2 := by rw [← hl, planeBit_toNat]; omega
  have h2 : h.toNat < 2 := by rw [← hh, planeBit_toNat]; omega
  have el : l = 0 ∨ l = 1 := by
    rcases Nat.lt_succ_iff_lt_or_eq.mp l2 with k | k
    · exact .inl (BitVec.eq_of_toNat_eq (by simp; omega))
    · exact .inr (BitVec.eq_of_toNat_eq (by simp; omega))
  have eh : h = 0 ∨ h = 1 := by
    rcases Nat.lt_succ_iff_lt_or_eq.mp h2 with k | k
    · exact .inl (BitVec.eq_of_toNat_eq (by simp; omega))
    · exact .inr (BitVec.eq_of_toNat_eq (by simp; omega))
  rcases el with rfl | rfl <;> rcases eh with rfl | rfl <;> rfl

theorem patternBase_add (sel : Bool) (n : Nat) :
    patternBase sel + BitVec.ofNat 14 n = BitVec.ofNat 14 ((if sel then 0x1000 else 0x0000) + n) := by
  cases sel <;> simp [patternBase, BitVec.ofNat_add]

/-- Bits of a byte as divisions. -/
theorem byte_bits (b : Byte) :
    b.getLsbD 0 = decide (b.toNat % 2 = 1) ∧ b.getLsbD 5 = decide (b.toNat / 32 % 2 = 1) ∧
      b.getLsbD 6 = decide (b.toNat / 64 % 2 = 1) ∧ b.getLsbD 7 = decide (b.toNat / 128 = 1) := by
  revert b; decide

/-- The lower and upper tile of an 8x16 sprite (R190). -/
theorem tallTile_toNat (tile : Byte) {r : Nat} (h : r < 16) :
    ((tile &&& 0xFE) + (if 8 ≤ r then 1 else 0) : Byte).toNat = tile.toNat / 2 * 2 + r / 8 := by
  by_cases h8 : 8 ≤ r
  · rw [if_pos h8, show r / 8 = 1 by omega]; revert tile; decide
  · rw [if_neg h8, show r / 8 = 0 by omega]; revert tile; decide

/-- A pixel of a sprite's row, as the rules give it (R183, R190). -/
theorem spriteTile_pixel_toNat (s : State) (sp : Sprite) {row : Nat} (col : Nat)
    (h : row < if s.ppu.ctrl0.getLsbD 5 then 16 else 8) :
    (tilePixel s (spriteTile s sp row).base (spriteTile s sp row).tile (spriteTile s sp row).row col).toNat =
      (let tall := s.ppu.ctrl0.getLsbD 5
      let r := if sp.attr.toNat / 128 = 1 then (if tall then 16 else 8) - 1 - row else row
      let table := if (if tall then decide (sp.tile.toNat % 2 = 1) else s.ppu.ctrl0.getLsbD 3) then 0x1000 else 0x0000
      let n := if tall then sp.tile.toNat / 2 * 2 + r / 8 else sp.tile.toNat
      (vramPeek s (BitVec.ofNat 14 (table + 16 * n + r % 8))).toNat / 2 ^ (7 - col) % 2 +
        2 * ((vramPeek s (BitVec.ofNat 14 (table + 16 * n + 8 + r % 8))).toNat / 2 ^ (7 - col) % 2)) := by
  rw [tilePixel_toNat]
  have h7 := (byte_bits sp.attr).2.2.2
  have h0 := (byte_bits sp.tile).1
  cases ht : s.ppu.ctrl0.getLsbD 5 with
  | true =>
    simp only [ht, if_true] at h
    simp only [spriteTile, spriteHeight, ht, if_true, h7, h0, decide_eq_true_eq]
    generalize hr : (if sp.attr.toNat / 128 = 1 then 16 - 1 - row else row) = r
    have hr16 : r < 16 := by rw [← hr]; split <;> omega
    rw [tallTile_toNat sp.tile hr16, patternBase_add, patternBase_add]
    simp only [decide_eq_true_eq, Nat.add_assoc]
  | false =>
    simp only [ht, if_false, Bool.false_eq_true] at h
    simp only [spriteTile, spriteHeight, ht, if_false, Bool.false_eq_true, h7, decide_eq_true_eq]
    generalize hr : (if sp.attr.toNat / 128 = 1 then 8 - 1 - row else row) = r
    have hr8 : r % 8 = r := Nat.mod_eq_of_lt (by rw [← hr]; split <;> omega)
    rw [patternBase_add, patternBase_add, hr8]
    simp only [Nat.add_assoc]

/-- The value of a sprite in range, as the rules give it (R183, R189 to R191). -/
theorem spriteValueOn_toNat {s : State} {line i : Nat} (h : spriteInRange s line i = true) (k : Nat) :
    (spriteValueOn s line i k).toNat = spriteValueAt s line i k := by
  have h' := of_decide_eq_true h
  have hrow : line - ((spriteAt s i).y.toNat + s.cfg.spriteYOffset) < if s.ppu.ctrl0.getLsbD 5 then 16 else 8 := by
    have e : (spriteAt s i).y = s.ppu.oam.get (4 * i) := rfl
    rw [e]
    omega
  have h6 := (byte_bits (spriteAt s i).attr).2.2.1
  rw [spriteValueOn, spriteValue, apply_ite BitVec.toNat, spriteTile_pixel_toNat s _ _ hrow]
  simp only [h6, decide_eq_true_eq]
  rfl

/-! ## Reading a drawn line -/

/-- What the buffers hold at a column of a line just drawn. -/
theorem drawScanline_dot {s : State} (hf : fbWf s.ppu.fb = true) (hi : infoWf s.ppu.info = true) (line : Nat) {sx : Nat}
    {d : Dot} (h : (lineSprites s line).1.dots[sx]? = some d) :
    lastFrame (drawScanline line s) line sx = d.px ∧ infoAt (drawScanline line s) line sx = d.info := by
  simp only [fbWf, infoWf, Bool.and_eq_true] at hf hi
  simp only [lastFrame, infoAt, drawScanline]
  rw [SparseMap.get_set_self hf.1, SparseMap.get_set_self hi.1]
  simp [List.getD_eq_getElem?_getD, List.getElem?_map, h]

/-- The info byte of a background dot is 0 or 1 (R186, R187). -/
theorem lineBackground_info {s : State} {k : Nat} {d : Dot} (h : (lineBackground s).dots[k]? = some d) :
    d.info = 0 ∨ d.info = 1 := by
  have hm : d ∈ backgroundLine s (lineStartV s.ppu) := List.mem_of_getElem? h
  unfold backgroundLine at hm
  split at hm
  · obtain ⟨n, hn, e⟩ := List.getElem_of_mem hm
    rw [bgDots_getElem] at e
    rw [← e]
    unfold bgDot
    split
    · exact .inl rfl
    · split
      · exact .inl rfl
      · exact .inr rfl
  · exact .inl (by rw [(List.mem_replicate.mp hm).2]; rfl)

/-- The dots of the background do not depend on the sprites' enable bit (R186, R187). -/
theorem backgroundLine_congr {s u : State} (hc : u.ppu.ctrl0 = s.ppu.ctrl0) (h3 : u.ppu.bgEnabled = s.ppu.bgEnabled)
    (h1 : u.ppu.ctrl1.getLsbD 1 = s.ppu.ctrl1.getLsbD 1) (hv : ∀ a, vramPeek u a = vramPeek s a)
    (hcol : ∀ i, colorOf u i = colorOf s i) (hx : u.ppu.x = s.ppu.x) (v : BitVec 15) :
    backgroundLine u v = backgroundLine s v := by
  have hd : ∀ sx fx v, bgDot u sx fx v = bgDot s sx fx v := by
    intro sx fx v
    have hb : bgValue u fx v = bgValue s fx v := by simp only [bgValue, bgTile, tilePixel, hc, hv]
    have ha : ∀ n cx cy, attrMsb u n cx cy = attrMsb s n cx cy := by intros; simp only [attrMsb, hv]
    simp only [bgDot, blankDot, hb, ha, h1, hcol]
  have hl : ∀ n sx fx v, bgDots u n sx fx v = bgDots s n sx fx v := by
    intro n
    induction n with
    | zero => intros; rfl
    | succ n ih => intro sx fx v; simp only [bgDots, hd, ih]
  simp only [backgroundLine, h3, hl, hx, blankDot, hcol]

/-- Drawing a line does not look at what is asked from outside. -/
theorem drawScanline_inputs (line : Nat) (s : State) (l : List HostInput) :
    drawScanline line { s with inputs := l } = { drawScanline line s with inputs := l } := by
  have hb : lineBackground { s with inputs := l } = lineBackground s := by
    simp only [lineBackground]
    rw [backgroundLine_congr (s := s) (u := { s with inputs := l }) rfl rfl rfl (fun _ => rfl) (fun _ => rfl) rfl]
  have hp : ∀ i sp t, spritePixel { s with inputs := l } i sp t = spritePixel s i sp t := fun _ _ _ => rfl
  have he : evalSprite { s with inputs := l } line = evalSprite s line := by
    funext b i
    simp only [evalSprite, drawSprite, hp]
    rfl
  have hs : lineSprites { s with inputs := l } line = lineSprites s line := by
    unfold lineSprites renderSprites
    rw [hb, he]
  simp only [drawScanline, hs]
end Sys2Proof.Machine
end

