-- ==== Sys2Proof/Laws/Step.lean ====
section
/-! SUPPORT. One step of the machine: when it runs an instruction, what the fetch leaves, and all that a step can
answer (40_execution_and_addressing R68, R86, R87; 61_ppu_oam R195; 60_exceptions R165). -/

namespace Sys2Proof.Machine

theorem charge_zero (s : State) : charge 0 s = s := by
  simp [charge]

theorem opRow_isSome_iff (op : Byte) : (opRow op).isSome = !unknownOpcodes.contains op := by
  rw [← opRow_isNone_iff]; cases opRow op <;> rfl

theorem chargeBase_eq (op : Byte) (s : State) : chargeBase op s = charge (fetchCost s.cfg op) s := by
  unfold chargeBase fetchCost
  rw [opRow_isSome_iff]
  by_cases h : op ∈ unknownOpcodes
  · simp [h, charge_zero]
  · simp [h]

theorem mayContinue_iff (s : State) : mayContinue s = true ↔ s.pc ∉ s.cfg.stopAt := by
  simp [mayContinue]

theorem executing_iff (n : Nat) (start : BitVec 64) (s : State) :
    executing n start s = true ↔ (s.cycles - start).toNat < n ∧ s.faulted = false ∧ s.pc ∉ s.cfg.stopAt := by
  rw [executing, Bool.and_eq_true, Bool.and_eq_true, decide_eq_true_iff, mayContinue_iff, Bool.not_eq_true', and_assoc,
    spent]

/-- The state a step works on: the input taken off the list. -/
def afterInput (s : State) : State := { s with inputs := s.inputs.tail }

/-- A step that goes on is an advance, with a listed `run` taken off. -/
theorem GoesOn.step_eq {s : State} (h : GoesOn s) : step s = advance (afterInput s) := by
  simp only [step, machineStep, afterInput]
  rcases h with h | h
  · rw [h]; simp only [takeInput, List.tail_nil]; rw [← h]
  · obtain ⟨rest, h⟩ := List.head?_eq_some_iff.mp h
    rw [h]; rfl

/-- A machine that runs an instruction now. -/
theorem RunsNow.step_eq {s : State} (h : RunsNow s) : step s = runInstr (afterInput s) := by
  obtain ⟨hi, hf, hp, hb⟩ := h
  have hm : mayContinue (afterInput s) = true := (mayContinue_iff _).mpr hp
  have hx : ∀ n start, (s.cycles - start).toNat < n → executing n start (afterInput s) = true :=
    fun n start h => (executing_iff n start (afterInput s)).mpr ⟨h, hf, hp⟩
  have hf' : (afterInput s).faulted = false := hf
  rw [hi.step_eq]
  unfold advance
  rw [show (afterInput s).phase = s.phase from rfl]
  cases hph : s.phase with
  | idle => simp [hostStep, hf', hm]
  | visible line start => rw [hph] at hb; exact if_pos (hx _ _ hb)
  | postRender start => rw [hph] at hb; exact if_pos (hx _ _ hb)
  | vblank start => rw [hph] at hb; exact if_pos (hx _ _ hb)

/-- The three events of a frame: what a step that goes on does when the budget is over. -/
theorem GoesOn.budget_over {s : State} (hi : GoesOn s) (h : ¬RunsNow s) :
    (∀ line start, s.phase = .visible line start → step s = .next (endVisible line (afterInput s))) ∧
    (∀ start, s.phase = .postRender start → step s = .next (enterVblank (afterInput s))) ∧
    (∀ start, s.phase = .vblank start → step s = .next (endFrame (afterInput s))) := by
  have hx : ∀ n start, ¬(GoesOn s ∧ s.faulted = false ∧ s.pc ∉ s.cfg.stopAt ∧ (s.cycles - start).toNat < n) →
      executing n start (afterInput s) = false := by
    intro n start k
    rw [← Bool.not_eq_true, executing_iff]
    exact fun ⟨h1, h2, h3⟩ => k ⟨hi, h2, h3, h1⟩
  rw [hi.step_eq]
  unfold advance
  rw [show (afterInput s).phase = s.phase from rfl]
  refine ⟨fun line start hp => ?_, fun start hp => ?_, fun start hp => ?_⟩ <;>
  · rw [hp]
    unfold RunsNow at h
    rw [hp] at h
    exact if_neg (Bool.eq_false_iff.mp (hx _ _ h))

/-! ## The fetch -/

theorem read8_pc_cycles (a w : Word) (c : BitVec 64) (s : State) :
    read8 a { s with pc := w, cycles := c } = ((read8 a s).1, { (read8 a s).2 with pc := w, cycles := c }) := by
  rw [read8_congr a (s := s) (t := { s with pc := w, cycles := c }) rfl rfl rfl rfl]
  conv_rhs => rw [read8_congr a (s := s) (t := s) rfl rfl rfl rfl]

theorem read8_inputs (a : Word) (l : List HostInput) (s : State) :
    read8 a { s with inputs := l } = ((read8 a s).1, { (read8 a s).2 with inputs := l }) := by
  rw [read8_congr a (s := s) (t := { s with inputs := l }) rfl rfl rfl rfl]
  conv_rhs => rw [read8_congr a (s := s) (t := s) rfl rfl rfl rfl]

/-- The state after the reads of a fetch: PC past the instruction's `n` bytes, and the base cost. -/
def fetched (s : State) (op : Byte) (n : Word) (u : State) : State :=
  { u with pc := s.pc + n, cycles := s.cycles + BitVec.ofNat 64 (fetchCost s.cfg op) }

theorem fetchByte_fetched (s : State) (op : Byte) (n : Word) (u : State) :
    fetchByte (fetched s op n u) =
      ((read8 (s.pc + n) u).1, fetched s op (n + 1) (read8 (s.pc + n) u).2) := by
  simp only [fetchByte, fetched, read8_pc_cycles, BitVec.add_assoc]

/-- The opcode byte, and the base cost. -/
theorem fetchOpcode (s : State) :
    chargeBase (fetchByte s).1 (fetchByte s).2 = fetched s (read8 s.pc s).1 1 (read8 s.pc s).2 := by
  have f := read8_frame s.pc s
  have hp := f.pc
  have hc := f.cycles
  have hf := f.cfg
  simp only [fetchByte, chargeBase_eq, charge]
  generalize read8 s.pc s = o at *
  obtain ⟨b, u⟩ := o
  simp only at hp hc hf ⊢
  simp only [fetched, hp, hc, hf]

/-- The fetch of an opcode with no operand byte, in closed form. -/
theorem fetch_zero {s : State} (h : operandCount (read8 s.pc s).1 = 0) :
    fetch s = (decodeOp (read8 s.pc s).1 0 0, fetched s (read8 s.pc s).1 1 (read8 s.pc s).2) := by
  simp only [fetch, fetchOpcode]
  simp only [fetchByte, h, fetchOperands]

/-- The fetch of an opcode with one operand byte. -/
theorem fetch_one {s : State} (h : operandCount (read8 s.pc s).1 = 1) :
    fetch s =
      (let b := read8 (s.pc + 1) (read8 s.pc s).2
      (decodeOp (read8 s.pc s).1 b.1 0, fetched s (read8 s.pc s).1 2 b.2)) := by
  simp only [fetch, fetchOpcode]
  simp only [show (fetchByte s).1 = (read8 s.pc s).1 from rfl, h, fetchOperands, fetchByte_fetched]
  rfl

/-- The fetch of an opcode with two operand bytes. -/
theorem fetch_two {s : State} (h : operandCount (read8 s.pc s).1 = 2) :
    fetch s =
      (let b := read8 (s.pc + 1) (read8 s.pc s).2
      let c := read8 (s.pc + 2) b.2
      (decodeOp (read8 s.pc s).1 b.1 c.1, fetched s (read8 s.pc s).1 3 c.2)) := by
  simp only [fetch, fetchOpcode]
  simp only [show (fetchByte s).1 = (read8 s.pc s).1 from rfl, h, fetchOperands, fetchByte_fetched]
  rfl

theorem fetched_frame {s u : State} (h : ReadFrame s u) (op : Byte) (n : Word) :
    ReadFrame s { fetched s op n u with pc := s.pc, cycles := s.cycles } := by
  have e : ({ fetched s op n u with pc := s.pc, cycles := s.cycles } : State) = u := by
    have hp := h.pc
    have hc := h.cycles
    cases u
    simp_all [fetched]
  rw [e]; exact h

theorem operandCount_cases (op : Byte) : operandCount op = 0 ∨ operandCount op = 1 ∨ operandCount op = 2 := by
  have := operandCount_le op
  omega

/-- What the fetch leaves: what bus reads may change, PC, and the cycle count. -/
theorem fetch_frame (s : State) : ReadFrame s { (fetch s).2 with pc := s.pc, cycles := s.cycles } := by
  have f1 := read8_frame s.pc s
  have f2 := f1.trans (read8_frame (s.pc + 1) _)
  have f3 := f2.trans (read8_frame (s.pc + 2) _)
  rcases operandCount_cases (read8 s.pc s).1 with h | h | h
  · rw [fetch_zero h]; exact fetched_frame f1 _ _
  · rw [fetch_one h]; exact fetched_frame f2 _ _
  · rw [fetch_two h]; exact fetched_frame f3 _ _

/-- The fetch does not look at what is asked. -/
theorem fetch_inputs (s : State) (l : List HostInput) :
    fetch { s with inputs := l } = ((fetch s).1, { (fetch s).2 with inputs := l }) := by
  have e1 := read8_inputs s.pc l s
  have e2 := read8_inputs (s.pc + 1) l (read8 s.pc s).2
  have e3 := read8_inputs (s.pc + 2) l (read8 (s.pc + 1) (read8 s.pc s).2).2
  have eq1 : (read8 ({ s with inputs := l } : State).pc { s with inputs := l }).1 = (read8 s.pc s).1 := by rw [e1]
  rcases operandCount_cases (read8 s.pc s).1 with h | h | h
  · rw [fetch_zero h, fetch_zero (s := { s with inputs := l }) (by rw [eq1]; exact h), e1]
    rfl
  · rw [fetch_one h, fetch_one (s := { s with inputs := l }) (by rw [eq1]; exact h), e1]
    dsimp only
    rw [e2]
    rfl
  · rw [fetch_two h, fetch_two (s := { s with inputs := l }) (by rw [eq1]; exact h), e1]
    dsimp only
    rw [e2]
    dsimp only
    rw [e3]
    rfl

/-- The step of a machine that runs an instruction now, from the fetch at the state itself. -/
theorem RunsNow.step_fetch {s : State} (h : RunsNow s) :
    step s = exec (fetch s).1 { (fetch s).2 with inputs := s.inputs.tail } := by
  rw [h.step_eq, runInstr, afterInput, fetch_inputs]

/-- The fetch keeps the invariant. -/
theorem Inv.fetch {s : State} (h : Inv s) : Inv (fetch s).2 := by
  have key : ∀ u op n, Inv u → Inv (fetched s op n u) := fun _ _ _ hu => hu.congr rfl rfl rfl rfl rfl rfl rfl
  rcases operandCount_cases (Machine.read8 s.pc s).1 with e | e | e
  · rw [fetch_zero e]; exact key _ _ _ (h.read8 _)
  · rw [fetch_one e]; exact key _ _ _ ((h.read8 _).read8 _)
  · rw [fetch_two e]; exact key _ _ _ (((h.read8 _).read8 _).read8 _)

/-- The operand read keeps the invariant. -/
theorem Inv.readOperand {s : State} (h : Inv s) (m : SrcForm) : Inv (readOperand m s).2 := by
  cases m with
  | imm b => exact h
  | mem m =>
    rw [readOperand_mem]
    dsimp only
    split
    · exact (h.read8 _).charge 1
    · exact h.read8 _

/-! ## All that a step can answer -/

/-- All the next states of a step. -/
inductive StepCase (s t : State) : Prop
  /-- An instruction ran. -/
  | ran (h : runInstr (afterInput s) = .next t)
  /-- The debugger did not let the host's step go on. -/
  | stayed (h : t = afterInput s)
  | lineEnd (line : Nat) (start : BitVec 64) (hp : s.phase = .visible line start) (h : t = endVisible line (afterInput s))
  | vblank (start : BitVec 64) (hp : s.phase = .postRender start) (h : t = enterVblank (afterInput s))
  | frameEnd (start : BitVec 64) (hp : s.phase = .vblank start) (h : t = endFrame (afterInput s))
  | irq (h : t = irqService (afterInput s))
  | reset (h : t = resetService (afterInput s)) (hp : s.phase = .idle)
  | frameBegin (h : t = beginFrame (afterInput s)) (hp : s.phase = .idle)
  | cart (c : Cart) (hc : .attachCart c ∈ s.inputs) (h : t = { afterInput s with cart := c })
  | ext (e : ExtIo) (h : t = { afterInput s with ext := e })

theorem advance_cases {s u t : State} (hu : u = afterInput s) (h : advance u = .next t) : StepCase s t := by
  subst hu
  unfold advance at h
  split at h
  · unfold hostStep at h
    split at h
    · cases h
    · split at h
      · exact .ran h
      · cases h; exact .stayed rfl
  · rename_i line start he
    split at h
    · exact .ran h
    · cases h; exact .lineEnd line start he rfl
  · rename_i start he
    split at h
    · exact .ran h
    · cases h; exact .vblank start he rfl
  · rename_i start he
    split at h
    · exact .ran h
    · cases h; exact .frameEnd start he rfl

theorem hostCall_cases {f : State → State} {u t : State} (h : hostCall f u = .next t) : u.phase = .idle ∧ t = f u := by
  unfold hostCall at h
  split at h
  · cases h; exact ⟨‹_›, rfl⟩
  · cases h

/-- A step answers one of those. -/
theorem step_cases {s t : State} (h : step s = .next t) : StepCase s t := by
  change machineStep s = .next t at h
  unfold machineStep at h
  split at h
  · rename_i hi
    refine advance_cases ?_ h
    unfold afterInput; rw [hi]; cases s; simp_all
  · rename_i i rest hi
    have e : { s with inputs := rest } = afterInput s := by unfold afterInput; rw [hi]; rfl
    rw [e] at h
    cases i with
    | run => exact advance_cases rfl h
    | irq =>
      simp only [takeInput, deliverIrq] at h
      split at h
      · cases h
      · cases h; exact .irq rfl
    | reset => exact .reset (hostCall_cases h).2 (hostCall_cases h).1
    | drawFrame => exact .frameBegin (hostCall_cases h).2 (hostCall_cases h).1
    | attachCart c =>
      simp only [takeInput] at h
      exact .cart c (by rw [hi]; exact List.mem_cons_self) (hostCall_cases h).2
    | attachExt x =>
      simp only [takeInput] at h
      exact .ext x (hostCall_cases h).2

end Sys2Proof.Machine
end

