-- ==== Sys2Proof/Tests/Slice0.lean ====
section
/-! SUPPORT. Tests of the model. The expected results are those of spec/95_test_vectors.md, named by row, or words and
values written out from the rules; the last part has the witnesses of the statements' hypotheses. -/

namespace Sys2Proof.Tests

open Sys2Proof.Machine

set_option Elab.async false

/-! ## Helpers -/

/-- The start state of 95_test_vectors section 0, with a program's bytes at an address and PC there. -/
def prog (bytes : List Byte) (s : State := State.reset) (pc : Word := 0x8000) : State :=
  placeBytes pc bytes { s with pc := pc }

/-- Place bytes in memory. -/
def put (m : List (Word × Byte)) (s : State := State.reset) : State := m.foldl (fun s e => placeByte e.1 e.2 s) s

/-- What one step leaves, seen through `f`; none where the step stops. -/
def ran {α : Type} (s : State) (f : State → α) : Option α :=
  match step s with
  | .next t => some (f t)
  | _ => none

/-- A, P, PC and the cycles of the step. -/
def cpu (t : State) : Byte × Byte × Word × BitVec 64 := (t.a, t.p, t.pc, t.cycles - 7)

/-- A byte of memory. -/
def byteAt (a : Word) (t : State) : Byte := (read8 a t).1

/-- A CPU bus access (95_test_vectors section 2.7). -/
inductive Bus where
  | r (a : Word)
  | w (a : Word) (v : Byte)

/-- Bus accesses in order: the bytes read and the state. -/
def bus : List Bus → State → List Byte × State
  | [], s => ([], s)
  | .r a :: l, s => let q := read8 a s; let k := bus l q.2; (q.1 :: k.1, k.2)
  | .w a v :: l, s => bus l (write8 a v s)

/-! ## Well-formedness: the one check, with an ill-formed and a well-formed term -/

theorem test_wf_refuses_a_documented_opcode : (Instr.unknown 0xA9).wf = false := by decide

theorem test_wf_refuses_brk_as_unknown : (Instr.unknown 0x00).wf = false := by decide

theorem test_wf_accepts_a_listed_opcode : (Instr.unknown 0xFF).wf = true := by decide

/-! ## Decoding: words written out bit by bit from 30_encoding R60, R61 and R58 -/

theorem test_decode_lda_imm : decode [0b10101001, 0b11000000] = .ok (.lda (.imm 0xC0), []) := by rfl

theorem test_decode_ldx_zpy : decode [0b10110110, 0x10] = .ok (.ldx (.zpy 0x10), []) := by rfl

theorem test_decode_sty_zpx : decode [0b10010100, 0xFE] = .ok (.sty (.zpx 0xFE), []) := by rfl

theorem test_decode_sta_absy : decode [0b10011001, 0x34, 0x12] = .ok (.sta (.absy 0x1234), []) := by rfl

theorem test_decode_adc_indy : decode [0b01110001, 0x80] = .ok (.adc (.indy 0x80), []) := by rfl

theorem test_decode_sbc_indx : decode [0b11100001, 0x80] = .ok (.sbc (.indx 0x80), []) := by rfl

theorem test_decode_cpx_abs : decode [0b11101100, 0x00, 0x03] = .ok (.cpx (.abs 0x0300), []) := by rfl

theorem test_decode_bit_zp : decode [0b00100100, 0x20] = .ok (.bit (.zp 0x20), []) := by rfl

theorem test_decode_inc_absx : decode [0b11111110, 0xF0, 0x02] = .ok (.inc (.absx 0x02F0), []) := by rfl

theorem test_decode_ror_acc : decode [0b01101010] = .ok (.ror .acc, []) := by rfl

theorem test_decode_asl_zp : decode [0b00000110, 0x40] = .ok (.asl (.zp 0x40), []) := by rfl

theorem test_decode_jmp_ind : decode [0b01101100, 0xFF, 0x02] = .ok (.jmp (.ind 0x02FF), []) := by rfl

theorem test_decode_jsr : decode [0b00100000, 0x34, 0x12] = .ok (.jsr 0x1234, []) := by rfl

theorem test_decode_bne : decode [0b11010000, 0xF8] = .ok (.bne 0xF8, []) := by rfl

theorem test_decode_php : decode [0b00001000] = .ok (.php, []) := by rfl

theorem test_decode_sei : decode [0b01111000] = .ok (.sei, []) := by rfl

theorem test_decode_nop : decode [0b11101010] = .ok (.nop, []) := by rfl

theorem test_decode_unknown : decode [0b00000010] = .ok (.unknown 0x02, []) := by rfl

theorem test_decode_nothing : decode [] = .error .noOpcode := by rfl

theorem test_decode_short_operand : decode [0xA9] = .error (.truncated 0xA9) := by rfl

theorem test_decode_short_word : decode [0x4C, 0x34] = .error (.truncated 0x4C) := by rfl

theorem test_decode_table_word : decodeTableWord 24 0x0002FF6C = some (.jmp (.ind 0x02FF)) := by rfl

theorem test_encode_reads_low_byte_first : encode (.sta (.abs 0x4014)) = [0x8D, 0x14, 0x40] := by rfl

/-! ## One step per instruction: rows of 95_test_vectors sections 2.1 to 2.5 -/

/-- LS15 (R89, R81). -/
theorem test_lda_pointer_wraps_in_page_0 :
    ran (prog [0xA1, 0xFE] (put [(0x00FF, 0x00), (0x0000, 0x03), (0x0300, 0x99)] { State.reset with x := 0x01 }))
        cpu =
      some (0x99, 0x80, 0x8002, 6) := by decide +kernel

/-- LS17 (R89, R82, R84). -/
theorem test_lda_page_crossing_costs_one :
    ran (prog [0xB1, 0x10] (put [(0x0010, 0xF0), (0x0011, 0x02), (0x0310, 0x01)] { State.reset with y := 0x20 }))
        cpu =
      some (0x01, 0x00, 0x8002, 6) := by decide +kernel

/-- LS3 (R90, R76). -/
theorem test_ldx_zero_page_index_wraps :
    ran (prog [0xB6, 0xF0] (put [(0x0010, 0x7F)] { State.reset with y := 0x20 })) (fun t => (cpu t, t.x)) =
      some ((0x00, 0x00, 0x8002, 4), 0x7F) := by decide +kernel

/-- LS4 (R91, R78, R84). -/
theorem test_ldy_page_crossing_costs_one :
    ran (prog [0xBC, 0xFF, 0x02] (put [(0x0300, 0x44)] { State.reset with x := 0x01 })) (fun t => (cpu t, t.y)) =
      some ((0x00, 0x00, 0x8003, 5), 0x44) := by decide +kernel

/-- LS5 (R92, R84). -/
theorem test_sta_has_no_crossing_penalty :
    ran (prog [0x9D, 0xF8, 0x02] { State.reset with a := 0x5A, x := 0x10 }) (fun t => (cpu t, byteAt 0x0308 t)) =
      some ((0x5A, 0x00, 0x8003, 5), 0x5A) := by decide +kernel

/-- LS6 (R92, R45). -/
theorem test_sta_ram_mirror :
    ran (prog [0x8D, 0x00, 0x08] { State.reset with a := 0x11 }) (fun t => (cpu t, byteAt 0x0000 t)) =
      some ((0x11, 0x00, 0x8003, 4), 0x11) := by decide +kernel

/-- LS7 (R93). -/
theorem test_stx :
    ran (prog [0x86, 0x12] { State.reset with x := 0x77 }) (fun t => (cpu t, byteAt 0x0012 t)) =
      some ((0x00, 0x00, 0x8002, 3), 0x77) := by decide +kernel

/-- LS8 (R94, R75). -/
theorem test_sty_zero_page_index_wraps :
    ran (prog [0x94, 0xFE] { State.reset with y := 0x88, x := 0x05 }) (fun t => (cpu t, byteAt 0x0003 t)) =
      some ((0x00, 0x00, 0x8002, 4), 0x88) := by decide +kernel

/-- LS9 (R95). -/
theorem test_tax_zero :
    ran (prog [0xAA] { State.reset with a := 0x00 }) cpu =
      some (0x00, 0x02, 0x8001, 2) := by decide +kernel

/-- LS10 (R96). -/
theorem test_tay_negative :
    ran (prog [0xA8] { State.reset with a := 0xF0 }) (fun t => (cpu t, t.y)) =
      some ((0xF0, 0x80, 0x8001, 2), 0xF0) := by decide +kernel

/-- LS13 (R97). -/
theorem test_tsx :
    ran (prog [0xBA] { State.reset with sp := 0xFD }) (fun t => (cpu t, t.x)) =
      some ((0x00, 0x80, 0x8001, 2), 0xFD) := by decide +kernel

/-- LS11 (R98). -/
theorem test_txa :
    ran (prog [0x8A] { State.reset with x := 0x01 }) cpu =
      some (0x01, 0x00, 0x8001, 2) := by decide +kernel

/-- LS14 (R99). -/
theorem test_txs_writes_no_flag :
    ran (prog [0x9A] { State.reset with x := 0x00 }) (fun t => (cpu t, t.sp)) =
      some ((0x00, 0x00, 0x8001, 2), 0x00) := by decide +kernel

/-- LS12 (R100). -/
theorem test_tya :
    ran (prog [0x98] { State.reset with y := 0x80 }) cpu =
      some (0x80, 0x80, 0x8001, 2) := by decide +kernel

/-- AL3 (R102). -/
theorem test_adc_overflow_carry_zero :
    ran (prog [0x69, 0x80] { State.reset with a := 0x80 }) cpu =
      some (0x00, 0x43, 0x8002, 2) := by decide +kernel

/-- AL5 (R102, R145). -/
theorem test_adc_ignores_decimal :
    ran (prog [0x69, 0x01] { State.reset with a := 0x01, p := 0x09 }) cpu =
      some (0x03, 0x08, 0x8002, 2) := by decide +kernel

/-- AL7 (R103). -/
theorem test_sbc_overflow :
    ran (prog [0xE9, 0xB0] { State.reset with a := 0x50, p := 0x01 }) cpu =
      some (0xA0, 0xC0, 0x8002, 2) := by decide +kernel

/-- AL10 (R103). -/
theorem test_sbc_borrows :
    ran (prog [0xE9, 0x03] { State.reset with a := 0x05 }) cpu =
      some (0x01, 0x01, 0x8002, 2) := by decide +kernel

/-- AL11 (R104). -/
theorem test_and :
    ran (prog [0x29, 0x0F] { State.reset with a := 0xF0 }) cpu =
      some (0x00, 0x02, 0x8002, 2) := by decide +kernel

/-- AL12 (R105). -/
theorem test_ora :
    ran (prog [0x09, 0x01] { State.reset with a := 0x80 }) cpu =
      some (0x81, 0x80, 0x8002, 2) := by decide +kernel

/-- AL13 (R106). -/
theorem test_eor :
    ran (prog [0x49, 0xFF] { State.reset with a := 0xFF }) cpu =
      some (0x00, 0x02, 0x8002, 2) := by decide +kernel

/-- AL15 (R107). -/
theorem test_cmp_less :
    ran (prog [0xC9, 0x41] { State.reset with a := 0x40 }) cpu =
      some (0x40, 0x80, 0x8002, 2) := by decide +kernel

/-- AL16 (R107). -/
theorem test_cmp_unsigned :
    ran (prog [0xC9, 0xC0] { State.reset with a := 0x40 }) cpu =
      some (0x40, 0x80, 0x8002, 2) := by decide +kernel

/-- AL17 (R108). -/
theorem test_cpx :
    ran (prog [0xE0, 0x05] { State.reset with x := 0x10 }) cpu =
      some (0x00, 0x01, 0x8002, 2) := by decide +kernel

/-- AL18 (R109). -/
theorem test_cpy_equal :
    ran (prog [0xC0, 0x00] { State.reset with y := 0x00 }) cpu =
      some (0x00, 0x03, 0x8002, 2) := by decide +kernel

/-- AL19 (R110). -/
theorem test_bit_n_v_from_memory :
    ran (prog [0x24, 0x20] (put [(0x0020, 0xC0)] { State.reset with a := 0x01 })) cpu =
      some (0x01, 0xC2, 0x8002, 3) := by decide +kernel

/-- AL20 (R110). -/
theorem test_bit_clears :
    ran (prog [0x24, 0x20] (put [(0x0020, 0x01)] { State.reset with a := 0x41, p := 0xC0 })) cpu =
      some (0x41, 0x00, 0x8002, 3) := by decide +kernel

/-- AL23 (R111, R84). -/
theorem test_inc_no_crossing_penalty :
    ran (prog [0xFE, 0xF0, 0x02] (put [(0x0300, 0x7F)] { State.reset with x := 0x10 }))
        (fun t => (cpu t, byteAt 0x0300 t)) =
      some ((0x00, 0x80, 0x8003, 7), 0x80) := by decide +kernel

/-- AL22 (R112). -/
theorem test_dec_wraps :
    ran (prog [0xC6, 0x30] (put [(0x0030, 0x00)])) (fun t => (cpu t, byteAt 0x0030 t)) =
      some ((0x00, 0x80, 0x8002, 5), 0xFF) := by decide +kernel

/-- AL24 (R113). -/
theorem test_inx_wraps :
    ran (prog [0xE8] { State.reset with x := 0xFF }) (fun t => (cpu t, t.x)) =
      some ((0x00, 0x02, 0x8001, 2), 0x00) := by decide +kernel

/-- AL25 (R114). -/
theorem test_iny :
    ran (prog [0xC8] { State.reset with y := 0x7F }) (fun t => (cpu t, t.y)) =
      some ((0x00, 0x80, 0x8001, 2), 0x80) := by decide +kernel

/-- AL26 (R115). -/
theorem test_dex_wraps :
    ran (prog [0xCA] { State.reset with x := 0x00 }) (fun t => (cpu t, t.x)) =
      some ((0x00, 0x80, 0x8001, 2), 0xFF) := by decide +kernel

/-- AL27 (R116). -/
theorem test_dey :
    ran (prog [0x88] { State.reset with y := 0x01 }) (fun t => (cpu t, t.y)) =
      some ((0x00, 0x02, 0x8001, 2), 0x00) := by decide +kernel

/-- SH2 (R117). -/
theorem test_asl_acc :
    ran (prog [0x0A] { State.reset with a := 0x41, p := 0x01 }) cpu =
      some (0x82, 0x80, 0x8001, 2) := by decide +kernel

/-- SH8 (R117). -/
theorem test_asl_memory :
    ran (prog [0x06, 0x40] (put [(0x0040, 0x81)])) (fun t => (cpu t, byteAt 0x0040 t)) =
      some ((0x00, 0x01, 0x8002, 5), 0x02) := by decide +kernel

/-- SH4 (R118). -/
theorem test_lsr_acc :
    ran (prog [0x4A] { State.reset with a := 0xFF, p := 0x80 }) cpu =
      some (0x7F, 0x01, 0x8001, 2) := by decide +kernel

/-- SH9 (R118). -/
theorem test_lsr_memory :
    ran (prog [0x56, 0x40] (put [(0x0045, 0x02)] { State.reset with x := 0x05 }))
        (fun t => (cpu t, byteAt 0x0045 t)) =
      some ((0x00, 0x00, 0x8002, 6), 0x01) := by decide +kernel

/-- SH5 (R119). -/
theorem test_rol_acc :
    ran (prog [0x2A] { State.reset with a := 0x80, p := 0x01 }) cpu =
      some (0x01, 0x01, 0x8001, 2) := by decide +kernel

/-- SH10 (R119). -/
theorem test_rol_memory :
    ran (prog [0x2E, 0x00, 0x03] (put [(0x0300, 0x40)] { State.reset with p := 0x01 }))
        (fun t => (cpu t, byteAt 0x0300 t)) =
      some ((0x00, 0x80, 0x8003, 6), 0x81) := by decide +kernel

/-- SH7 (R120). -/
theorem test_ror_acc :
    ran (prog [0x6A] { State.reset with a := 0x00, p := 0x01 }) cpu =
      some (0x80, 0x80, 0x8001, 2) := by decide +kernel

/-- SH11 (R120). -/
theorem test_ror_memory :
    ran (prog [0x7E, 0x00, 0x03] (put [(0x0301, 0x01)] { State.reset with x := 0x01 }))
        (fun t => (cpu t, byteAt 0x0301 t)) =
      some ((0x00, 0x03, 0x8003, 7), 0x00) := by decide +kernel

/-- CT2 (R122, R80). -/
theorem test_jmp_indirect :
    ran (prog [0x6C, 0xFF, 0x02] (put [(0x02FF, 0x00), (0x0300, 0x90), (0x0200, 0x80)])) cpu =
      some (0x00, 0x00, 0x9000, 5) := by decide +kernel

/-- CT3 (R122, R80). -/
theorem test_jmp_indirect_page_wrap :
    ran (prog [0x6C, 0xFF, 0x02] (put [(0x02FF, 0x00), (0x0300, 0x90), (0x0200, 0x80)]
        { State.reset with cfg := { Config.reference with jmpIndirectPageWrap := true } }))
        cpu =
      some (0x00, 0x00, 0x8000, 5) := by decide +kernel

/-- CT5 (R123, R52). -/
theorem test_jsr_stack_wraps :
    ran (prog [0x20, 0x34, 0x12] { State.reset with sp := 0x00 })
        (fun t => (cpu t, t.sp, byteAt 0x0100 t, byteAt 0x01FF t)) =
      some ((0x00, 0x00, 0x1234, 6), 0xFE, 0x80, 0x02) := by decide +kernel

/-- CT7 (R124). -/
theorem test_rts_wraps :
    ran (prog [0x60] (put [(0x01FC, 0xFF), (0x01FD, 0xFF)] { State.reset with sp := 0xFB }))
        (fun t => (cpu t, t.sp)) =
      some ((0x00, 0x00, 0x0000, 6), 0xFD) := by decide +kernel

/-- CT8 (R125). -/
theorem test_rti_drops_held_bits :
    ran (prog [0x40] (put [(0x01FB, 0xB3), (0x01FC, 0x02), (0x01FD, 0x80)] { State.reset with sp := 0xFA }))
        (fun t => (cpu t, t.sp)) =
      some ((0x00, 0x83, 0x8002, 6), 0xFD) := by decide +kernel

/-- CT10 (R135). -/
theorem test_brk_whatever_i :
    ran (prog [0x00, 0xFF] (put [(0xFFFE, 0x00), (0xFFFF, 0x90)] { State.reset with sp := 0xFD, p := 0xC7 }))
        (fun t => (cpu t, t.sp, byteAt 0x01FB t, byteAt 0x01FC t, byteAt 0x01FD t)) =
      some ((0x00, 0xC7, 0x9000, 7), 0xFA, 0xF7, 0x02, 0x80) := by decide +kernel

/-- CT11 (R127, R85). -/
theorem test_bcc_taken :
    ran (prog [0x90, 0x10]) cpu =
      some (0x00, 0x00, 0x8012, 3) := by decide +kernel

/-- CT12 (R128). -/
theorem test_bcs_not_taken :
    ran (prog [0xB0, 0x10]) cpu =
      some (0x00, 0x00, 0x8002, 2) := by decide +kernel

/-- CT14 (R129, R85). -/
theorem test_beq_crosses_page :
    ran (prog [0xF0, 0x20] { State.reset with p := 0x02 } 0x80F0) cpu =
      some (0x00, 0x02, 0x8112, 4) := by decide +kernel

/-- CT16 (R130, R83). -/
theorem test_bmi_to_itself :
    ran (prog [0x30, 0xFE] { State.reset with p := 0x80 }) cpu =
      some (0x00, 0x80, 0x8000, 3) := by decide +kernel

/-- CT20 (R131, R85). -/
theorem test_bne_crosses_backwards :
    ran (prog [0xD0, 0x80] State.reset 0x8100) cpu =
      some (0x00, 0x00, 0x8082, 4) := by decide +kernel

/-- CT22 (R131, R85). -/
theorem test_bne_page_of_pc_after_operand :
    ran (prog [0xD0, 0x00] State.reset 0x80FE) cpu =
      some (0x00, 0x00, 0x8100, 3) := by decide +kernel

/-- CT17 (R132). -/
theorem test_bpl :
    ran (prog [0x10, 0x02]) cpu =
      some (0x00, 0x00, 0x8004, 3) := by decide +kernel

/-- CT18 (R133). -/
theorem test_bvc_not_taken :
    ran (prog [0x50, 0x10] { State.reset with p := 0x40 }) cpu =
      some (0x00, 0x40, 0x8002, 2) := by decide +kernel

/-- CT19 (R134). -/
theorem test_bvs :
    ran (prog [0x70, 0x10] { State.reset with p := 0x40 }) cpu =
      some (0x00, 0x40, 0x8012, 3) := by decide +kernel

/-- SM7 (R136, R52). -/
theorem test_pha_stack_wraps :
    ran (prog [0x48] { State.reset with sp := 0x00, a := 0x37 }) (fun t => (cpu t, t.sp, byteAt 0x0100 t)) =
      some ((0x37, 0x00, 0x8001, 3), 0xFF, 0x37) := by decide +kernel

/-- SM2 (R137). -/
theorem test_php_image :
    ran (prog [0x08] { State.reset with p := 0xC3 }) (fun t => (cpu t, t.sp, byteAt 0x01FD t)) =
      some ((0x00, 0xC3, 0x8001, 3), 0xFC, 0xF3) := by decide +kernel

/-- SM6 (R138, R52). -/
theorem test_pla_stack_wraps :
    ran (prog [0x68] (put [(0x0100, 0x81)] { State.reset with sp := 0xFF })) (fun t => (cpu t, t.sp)) =
      some ((0x81, 0x80, 0x8001, 4), 0x00) := by decide +kernel

/-- SM5 (R139). -/
theorem test_plp_drops_held_bits :
    ran (prog [0x28] (put [(0x01FD, 0xFF)] { State.reset with sp := 0xFC })) (fun t => (cpu t, t.sp)) =
      some ((0x00, 0xCF, 0x8001, 4), 0xFD) := by decide +kernel

/-- SM8 (R140). -/
theorem test_clc :
    ran (prog [0x18] { State.reset with p := 0xCF }) cpu =
      some (0x00, 0xCE, 0x8001, 2) := by decide +kernel

/-- SM9 (R141). -/
theorem test_cld :
    ran (prog [0xD8] { State.reset with p := 0xCF }) cpu =
      some (0x00, 0xC7, 0x8001, 2) := by decide +kernel

/-- SM10 (R142). -/
theorem test_cli :
    ran (prog [0x58] { State.reset with p := 0xCF }) cpu =
      some (0x00, 0xCB, 0x8001, 2) := by decide +kernel

/-- SM11 (R143). -/
theorem test_clv :
    ran (prog [0xB8] { State.reset with p := 0xCF }) cpu =
      some (0x00, 0x8F, 0x8001, 2) := by decide +kernel

/-- SM12 (R144). -/
theorem test_sec :
    ran (prog [0x38]) cpu =
      some (0x00, 0x01, 0x8001, 2) := by decide +kernel

/-- SM13 (R145). -/
theorem test_sed :
    ran (prog [0xF8]) cpu =
      some (0x00, 0x08, 0x8001, 2) := by decide +kernel

/-- SM14 (R146). -/
theorem test_sei :
    ran (prog [0x78]) cpu =
      some (0x00, 0x04, 0x8001, 2) := by decide +kernel

/-- SM15 (R147). -/
theorem test_nop :
    ran (prog [0xEA]) cpu =
      some (0x00, 0x00, 0x8001, 2) := by decide +kernel

/-- SM17 (R148). -/
theorem test_unknown_reference :
    ran (prog [0xFF]) cpu =
      some (0x00, 0x00, 0x8001, 2) := by decide +kernel

/-- SM18 (R148). -/
theorem test_unknown_leaves_operand :
    ran (prog [0x80, 0x12]) cpu =
      some (0x00, 0x00, 0x8001, 2) := by decide +kernel

/-! ## Interrupts and reset: rows of 95_test_vectors section 2.6 -/

/-- The IRQ and NMI vectors 0x9000 and 0xA000, the reset vector 0x8000, PC 0x8000. -/
def vectored (s : State := State.reset) : State :=
  put [(0xFFFA, 0x00), (0xFFFB, 0xA0), (0xFFFC, 0x00), (0xFFFD, 0x80), (0xFFFE, 0x00), (0xFFFF, 0x90)]
    { s with pc := 0x8000 }

/-- IN1 (R153). -/
theorem test_irq_enters :
    ran (vectored { State.reset with p := 0x03, inputs := [.irq] })
        (fun t => (cpu t, t.sp, byteAt 0x01FB t, byteAt 0x01FC t, byteAt 0x01FD t)) =
      some ((0x00, 0x07, 0x9000, 7), 0xFA, 0x23, 0x00, 0x80) := by decide +kernel

/-- IN2 (R153). -/
theorem test_irq_dropped :
    ran (vectored { State.reset with p := 0x07, inputs := [.irq] }) (fun t => (cpu t, t.sp)) =
      some ((0x00, 0x07, 0x8000, 0), 0xFD) := by decide +kernel

/-- IN4 (R154). -/
theorem test_nmi_stack_wraps :
    (fun t => (cpu t, t.sp, byteAt 0x0101 t, byteAt 0x0100 t, byteAt 0x01FF t))
        (nmiService (vectored { State.reset with p := 0xC0, sp := 0x01 })) =
      ((0x00, 0xC4, 0xA000, 7), 0xFE, 0x80, 0x00, 0xE0) := by decide +kernel

/-- IN5 (R198). -/
theorem test_reset_leaves_ram :
    ran (put [(0x0000, 0x55)] (vectored
          { State.reset with a := 0x12, x := 0x34, p := 0xC3, sp := 0x80, cycles := 99, inputs := [.reset] }))
        (fun t => (cpu t, t.x, t.sp, byteAt 0x0000 t)) =
      some ((0x00, 0x00, 0x8000, 0), 0x00, 0xFD, 0x55) := by decide +kernel

/-- FR2: at frame step 4 the NMI is entered and the VBlank budget starts after it (R195, R154). -/
theorem test_vblank_begins_with_its_nmi :
    ran (vectored { State.reset with
          cycles := 27481, phase := .postRender 27367, ppu := { Ppu.reset with ctrl0 := 0x80 } })
        (fun t => (t.ppu.status, t.sp, t.p, t.phase, byteAt 0x01FB t)) =
      some (0x80, 0xFA, 0x04, .vblank 27488, 0x20) := by decide +kernel

/-- The last cycle of a budget still admits an instruction; the next does not (R87, 92 D17). -/
theorem test_budget_of_a_line :
    ran (prog [0x4C, 0x00, 0x80] { State.reset with cycles := 119, phase := .visible 239 7 })
        (fun t => (t.phase, t.cycles)) = some (.visible 239 7, 122) ∧
    ran (prog [0x4C, 0x00, 0x80] { State.reset with cycles := 120, phase := .visible 239 7 })
        (fun t => (t.phase, t.cycles)) = some (.postRender 120, 120) := by decide +kernel

/-! ## The PPU's registers: rows of 95_test_vectors section 2.7 -/

/-- The PPU at reset, changed. -/
def withPpu (f : Ppu → Ppu) : State := { State.reset with ppu := f State.reset.ppu }

/-- PR1 (R166). -/
theorem test_status_read_clears_vbl_and_toggle :
    (fun q => (q.1, q.2.ppu.status, q.2.ppu.w)) (bus [.r 0x2002] (withPpu fun p => { p with status := 0xE0, w := true })) =
      ([0xE0], 0x60, false) := by decide +kernel

/-- PR4 (R168). -/
theorem test_ctrl0_write_sets_t :
    (fun q => (q.2.ppu.t, q.2.ppu.ctrl0)) (bus [.w 0x2000 0x00] (withPpu fun p => { p with t := 0x7FFF, ctrl0 := 3 })) =
      (0x73FF, 0x00) := by decide +kernel

/-- PR6 (R172). -/
theorem test_scroll_writes :
    (fun q => (q.2.ppu.t, q.2.ppu.x, q.2.ppu.w)) (bus [.w 0x2005 0x7D, .w 0x2005 0x5E] State.reset) =
      (0x616F, 5, false) := by decide +kernel

/-- PR8 (R173, 90 C4). -/
theorem test_addr_write_clears_t14 :
    (fun q => (q.2.ppu.t, q.2.ppu.w)) (bus [.w 0x2006 0x21] (withPpu fun p => { p with t := 0x4000 })) =
      (0x2100, true) := by decide +kernel

/-- PR9 (R203). -/
theorem test_toggle_is_shared :
    (fun q => (q.2.ppu.v, q.2.ppu.t, q.2.ppu.w)) (bus [.w 0x2005 0x00, .w 0x2006 0x21, .w 0x2006 0x08] State.reset) =
      (0x0021, 0x0821, true) := by decide +kernel

/-- PR11 (R45, R174). -/
theorem test_register_mirrors :
    (fun q => (q.2.ppu.v, q.2.ppu.t, q.2.ppu.nt))
        (bus [.w 0x3FFE 0x20, .w 0x200E 0x00, .w 0x2007 0xAB, .w 0x2007 0xCD] State.reset) =
      (0x2002, 0x2000, [(0, 0xAB), (1, 0xCD)]) := by decide +kernel

/-- PR13 (R176, R49). -/
theorem test_vertical_mirroring :
    (fun q => (q.2.ppu.v, q.2.ppu.nt)) (bus [.w 0x2006 0x28, .w 0x2006 0x05, .w 0x2007 0x77] State.reset) =
      (0x2806, [(5, 0x77)]) := by decide +kernel

/-- PR14 (R175). -/
theorem test_data_reads_run_one_behind :
    (fun q => (q.1, q.2.ppu.v))
        (bus [.w 0x2006 0x20, .w 0x2006 0x00, .r 0x2007, .r 0x2007, .r 0x2007]
          (withPpu fun p => { p with nt := [(0, 0x5A), (1, 0x6B)] })) =
      ([0x00, 0x5A, 0x6B], 0x2003) := by decide +kernel

/-- PR15 (R175, R176). -/
theorem test_palette_reads_at_once :
    (fun q => (q.1, q.2.ppu.v, q.2.ppu.latch))
        (bus [.w 0x2006 0x3F, .w 0x2006 0x10, .r 0x2007]
          (withPpu fun p => { p with palette := [(0, 0x0F)], latch := 0x99 })) =
      ([0x0F], 0x3F11, 0x99) := by decide +kernel

/-- PR18 (R174). -/
theorem test_v_wraps :
    (fun q => (q.2.ppu.v, q.2.ppu.palette)) (bus [.w 0x2007 0x01] (withPpu fun p => { p with v := 0x7FFF })) =
      (0x0000, [(0x1F, 0x01)]) := by decide +kernel

/-- PR19 (R171, R166). -/
theorem test_oam_address_wraps :
    (fun q => (q.1, q.2.ppu.oamaddr, q.2.ppu.oam))
        (bus [.w 0x2004 0xAA, .w 0x2004 0xBB, .r 0x2004] (withPpu fun p => { p with oamaddr := 0xFF })) =
      ([0x00], 0x01, [(0, 0xBB), (0xFF, 0xAA)]) := by decide +kernel

/-- PR21 (R166, R46). -/
theorem test_reads_of_nothing :
    (bus [.r 0x2000, .r 0x2001, .r 0x2003, .r 0x2005, .r 0x2006, .r 0x4014, .r 0x4018, .r 0x4016] State.reset) =
      ([0, 0, 0, 0, 0, 0, 0, 0], State.reset) := by decide +kernel

/-- Scenario 8 (R197): page 2 to OAM, 4 + 512 cycles, the OAM address left alone. -/
theorem test_oam_dma :
    ran (prog [0x8D, 0x14, 0x40] (put [(0x0200, 0xFF), (0x0203, 0xFC), (0x02FE, 0x01), (0x0300, 0x77)]
          { State.reset with a := 0x02, ppu := { Ppu.reset with oamaddr := 0x40 } }))
        (fun t => (t.ppu.oam, t.ppu.oamaddr, t.cycles)) =
      some ([(0, 0xFF), (3, 0xFC), (254, 0x01)], 0x40, 7 + 4 + 512) := by decide +kernel

/-! ## Rendering: rows of 95_test_vectors sections 2.8 to 2.10 and 3.2 -/

/-- SX1, SX3, SX5 (R181). -/
theorem test_advance_x :
    advanceX 7 0x0000 = (0, 0x0001) ∧ advanceX 7 0x001F = (0, 0x0400) ∧ advanceX 7 0x7BFF = (0, 0x7FE0) := by decide

/-- SY2, SY4, SY6, SY7 (R182). -/
theorem test_advance_y :
    advanceY 0x6000 = 0x7000 ∧ advanceY 0x73A0 = 0x0800 ∧ advanceY 0x73E0 = 0x0000 ∧ advanceY 0x7BC0 = 0x0BE0 := by
  decide

/-- HC3 (R180). -/
theorem test_horizontal_copy : horizontalCopy 0x2BA5 0x0413 = 0x2FB3 := by decide

/-- The attribute rows of section 2.9 for the tiles (31, 29), (3, 3) and (5, 6) (R185). -/
theorem test_attribute_lookup :
    (attrAddr 0 31 29, attrShift 31 29) = (0x23FF, 2) ∧ (attrAddr 0 3 3, attrShift 3 3) = (0x23C0, 6) ∧
      (attrAddr 0 5 6, attrShift 5 6) = (0x23C9, 4) := by decide

/-- Rows of section 2.10 (R190). -/
theorem test_sprite_tiles :
    spriteTile (withPpu fun p => { p with ctrl0 := 0x08 }) { y := 0, tile := 0x42, attr := 0x00, x := 0 } 3 =
      { base := 0x1000, tile := 0x42, row := 3 } ∧
    spriteTile (withPpu fun p => { p with ctrl0 := 0x20 }) { y := 0, tile := 0x43, attr := 0x80, x := 0 } 3 =
      { base := 0x1000, tile := 0x43, row := 4 } ∧
    spriteTile (withPpu fun p => { p with ctrl0 := 0x28 }) { y := 0, tile := 0x42, attr := 0x80, x := 0 } 15 =
      { base := 0x0000, tile := 0x42, row := 0 } := by decide +kernel

/-- The sprite rows at the edges of the screen (section 3.2): Y = 0xEE is on line 239 only, 0xEF on none, 0x00 from
line 1 on (R188). -/
theorem test_sprite_rows :
    (fun y line => spriteRow State.reset { y := y, tile := 0, attr := 0, x := 0 } line) 0xEE 239 = some 0 ∧
    (fun y line => spriteRow State.reset { y := y, tile := 0, attr := 0, x := 0 } line) 0xEF 239 = none ∧
    (fun y line => spriteRow State.reset { y := y, tile := 0, attr := 0, x := 0 } line) 0x00 0 = none ∧
    (fun y line => spriteRow State.reset { y := y, tile := 0, attr := 0, x := 0 } line) 0x00 8 = some 7 := by
  decide +kernel

/-- Tile 1 of the scene of section 3.2: every pixel is 1. -/
def tile1 : Memory := [(16, 0xFF), (17, 0xFF), (18, 0xFF), (19, 0xFF), (20, 0xFF), (21, 0xFF), (22, 0xFF), (23, 0xFF)]

/-- The scene of section 3.2, where it bears on one line: tile 1 in columns 0 to 3 of the background. -/
def scene (ctrl1 : Byte) (oam : Memory) : State :=
  { State.reset with
    cart := .fixture [] tile1 .vertical
    ppu := { Ppu.reset with ctrl1 := ctrl1, oam := oam, nt := [(0, 1), (1, 1), (2, 1), (3, 1)] } }

/-- FR3, FR7 on line 10: what the info plane and the status show (R186, R191, R192). -/
theorem test_sprite_zero_hit :
    (fun t => (infoAt t 10 15, infoAt t 10 16, infoAt t 10 23, infoAt t 10 24, infoAt t 10 32, t.ppu.status))
        (drawScanline 10 (scene 0x1E [(0, 9), (1, 1), (3, 16)])) = (1, 3, 3, 1, 0, 0x40) ∧
    (fun t => (infoAt t 10 7, infoAt t 10 8, infoAt t 10 11, infoAt t 10 12, t.ppu.status))
        (drawScanline 10 (scene 0x1A [(0, 9), (1, 1), (3, 4)])) = (1, 3, 3, 1, 0x40) := by decide +kernel

/-- FR6: no hit with the background off (R187, R192). -/
theorem test_no_hit_without_background :
    (fun t => (infoAt t 10 15, infoAt t 10 16, t.ppu.status))
        (drawScanline 10 (scene 0x16 [(0, 9), (1, 1), (3, 16)])) = (0, 2, 0x00) := by decide +kernel

/-- FR9: nine sprites in range set overflow, and the ninth is not drawn (R188). -/
theorem test_overflow :
    (fun t => (infoAt t 51 56, infoAt t 51 64, t.ppu.status))
        (drawScanline 51 (scene 0x14 ([(0, 50), (1, 1), (4, 50), (5, 1), (7, 8), (8, 50), (9, 1), (11, 16)] ++
          [(12, 50), (13, 1), (15, 24), (16, 50), (17, 1), (19, 32), (20, 50), (21, 1), (23, 40)] ++
          [(24, 50), (25, 1), (27, 48), (28, 50), (29, 1), (31, 56), (32, 50), (33, 1), (35, 64)]))) =
      (2, 0, 0x20) := by decide +kernel

/-- The fetch word of an instruction is placed where the next step fetches it. -/
theorem test_with_fetch_word :
    ran (State.reset.withFetchWord 16 0xC0A9) (fun t => (t.a, t.pc)) = some (0xC0, 0x0002) := by decide +kernel

/-- An OAM DMA of page 0x20 reads the PPU's registers, each with its effect: the first read of $2002 clears VBlank, the
write toggle goes to 0, and $2004 gives bytes the copy has already written (R197, R166). -/
theorem test_oam_dma_of_the_registers :
    (fun t => (t.ppu.oam.get 2, t.ppu.oam.get 10, t.ppu.oam.get 4, t.ppu.status, t.ppu.w, t.cycles))
        (write8 0x4014 0x20 { State.reset with ppu := { Ppu.reset with status := 0xE0, w := true, oamaddr := 2 } }) =
      (0xE0, 0x60, 0xE0, 0x60, false, 519) := by decide +kernel

/-! ## Witnesses: for each statement with hypotheses, states and operands that meet them, clause by clause -/

/-- A machine that runs NOP from RAM. -/
def running (phase : FramePhase) (cycles : BitVec 64) : State :=
  prog [0xEA] { State.reset with phase := phase, cycles := cycles } 0x0200

theorem test_witness_running_phases :
    RunsNow (running .idle 7) ∧ RunsNow (running (.visible 239 7) 119) ∧ RunsNow (running (.postRender 7) 120) ∧
      RunsNow (running (.vblank 7) 2266) := by
  refine ⟨⟨.inl rfl, rfl, ?_, trivial⟩, ⟨.inl rfl, rfl, ?_, ?_⟩, ⟨.inl rfl, rfl, ?_, ?_⟩, ⟨.inl rfl, rfl, ?_, ?_⟩⟩
  · decide +kernel
  · decide +kernel
  · show (119 - 7 : BitVec 64).toNat < 113; decide
  · decide +kernel
  · show (120 - 7 : BitVec 64).toNat < 113 + 1; decide
  · decide +kernel
  · show (2266 - 7 : BitVec 64).toNat < 113 * 20; decide

/-- A spent budget runs nothing. -/
theorem not_runs_of_budget {s : State} {start : BitVec 64}
    (h : (∃ line, s.phase = .visible line start ∧ s.cfg.cyclesPerScanline ≤ (s.cycles - start).toNat) ∨
      (s.phase = .postRender start ∧ s.cfg.cyclesPerScanline + 1 ≤ (s.cycles - start).toNat) ∨
      (s.phase = .vblank start ∧ s.cfg.cyclesPerScanline * 20 ≤ (s.cycles - start).toNat)) : ¬RunsNow s := by
  rintro ⟨-, -, -, hb⟩
  rcases h with ⟨line, hp, h⟩ | ⟨hp, h⟩ | ⟨hp, h⟩ <;> rw [hp] at hb <;> exact absurd hb (Nat.not_lt.mpr h)

theorem test_witness_HostResetLeavesTheStatedState :
    let s := { State.reset with a := 9, inputs := [.reset, .run] }
    s.phase = .idle ∧ s.inputs = .reset :: [.run] := ⟨rfl, rfl⟩

/-- The last visible line of a frame, RAM and nametable in use. -/
def midFrame : State :=
  { State.reset with
    p := 0xCF, ram := [(0, 0xEA), (2047, 1)], phase := .visible 239 7, inputs := [.run, .irq]
    ppu := { Ppu.reset with status := 0xE0, scanline := 239, nt := [(4095, 2)], oam := [(255, 3)], palette := [(31, 4)] } }

theorem test_witness_StepKeepsTheInvariant : Inv midFrame ∧ (∃ t, step midFrame = .next t) := by
  refine ⟨⟨by decide, by decide, ⟨by decide, by decide, by decide, by decide, by decide, by decide, by decide,
    by decide⟩, by decide, by decide, by decide, rfl⟩, ?_⟩
  have h : (ran midFrame fun t => t.pc) = some 0x0001 := by decide +kernel
  unfold ran at h
  split at h
  · exact ⟨_, ‹_›⟩
  · cases h

theorem test_witness_DecodeOfEncodeIsTheInstruction :
    (Instr.unknown 0x02).wf = true ∧ (Instr.jmp (.ind 0xFFFF)).wf = true ∧ (Instr.brk).wf = true := by decide

theorem test_witness_EncodeOfDecodeIsTheBytes :
    decode [0x02, 0xFF] = .ok (.unknown 0x02, [0xFF]) ∧ decode [0x6C, 0xFF, 0xFF] = .ok (.jmp (.ind 0xFFFF), []) := by
  exact ⟨rfl, rfl⟩

theorem test_witness_UnknownOpcodesAreTheListedOnes :
    (0x02 : Byte) ∈ unknownOpcodes ∧ (0xFF : Byte) ∈ unknownOpcodes := by
  decide

/-- A machine with nothing listed, and one with `run` listed first. -/
theorem test_witness_run_listed :
    GoesOn State.reset ∧ RunsNow { running (.visible 239 7) 119 with inputs := [.run, .irq] } := by
  refine ⟨.inl rfl, .inr rfl, rfl, ?_, ?_⟩
  · decide +kernel
  · show (119 - 7 : BitVec 64).toNat < 113; decide

/-- A three-byte instruction across the top of the address space, from the cartridge at 0xFFFF into RAM at 0, with `run`
listed. -/
theorem test_witness_StepRunsTheDecodedInstruction :
    let i := Instr.lda (.abs 0x0203)
    let s := prog [0xAD, 0x03, 0x02] { State.reset with inputs := [.run] } 0xFFFF
    i.wf = true ∧ RunsNow s ∧ ∀ k (h : k < (encode i).length), read8 (s.pc + BitVec.ofNat 16 k) s = ((encode i)[k], s) := by
  refine ⟨by decide, ⟨.inr rfl, rfl, by decide +kernel, trivial⟩, ?_⟩
  intro k h
  have h3 : k < 3 := h
  interval_cases k
  · show read8 _ _ = (0xAD, _); decide +kernel
  · show read8 _ _ = (0x03, _); decide +kernel
  · show read8 _ _ = (0x02, _); decide +kernel

theorem test_witness_FetchReadsThroughTheBus :
    let t (b : List Byte) := prog b State.reset 0x1FFF
    (RunsNow (t [0xEA]) ∧ operandCount (read8 (t [0xEA]).pc (t [0xEA])).1 = 0) ∧
    (RunsNow (t [0xA9, 1]) ∧ operandCount (read8 (t [0xA9, 1]).pc (t [0xA9, 1])).1 = 1) ∧
    (RunsNow (t [0x4C, 1, 2]) ∧ operandCount (read8 (t [0x4C, 1, 2]).pc (t [0x4C, 1, 2])).1 = 2) := by
  refine ⟨⟨⟨.inl rfl, rfl, by decide +kernel, trivial⟩, ?_⟩, ⟨⟨.inl rfl, rfl, by decide +kernel, trivial⟩, ?_⟩,
    ⟨⟨.inl rfl, rfl, by decide +kernel, trivial⟩, ?_⟩⟩ <;> decide +kernel

theorem test_witness_StoppedMachineRunsNothing :
    (let s := { State.reset with faulted := true, inputs := [.irq] }
    s.phase = .idle ∧ s.faulted = true ∧ s.inputs.head? = some .irq) ∧
    (let s := { State.reset with faulted := true, inputs := [.run] }
    s.phase = .idle ∧ s.faulted = true ∧ GoesOn s) ∧
    (let s := { State.reset with cfg := { Config.reference with stopAt := [0x0000] } }
    s.phase = .idle ∧ s.faulted = false ∧ s.pc ∈ s.cfg.stopAt ∧ GoesOn s) :=
  ⟨by decide, ⟨rfl, rfl, .inr rfl⟩, rfl, rfl, by decide, .inl rfl⟩

theorem test_witness_HostCallsOnlyBetweenFrames :
    (let s := { State.reset with phase := .visible 0 7, inputs := [.reset] }
    s.phase ≠ .idle ∧ s.inputs = .reset :: [] ∧ HostInput.reset ≠ .run ∧ HostInput.reset ≠ .irq) ∧
    (let s := { State.reset with inputs := [.attachCart (.mapper [1])] }
    s.phase = .idle ∧ s.inputs = .attachCart (.mapper [1]) :: []) ∧
    (let s := { State.reset with inputs := [.attachExt (.attached [1])] }
    s.phase = .idle ∧ s.inputs = .attachExt (.attached [1]) :: []) := by decide

/-- For the four statements about every instruction: one that stores, one that reads, one that does neither. -/
theorem test_witness_all_instructions :
    exec (.sta (.zp 0x10)) State.reset = .next (write8 0x0010 0 State.reset) ∧
      exec .nop State.reset = .next State.reset ∧ exec .txs State.reset = .next { State.reset with sp := 0 } ∧
      heldBits State.reset.p = 0 ∧ Flag.c ∉ flagsWritten (.lda (.imm 0)) ∧ writesA .nop = false ∧ writesX .nop = false ∧
      writesY .nop = false ∧ writesSp .nop = false ∧ setsPc .nop = false := by
  refine ⟨rfl, rfl, rfl, by decide, by decide, rfl, rfl, rfl, rfl, rfl⟩

theorem test_witness_NonStoringInstructionsKeepMemory :
    mayStore (.asl .acc) = false ∧ mayStore (.lda (.abs 0x2007)) = false ∧
      (∃ t, exec (.lda (.abs 0x2007)) State.reset = .next t) ∧ State.reset.cart.isFixture = true ∧
      Plain State.reset 0x1FFF ∧ Plain State.reset 0xFFFF :=
  ⟨rfl, rfl, ⟨_, rfl⟩, rfl, .inl (by decide), .inr ⟨by decide, rfl⟩⟩

theorem test_witness_ShiftsOfMemory :
    (ShiftMode.zp 0xFF).rmw = .mem (.zp 0xFF) ∧ (ShiftMode.absx 0xFFFF).rmw = .mem (.absx 0xFFFF) := ⟨rfl, rfl⟩

theorem test_witness_JmpSetsPc :
    (let c := { Config.reference with jmpIndirectPageWrap := true }
    (0x0200 : Word).toNat =
      if c.jmpIndirectPageWrap = true ∧ (0x02FF : Word).toNat % 256 = 255 then (0x02FF : Word).toNat - 255
      else ((0x02FF : Word).toNat + 1) % 65536) ∧
    (let c := Config.reference
    (0x0000 : Word).toNat =
      if c.jmpIndirectPageWrap = true ∧ (0xFFFF : Word).toNat % 256 = 255 then (0xFFFF : Word).toNat - 255
      else ((0xFFFF : Word).toNat + 1) % 65536) := by decide

theorem test_witness_BranchesTestOneFlag :
    (Instr.bcc, Flag.c, false) ∈ [(Instr.bcc, Flag.c, false), (Instr.bcs, Flag.c, true)] ∧
      getFlag (0x00 : Byte) Flag.c = false ∧ getFlag (0x01 : Byte) Flag.c ≠ false := ⟨List.mem_cons_self, rfl, by decide⟩

theorem test_witness_ReturnsUndoCalls : Memory.wf 2048 midFrame.ram = true ∧ heldBits midFrame.p = 0 := by decide

theorem test_witness_FlagInstructionsWriteOneFlag :
    ((0x18, Instr.clc, Flag.c, false) : Byte × Instr × Flag × Bool) ∈
      [(0x18, Instr.clc, Flag.c, false), (0xD8, Instr.cld, Flag.d, false)] := by decide

theorem test_witness_NopsOnlyAdvance :
    (RunsNow (running .idle 7) ∧ read8 (running .idle 7).pc (running .idle 7) = (0xEA, running .idle 7)) ∧
    (let s := prog [0xFF] State.reset 0xFFFF
    RunsNow s ∧ (0xFF : Byte) ∈ unknownOpcodes ∧ read8 s.pc s = (0xFF, s)) := by
  refine ⟨⟨⟨.inl rfl, rfl, by decide +kernel, trivial⟩, ?_⟩, ⟨.inl rfl, rfl, by decide +kernel, trivial⟩, ?_, ?_⟩ <;>
    decide +kernel

/-- Both ends of every range of the memory map, and what is attached there. -/
theorem test_witness_bus_ranges :
    (0x1FFF : Word).toNat ≤ 0x1FFF ∧
    (0x2000 ≤ (0x2000 : Word).toNat ∧ (0x2000 : Word).toNat = 0x2000 + (0x2000 : Word).toNat % 8) ∧
    ((0x3FFF : Word).toNat ≤ 0x3FFF ∧ (0x2007 : Word).toNat = 0x2000 + (0x3FFF : Word).toNat % 8) ∧
    (0x4014 : Word).toNat = 0x4014 ∧ (0x4018 ≤ (0x4018 : Word).toNat ∧ (0x401F : Word).toNat ≤ 0x401F) ∧
    (0x4000 ≤ (0x4000 : Word).toNat ∧ (0x4017 : Word).toNat ≤ 0x4017 ∧ (0x4013 : Word).toNat ≠ 0x4014 ∧
      (0x4015 : Word).toNat ≠ 0x4014) ∧
    (0x4020 ≤ (0x4020 : Word).toNat ∧ 0x4020 ≤ (0xFFFF : Word).toNat) ∧
    State.reset.ext = .absent ∧ ({ State.reset with ext := .attached [1] } : State).ext = .attached [1] ∧
    State.reset.cart = .fixture [] [] .vertical ∧ ({ State.reset with cart := .mapper [1] } : State).cart = .mapper [1] := by
  decide

theorem test_witness_OamDmaCopiesThePage :
    (let s := { midFrame with a := 0x1F }
    Memory.wf 256 s.ppu.oam = true ∧ ∀ i, i < 256 → Plain s (BitVec.ofNat 16 (256 * s.a.toNat + i))) ∧
    (let s := { midFrame with a := 0xFF }
    Memory.wf 256 s.ppu.oam = true ∧ ∀ i, i < 256 → Plain s (BitVec.ofNat 16 (256 * s.a.toNat + i))) := by
  refine ⟨⟨by decide, fun i h => .inl ?_⟩, by decide, fun i h => .inr ⟨?_, rfl⟩⟩
  · simp; omega
  · simp; omega

/-- Each PPU register at its first and its last mirror, the toggle both ways, OAM in form. -/
theorem test_witness_ppu_registers :
    (∀ k, k < 8 → 0x2000 ≤ (0x2000 + BitVec.ofNat 16 k : Word).toNat ∧ (0x3FF8 + BitVec.ofNat 16 k : Word).toNat ≤ 0x3FFF ∧
      (0x2000 + BitVec.ofNat 16 k : Word).toNat % 8 = k ∧ (0x3FF8 + BitVec.ofNat 16 k : Word).toNat % 8 = k) ∧
    State.reset.ppu.w = false ∧ (withPpu fun p => { p with w := true }).ppu.w = true ∧
    Memory.wf 256 midFrame.ppu.oam = true := by decide

/-- The data port at both ends of each range of the PPU's space, with each cartridge kind. -/
theorem test_witness_data_port :
    (0x1FFF : BitVec 15).toNat % 0x4000 < 0x2000 ∧ (0x5FFF : BitVec 15).toNat % 0x4000 < 0x2000 ∧
    (0x2000 ≤ (0x2000 : BitVec 15).toNat % 0x4000 ∧ (0x3EFF : BitVec 15).toNat % 0x4000 < 0x3F00) ∧
    (0x3F00 ≤ (0x3F00 : BitVec 15).toNat % 0x4000 ∧ 0x3F00 ≤ (0x7FFF : BitVec 15).toNat % 0x4000) ∧
    (BitVec.ofNat 14 ((0x1FFF : BitVec 15).toNat % 0x4000)).toNat < 0x3F00 ∧
    0x3F00 ≤ (BitVec.ofNat 14 ((0x7FFF : BitVec 15).toNat % 0x4000)).toNat ∧
    State.reset.cart = .fixture [] [] .vertical ∧ State.reset.cart.isFixture = true := by decide

theorem test_witness_VramMirrors :
    (0x3F00 ≤ (0x3F00 : PpuAddr).toNat ∧ 0x3F00 ≤ (0x3FFF : PpuAddr).toNat) ∧
    (0x2000 ≤ (0x2000 : PpuAddr).toNat ∧ (0x3EFF : PpuAddr).toNat < 0x3F00 ∧ (0x2EFF : PpuAddr).toNat < 0x2F00) ∧
    (midFrame.cart = .fixture [] [] .vertical ∧ (0x1FFF : PpuAddr).toNat < 0x2000) ∧
    midFrame.cart.isFixture = true ∧ Inv midFrame ∧
    vramPeek midFrame 0x2001 ≠ vramPeek (vramWrite 0x2801 5 midFrame) 0x2001 := by
  refine ⟨by decide, by decide, by decide, rfl, test_witness_StepKeepsTheInvariant.1, by decide +kernel⟩

theorem test_witness_ScrollAdvances :
    (6 : BitVec 3).toNat ≠ 7 ∧ (7 : BitVec 3).toNat = 7 ∧ (0x6FFF : BitVec 15).toNat / 4096 < 7 ∧
      (0x7000 : BitVec 15).toNat / 4096 = 7 := by decide

theorem test_witness_IrqIsDroppedOrEntered :
    (let s := { State.reset with p := 0x04, inputs := [.irq] }
    s.faulted = false ∧ s.inputs = .irq :: [] ∧ getFlag s.p .i = true) ∧
    (let s := { State.reset with phase := .vblank 7, inputs := [.irq, .run] }
    s.faulted = false ∧ s.inputs = .irq :: [.run] ∧ getFlag s.p .i = false) := by decide

theorem test_witness_FrameBeginsAsStated :
    let s := { State.reset with inputs := [.drawFrame] }
    s.phase = .idle ∧ s.inputs = .drawFrame :: [] := ⟨rfl, rfl⟩

/-- A budget just spent, on a line that has a next one and on the last one, where `run` is listed, and a budget broken
off. -/
theorem test_witness_VisibleLineEndsWithItsDrawing :
    (let s := { State.reset with cycles := 120, phase := .visible 238 7 }
    GoesOn s ∧ s.phase = .visible 238 7 ∧ ¬RunsNow s) ∧
    (let s := { State.reset with cycles := 120, phase := .visible 239 7, inputs := [.run] }
    GoesOn s ∧ s.phase = .visible 239 7 ∧ ¬RunsNow s) ∧
    (let s := { State.reset with faulted := true, phase := .visible 0 7 }
    GoesOn s ∧ s.phase = .visible 0 7 ∧ ¬RunsNow s) :=
  ⟨⟨.inl rfl, rfl, not_runs_of_budget (.inl ⟨238, rfl, by decide⟩)⟩,
    ⟨.inr rfl, rfl, not_runs_of_budget (.inl ⟨239, rfl, by decide⟩)⟩, ⟨.inl rfl, rfl, fun h => Bool.noConfusion h.2.1⟩⟩

theorem test_witness_VblankBeginsAndEnds :
    (let s := { State.reset with cycles := 121, phase := .postRender 7 }
    GoesOn s ∧ ¬RunsNow s ∧ s.phase = .postRender 7 ∧ s.ppu.ctrl0.getLsbD 7 = false) ∧
    (let s := { State.reset with cycles := 121, phase := .postRender 7, ppu := { Ppu.reset with ctrl0 := 0x80 } }
    GoesOn s ∧ ¬RunsNow s ∧ s.phase = .postRender 7 ∧ s.ppu.ctrl0.getLsbD 7 = true ∧ s.faulted = false) ∧
    (let s := { State.reset with cycles := 2267, phase := .vblank 7, inputs := [.run] }
    GoesOn s ∧ ¬RunsNow s ∧ s.phase = .vblank 7) :=
  ⟨⟨.inl rfl, not_runs_of_budget (.inr (.inl ⟨rfl, by decide⟩)), rfl, by decide⟩,
    ⟨.inl rfl, not_runs_of_budget (.inr (.inl ⟨rfl, by decide⟩)), rfl, by decide, rfl⟩,
    ⟨.inr rfl, not_runs_of_budget (.inr (.inr ⟨rfl, by decide⟩)), rfl⟩⟩

/-- Both renderers on, both off, and each alone; a hit that shows. -/
theorem test_witness_DrawnLineKeepsItsPromises :
    let hit := scene 0x1E [(0, 9), (1, 1), (3, 16)]
    fbWf hit.ppu.fb = true ∧ infoWf hit.ppu.info = true ∧
      (drawScanline 10 hit).ppu.status.getLsbD 6 = true ∧ hit.ppu.ctrl1.getLsbD 4 = true ∧
      (midFrame.ppu.ctrl1.getLsbD 3 = false ∧ midFrame.ppu.ctrl1.getLsbD 4 = false ∧
        midFrame.ppu.status.getLsbD 6 = true) := by decide +kernel

/-- Sprites off: a clipped column, a transparent one and a shown one. -/
theorem test_witness_BackgroundPixels :
    let s := scene 0x0A []
    let clipped := scene 0x08 []
    s.cfg.paletteTiming = .frameStart ∧ { Config.reference with paletteTiming := .live }.paletteTiming = .live ∧
      fbWf s.ppu.fb = true ∧ infoWf s.ppu.info = true ∧ s.ppu.ctrl1.getLsbD 3 = true ∧ s.ppu.ctrl1.getLsbD 4 = false ∧
      infoAt (drawScanline 10 s) 10 0 = 1 ∧ infoAt (drawScanline 10 s) 10 255 = 0 ∧
      (clipped.ppu.ctrl1.getLsbD 1 = false ∧ infoAt (drawScanline 10 clipped) 10 7 = 0 ∧
        infoAt (drawScanline 10 clipped) 10 8 = 1) := by decide +kernel

/-- A sprite pixel over a shown background: the clause that draws it; a column off the right edge; a claimed dot. -/
theorem test_witness_SpritePixels :
    let s := scene 0x1E []
    let b := lineBackground s
    let sp : Sprite := { y := 9, tile := 1, attr := 0, x := 16 }
    b.dots.length = 256 ∧ (0 : Nat) < 8 ∧ (7 : Nat) < (if s.ppu.ctrl0.getLsbD 5 then 16 else 8) ∧
      (b.dots[16]?.map Dot.info) = some 1 ∧ ((255 : Byte).toNat + 1 = 256) ∧
      ((drawSprite s 0 sp 0 b).dots[16]?.map Dot.info) = some 3 ∧ (drawSprite s 0 sp 0 b).s0 = true := by decide +kernel

/-- Sprites on, over the background and over the fill: a column that sprite 0 owns, one that sprite 1 owns, one that no
sprite owns. -/
theorem test_witness_SpritesAreDrawnInOrder :
    (let s := scene 0x1E [(0, 9), (1, 1), (3, 16), (4, 9), (5, 1), (7, 20)]
    fbWf s.ppu.fb = true ∧ infoWf s.ppu.info = true ∧ s.ppu.ctrl1.getLsbD 4 = true ∧ s.ppu.ctrl1.getLsbD 3 = true ∧
      0 ∈ drawnSprites s 10 ∧ spriteValueAt s 10 0 16 = 1 ∧
      [16, 23, 24, 27, 28].map (fun sx => (drawnSprites s 10).find? fun i => decide (spriteValueAt s 10 i sx ≠ 0)) =
        [some 0, some 0, some 1, some 1, none] ∧
      infoAt (drawScanline 10 { s with ppu := { s.ppu with ctrl1 := s.ppu.ctrl1 &&& 0xEF } }) 10 16 = 1) ∧
    (scene 0x16 []).ppu.ctrl1.getLsbD 3 = false := by decide +kernel

/-- Parameters that change one cost: at its opcode and at another. -/
theorem test_witness_StepRunsTheDecodedInstruction_cycles :
    let c := { Config.reference with baseCycles := [(0xEA, 9)], unknownOpCycles := [(0x02, 9)], unknownOpLength := [(0x02, .two)] }
    (∀ e ∈ c.baseCycles, e.1 ≠ 0x69) ∧ (∀ e ∈ c.unknownOpCycles, e.1 ≠ 0xFF) ∧ (∀ e ∈ c.unknownOpLength, e.1 ≠ 0xFF) ∧
      c.baseCycles = (0xEA, 9) :: [] ∧ c.unknownOpCycles = (0x02, 9) :: [] ∧ (0x69 : Byte) ∉ unknownOpcodes ∧
      (0x02 : Byte) ∈ unknownOpcodes := by decide

end Sys2Proof.Tests
end

section
/-! PROOFS. What an instruction can change (10_state R16 to R21, R34), said once for every instruction: the effects of
its bus accesses, and the registers and flags its row of the tables names. -/

namespace Sys2Proof.Machine

/-! ## Bus accesses -/

/-- What bus accesses and charges do: only what a bus write may change, and the invariant is kept. -/
structure BusEffect (s u : State) : Prop where
  frame : WriteFrame s u
  inv : Inv s → Inv u

theorem BusEffect.refl (s : State) : BusEffect s s := ⟨.refl s, id⟩

theorem BusEffect.trans {s t u : State} (h : BusEffect s t) (k : BusEffect t u) : BusEffect s u :=
  ⟨h.frame.trans k.frame, fun i => k.inv (h.inv i)⟩

theorem read8_busEffect (a : Word) (s : State) : BusEffect s (read8 a s).2 :=
  ⟨(read8_frame a s).toWrite, fun h => h.read8 a⟩

theorem readOperand_busEffect (m : SrcForm) (s : State) : BusEffect s (readOperand m s).2 := by
  refine ⟨?_, fun h => h.readOperand m⟩
  have f : WriteFrame s { (readOperand m s).2 with cycles := s.cycles } := (readOperand_frame m s).toWrite
  exact f.trans ⟨rfl⟩

theorem storeOperand_busEffect (m : MemForm) (v : Byte) (s : State) : BusEffect s (storeOperand m v s) := by
  rw [storeOperand_eq]
  exact ⟨write8_frame _ v s, fun h => h.write8 _ v⟩

theorem indirectTarget_busEffect (w : Word) (s : State) : BusEffect s (indirectTarget w s).2 := by
  unfold indirectTarget
  split
  · exact ⟨(readPair_frame _ _ s).toWrite, fun h => h.readPair _ _⟩
  · exact ⟨(read16_frame _ s).toWrite, fun h => h.read16 _⟩

theorem charge_busEffect (n : Nat) (s : State) : BusEffect s (charge n s) :=
  ⟨charge_writeFrame n s, fun h => h.charge n⟩

/-- A write of RAM that keeps its canonical form. -/
theorem ram_busEffect {s : State} {m : Memory} (h : Memory.wf 2048 s.ram = true → Memory.wf 2048 m = true) :
    BusEffect s { s with ram := m } :=
  ⟨⟨rfl⟩, fun k => ⟨k.held, h k.ram, k.ppu, k.cart, k.phase, k.inputs, k.faulted⟩⟩

/-- A write made with another P, apart from that P. -/
theorem write8_withP_busEffect (e : Word) (v : Byte) {u : State} {p : Byte} (hp : heldBits p = heldBits u.p) :
    BusEffect u { write8 e v { u with p := p } with p := u.p } := by
  have w := write8_frame e v { u with p := p }
  have wi : Inv u → Inv (write8 e v { u with p := p }) := fun h =>
    (h.congr hp rfl rfl rfl rfl rfl rfl : Inv { u with p := p }).write8 e v
  generalize write8 e v { u with p := p } = t at w wi ⊢
  refine ⟨⟨congrArg (fun z : State => { z with p := u.p }) w.eq⟩, fun h => ?_⟩
  exact (wi h).congr (by rw [w.p]; exact hp.symm) rfl rfl rfl rfl rfl rfl

/-- A read-modify-write, apart from what it makes of P. -/
theorem modifyMemory_busEffect (m : MemForm) {f : Byte → Byte → Byte × Byte}
    (hf : ∀ v p, heldBits (f v p).2 = heldBits p) (s : State) :
    BusEffect s { modifyMemory m f s with p := s.p } := by
  rw [modifyMemory_eq]
  have r := read8_busEffect (effAddr m s).addr s
  have hp : heldBits (f (read8 (effAddr m s).addr s).1 s.p).2 = heldBits (read8 (effAddr m s).addr s).2.p := by
    rw [r.frame.p, hf]
  have k := write8_withP_busEffect (effAddr m s).addr (f (read8 (effAddr m s).addr s).1 s.p).1 hp
  rw [r.frame.p] at k
  exact r.trans k

/-! ## Status bytes -/

/-- What an instruction may make of P: its tabled flags (10_state R21), the held bits staying 0 (R20). -/
structure StatusKept (i : Instr) (p q : Byte) : Prop where
  flags : ∀ f, f ∉ flagsWritten i → getFlag q f = getFlag p f
  held : heldBits p = 0 → heldBits q = 0

theorem StatusKept.refl (i : Instr) (p : Byte) : StatusKept i p p := ⟨fun _ _ => rfl, id⟩

theorem FlagsKept.status {i : Instr} {p q : Byte} (h : FlagsKept (flagsWritten i) p q) : StatusKept i p q :=
  ⟨h.1, fun k => h.2.trans k⟩

/-- A pulled status byte, where every flag is written. -/
theorem statusKept_pulled {i : Instr} (hi : flagsWritten i = [.c, .z, .i, .d, .v, .n]) (p b : Byte) :
    StatusKept i p (pulledStatus b) := by
  refine ⟨fun f hf => ?_, fun _ => heldBits_pulledStatus b⟩
  rw [hi] at hf
  cases f <;> simp at hf

/-! ## Instructions -/

/-- The registers but the tabled ones are kept (10_state R16 to R18). -/
structure RegsKept (i : Instr) (s t : State) : Prop where
  a : writesA i = false → t.a = s.a := by exact fun _ => rfl
  x : writesX i = false → t.x = s.x := by exact fun _ => rfl
  y : writesY i = false → t.y = s.y := by exact fun _ => rfl
  sp : writesSp i = false → t.sp = s.sp := by exact fun _ => rfl
  pc : setsPc i = false → t.pc = s.pc := by exact fun _ => rfl

/-- All that an instruction can do: bus accesses, and the registers and flags that its rows of the tables name. -/
structure InstrEffect (i : Instr) (s t : State) : Prop where
  /-- But for the registers, only what a bus write may change is changed. -/
  frame : WriteFrame s { t with a := s.a, x := s.x, y := s.y, sp := s.sp, pc := s.pc, p := s.p }
  regs : RegsKept i s t
  status : StatusKept i s.p t.p
  inv : Inv s → Inv t

section
variable {i : Instr} {s u t : State}

/-- Bus accesses, and then writes of tabled registers and flags. -/
theorem InstrEffect.of_bus (hu : BusEffect s u)
    (ht : t = { u with a := t.a, x := t.x, y := t.y, sp := t.sp, pc := t.pc, p := t.p })
    (hr : RegsKept i u t) (hp : StatusKept i u.p t.p) : InstrEffect i s t := by
  have f := hu.frame
  refine ⟨?_, ⟨fun h => (hr.a h).trans f.a, fun h => (hr.x h).trans f.x, fun h => (hr.y h).trans f.y,
    fun h => (hr.sp h).trans f.sp, fun h => (hr.pc h).trans f.pc⟩, f.p ▸ hp, fun h => ?_⟩
  · have e : ({ t with a := s.a, x := s.x, y := s.y, sp := s.sp, pc := s.pc, p := s.p } : State) = u := by
      rw [ht, ← f.a, ← f.x, ← f.y, ← f.sp, ← f.pc, ← f.p]
    rw [e]; exact f
  · have k := hu.inv h
    refine k.congr ((hp.held k.held).trans k.held.symm) ?_ ?_ ?_ ?_ ?_ ?_ <;> rw [ht]

/-- Bus accesses alone. -/
theorem BusEffect.instr (h : BusEffect s u) (i : Instr) : InstrEffect i s u :=
  .of_bus h rfl {} (.refl i _)

/-! ## Writes of registers and flags, and memory -/

theorem setA_instrEffect (h : BusEffect s u) (hi : writesA i = true) (hf : flagsWritten i = [.z, .n]) (r : Byte) :
    InstrEffect i s (setA r u) :=
  .of_bus h rfl { a := fun k => Bool.noConfusion (k.symm.trans hi) }
    (FlagsKept.status (hf ▸ flagsKept_setNZ r u.p))

theorem setX_instrEffect (h : BusEffect s u) (hi : writesX i = true) (hf : flagsWritten i = [.z, .n]) (r : Byte) :
    InstrEffect i s (setX r u) :=
  .of_bus h rfl { x := fun k => Bool.noConfusion (k.symm.trans hi) }
    (FlagsKept.status (hf ▸ flagsKept_setNZ r u.p))

theorem setY_instrEffect (h : BusEffect s u) (hi : writesY i = true) (hf : flagsWritten i = [.z, .n]) (r : Byte) :
    InstrEffect i s (setY r u) :=
  .of_bus h rfl { y := fun k => Bool.noConfusion (k.symm.trans hi) }
    (FlagsKept.status (hf ▸ flagsKept_setNZ r u.p))

theorem setArith_instrEffect (h : BusEffect s u) (hi : writesA i = true) (hf : flagsWritten i = [.c, .z, .v, .n])
    (q : ArithResult) : InstrEffect i s (setArith q u) :=
  .of_bus h rfl { a := fun k => Bool.noConfusion (k.symm.trans hi) }
    (FlagsKept.status (hf ▸ flagsKept_arithFlags q u.p))

theorem updateP_instrEffect (h : BusEffect s u) {g : Byte → Byte} (hg : FlagsKept (flagsWritten i) u.p (g u.p)) :
    InstrEffect i s (updateP g u) :=
  .of_bus h rfl {} hg.status

theorem setFlagOf_instrEffect {f : Flag} (hf : flagsWritten i = [f]) (b : Bool) (s : State) :
    InstrEffect i s (setFlagOf f b s) :=
  updateP_instrEffect (.refl s) (g := fun p => setFlag p f b) (hf ▸ flagsKept_setFlag s.p f b)

theorem push8_instrEffect (hi : writesSp i = true) (b : Byte) (s : State) : InstrEffect i s (push8 b s) := by
  rw [push8_pushRam]
  exact .of_bus (ram_busEffect (pushRam_wf [b] s.sp)) rfl { sp := fun k => Bool.noConfusion (k.symm.trans hi) }
    (.refl i _)

theorem modifyMemory_instrEffect (m : MemForm) {f : Byte → Byte → Byte × Byte}
    (hf : ∀ v p, FlagsKept (flagsWritten i) p (f v p).2) (s : State) : InstrEffect i s (modifyMemory m f s) := by
  have hp : (modifyMemory m f s).p = (f (read8 (effAddr m s).addr s).1 s.p).2 := by
    rw [modifyMemory_eq, (write8_frame _ _ _).p]
  exact .of_bus (modifyMemory_busEffect m (fun v p => (hf v p).2) s) rfl {} (by rw [hp]; exact (hf _ _).status)

/-- The read-modify-writes that show Z and N of what they write. -/
theorem modifyMemory_setNZ_instrEffect (hf : flagsWritten i = [.z, .n]) (m : MemForm) (g : Byte → Byte) (s : State) :
    InstrEffect i s (modifyMemory m (fun v p => (g v, setNZ (g v) p)) s) :=
  modifyMemory_instrEffect m (f := fun v p => (g v, setNZ (g v) p)) (fun v p => hf ▸ flagsKept_setNZ (g v) p) s

theorem shiftOperand_instrEffect {m : ShiftMode} (ha : writesA i = decide (m = .acc))
    (hf : flagsWritten i = [.c, .z, .n]) (f : Byte → Bool → CarryResult) (s : State) :
    InstrEffect i s (shiftOperand f m.rmw s) := by
  have mem (m : MemForm) : InstrEffect i s (shiftOperand f (.mem m) s) :=
    modifyMemory_instrEffect m (f := fun v p => ((f v (getFlag p .c)).r, shiftFlags (f v (getFlag p .c)) p))
      (fun v p => by rw [hf]; exact flagsKept_shiftFlags _ p) s
  cases m with
  | acc =>
    exact .of_bus (.refl s) rfl { a := fun k => Bool.noConfusion (k.symm.trans ha) }
      (FlagsKept.status (hf ▸ flagsKept_shiftFlags _ s.p))
  | zp b | zpx b | abs w | absx w => exact mem _

theorem setPc_instrEffect (h : BusEffect s u) (hi : setsPc i = true) (w : Word) :
    InstrEffect i s { u with pc := w } :=
  .of_bus h rfl { pc := fun k => Bool.noConfusion (k.symm.trans hi) } (.refl i _)

/-! ## Control transfer, the stack and the status -/

theorem branch_instrEffect (hi : setsPc i = true) (taken : Bool) (off : Byte) (s : State) :
    InstrEffect i s (branch taken off s) := by
  cases taken with
  | false => exact (BusEffect.refl s).instr i
  | true => exact setPc_instrEffect (charge_busEffect _ s) hi _

theorem execJmp_instrEffect (m : JmpMode) (s : State) :
    ∃ t, execJmp m s = .next t ∧ InstrEffect (.jmp m) s t := by
  cases m with
  | abs w => exact ⟨_, rfl, setPc_instrEffect (.refl s) rfl w⟩
  | ind w => exact ⟨_, rfl, setPc_instrEffect (indirectTarget_busEffect w s) rfl _⟩

theorem execJsr_instrEffect (w : Word) (s : State) : InstrEffect (.jsr w) s { push16 (s.pc - 1) s with pc := w } := by
  rw [push16_pushRam]
  exact .of_bus (ram_busEffect (pushRam_wf _ s.sp)) rfl { sp := nofun, pc := nofun } (.refl _ _)

theorem execRts_instrEffect (s : State) :
    InstrEffect .rts s { (pull16 s).2 with pc := (pull16 s).1 + 1 } := by
  rw [pull16_eq]
  exact .of_bus (.refl s) rfl { sp := nofun, pc := nofun } (.refl _ _)

theorem returnFromInterrupt_instrEffect (s : State) : InstrEffect .rti s (returnFromInterrupt s) := by
  simp only [returnFromInterrupt, pull8_eq, pull16_eq]
  exact .of_bus (.refl s) rfl { sp := nofun, pc := nofun } (statusKept_pulled rfl _ _)

theorem breakEntry_instrEffect (s : State) : InstrEffect .brk s (breakEntry s) := by
  obtain ⟨e, -, -, -, hp, -⟩ :=
    enterInterrupt_effect (s.pc + 1) (breakImage s.p) irqVector s (by decide) (by decide)
  have hi : Inv s → Inv (breakEntry s) := fun h => h.enterInterrupt _ _ _
  change breakEntry s = { s with
    ram := (breakEntry s).ram, sp := s.sp - 3, p := (breakEntry s).p, pc := (breakEntry s).pc,
    cart := (breakEntry s).cart } at e
  change FlagsKept [.i] s.p (breakEntry s).p at hp
  generalize breakEntry s = t at e hp hi ⊢
  have hu : BusEffect s { s with ram := t.ram, cart := t.cart } := by
    refine ⟨⟨rfl⟩, fun h => (hi h).congr hp.2.symm rfl ?_ rfl ?_ ?_ ?_⟩ <;> rw [e]
  refine .of_bus hu ?_ ⟨fun _ => ?_, fun _ => ?_, fun _ => ?_, nofun, nofun⟩ (FlagsKept.status hp) <;> rw [e]

theorem execPla_instrEffect (s : State) : InstrEffect .pla s (setA (pull8 s).1 (pull8 s).2) := by
  rw [pull8_eq]
  exact .of_bus (.refl s) rfl { a := nofun, sp := nofun } (FlagsKept.status (flagsKept_setNZ _ s.p))

theorem execPlp_instrEffect (s : State) : InstrEffect .plp s { (pull8 s).2 with p := pulledStatus (pull8 s).1 } := by
  rw [pull8_eq]
  exact .of_bus (.refl s) rfl { sp := nofun } (statusKept_pulled rfl _ _)

theorem execTxs_instrEffect (s : State) : InstrEffect .txs s { s with sp := s.x } :=
  .of_bus (.refl s) rfl { sp := nofun } (.refl _ _)

end

/-- Every instruction answers a next state, and does no more than its rows of the tables say. -/
theorem exec_next (i : Instr) (s : State) : ∃ t, exec i s = .next t ∧ InstrEffect i s t := by
  cases i with
  | lda m => exact ⟨_, rfl, setA_instrEffect (readOperand_busEffect _ s) rfl rfl _⟩
  | ldx m => exact ⟨_, rfl, setX_instrEffect (readOperand_busEffect _ s) rfl rfl _⟩
  | ldy m => exact ⟨_, rfl, setY_instrEffect (readOperand_busEffect _ s) rfl rfl _⟩
  | sta m => exact ⟨_, rfl, (storeOperand_busEffect m.mem s.a s).instr _⟩
  | stx m => exact ⟨_, rfl, (storeOperand_busEffect m.mem s.x s).instr _⟩
  | sty m => exact ⟨_, rfl, (storeOperand_busEffect m.mem s.y s).instr _⟩
  | tax | tsx | inx | dex => exact ⟨_, rfl, setX_instrEffect (.refl s) rfl rfl _⟩
  | tay | iny | dey => exact ⟨_, rfl, setY_instrEffect (.refl s) rfl rfl _⟩
  | txa | tya => exact ⟨_, rfl, setA_instrEffect (.refl s) rfl rfl _⟩
  | txs => exact ⟨_, rfl, execTxs_instrEffect s⟩
  | adc m | sbc m => exact ⟨_, rfl, setArith_instrEffect (readOperand_busEffect _ s) rfl rfl _⟩
  | and m | ora m | eor m => exact ⟨_, rfl, setA_instrEffect (readOperand_busEffect _ s) rfl rfl _⟩
  | cmp m | cpx m | cpy m =>
    exact ⟨_, rfl, updateP_instrEffect (readOperand_busEffect _ s) (flagsKept_compareFlags _ _ _)⟩
  | bit m => exact ⟨_, rfl, updateP_instrEffect (readOperand_busEffect _ s) (flagsKept_bitFlags _ _ _)⟩
  | inc m => exact ⟨_, rfl, modifyMemory_setNZ_instrEffect rfl m.mem (· + 1) s⟩
  | dec m => exact ⟨_, rfl, modifyMemory_setNZ_instrEffect rfl m.mem (· - 1) s⟩
  | asl m | lsr m | rol m | ror m => exact ⟨_, rfl, shiftOperand_instrEffect rfl rfl _ s⟩
  | jmp m => exact execJmp_instrEffect m s
  | jsr w => exact ⟨_, rfl, execJsr_instrEffect w s⟩
  | rts => exact ⟨_, rfl, execRts_instrEffect s⟩
  | rti => exact ⟨_, rfl, returnFromInterrupt_instrEffect s⟩
  | bcc off | bcs off | beq off | bmi off | bne off | bpl off | bvc off | bvs off =>
    exact ⟨_, rfl, branch_instrEffect rfl _ off s⟩
  | brk => exact ⟨_, rfl, breakEntry_instrEffect s⟩
  | pha | php => exact ⟨_, rfl, push8_instrEffect rfl _ s⟩
  | pla => exact ⟨_, rfl, execPla_instrEffect s⟩
  | plp => exact ⟨_, rfl, execPlp_instrEffect s⟩
  | clc | cld | cli | clv | sec | sed | sei => exact ⟨_, rfl, setFlagOf_instrEffect rfl _ s⟩
  | nop => exact ⟨_, rfl, (BusEffect.refl s).instr _⟩
  | unknown op => exact ⟨_, rfl, setPc_instrEffect (charge_busEffect _ s) rfl _⟩

theorem exec_instrEffect {i : Instr} {s t : State} (h : exec i s = .next t) : InstrEffect i s t := by
  obtain ⟨u, hu, e⟩ := exec_next i s
  cases hu.symm.trans h
  exact e

/-- Settles O14: an instruction's effects are those of bus writes and of the registers, and neither reaches there. -/
theorem instructionsLeaveTheFrameAlone : Obligations.InstructionsLeaveTheFrameAlone := by
  unfold Obligations.InstructionsLeaveTheFrameAlone
  intro i s t h
  have f := (exec_instrEffect h).frame
  exact ⟨f.fb, f.info, f.paletteCache, f.scanline, f.phase, f.inputs, f.cfg, f.faulted⟩

/-- Settles O15, from what every instruction makes of P. -/
theorem flagsWrittenOnlyAsTabled : Obligations.FlagsWrittenOnlyAsTabled := by
  unfold Obligations.FlagsWrittenOnlyAsTabled
  intro i s t h
  have k := (exec_instrEffect h).status
  exact ⟨k.flags, k.held⟩

/-- Settles O16, from what every instruction makes of the registers. -/
theorem registersWrittenOnlyAsTabled : Obligations.RegistersWrittenOnlyAsTabled := by
  unfold Obligations.RegistersWrittenOnlyAsTabled
  intro i s t h
  have k := (exec_instrEffect h).regs
  exact ⟨k.a, k.x, k.y, k.sp, k.pc⟩

end Sys2Proof.Machine
end

section
/-! PROOFS. What drawing a line leaves (10_state R34; 61_ppu_oam R187, R188, R192). -/

namespace Sys2Proof.Machine

/-- A column of a drawn line holds a well-formed dot of the line, which the buffers show. -/
theorem drawScanline_column {s : State} (hf : fbWf s.ppu.fb = true) (hi : infoWf s.ppu.info = true) (line : Nat)
    {sx : Nat} (h : sx < 256) :
    ∃ d, (lineSprites s line).1.dots[sx]? = some d ∧ d.ok ∧
      lastFrame (drawScanline line s) line sx = d.px ∧ infoAt (drawScanline line s) line sx = d.info := by
  have ok := lineSprites_ok s line
  have hd := List.getElem?_eq_getElem (h.trans_eq ok.length.symm)
  exact ⟨_, hd, ok.dots _ (List.getElem_mem _), drawScanline_dot hf hi line hd⟩

/-- With both renderers off, every dot of the line is the universal colour, unmarked (R187). -/
theorem lineSprites_off {s : State} (hb : s.ppu.bgEnabled = false) (hs : s.ppu.spritesEnabled = false) (line : Nat) :
    (lineSprites s line).1.dots = List.replicate 256 (blankDot s) := by
  rw [lineSprites, if_neg (Bool.eq_false_iff.mp hs)]
  exact if_neg (Bool.eq_false_iff.mp hb)

/-- The sprite-0 hit of a line with the sprites off is the one before it. -/
theorem lineSprites_s0_off {s : State} (hs : s.ppu.spritesEnabled = false) (line : Nat) :
    (lineSprites s line).1.s0 = s.ppu.status.getLsbD 6 := by
  rw [lineSprites, if_neg (Bool.eq_false_iff.mp hs)]
  rfl

/-- With the sprites on, a line's sprite-0 hit is the one before it, or a sprite dot on the background (R192). -/
theorem lineSprites_s0_on {s : State} (hs : s.ppu.spritesEnabled = true) (line : Nat) :
    (lineSprites s line).1.s0 = true ↔
      s.ppu.status.getLsbD 6 = true ∨ (0 ∈ drawnSprites s line ∧
        ∃ k d, (lineBackground s).dots[k]? = some d ∧ hits (spriteValueOn s line 0 k) d) := by
  simp only [lineSprites, hs, if_true, renderSprites_eq]
  exact drawnSprites_s0 s line (lineBackground s)

/-- Without the background, no dot is opaque background (R187). -/
theorem not_hits_of_bg_off {s : State} (hb : s.ppu.bgEnabled = false) {k : Nat} {d : Dot} {p : Byte}
    (h : (lineBackground s).dots[k]? = some d) : ¬hits p d := by
  have hm : d ∈ (lineBackground s).dots := List.mem_of_getElem? h
  rw [lineBackground, backgroundLine, if_neg (Bool.eq_false_iff.mp hb)] at hm
  rw [List.eq_of_mem_replicate hm]
  exact fun k => absurd k.2.2 (by simp [blankDot])

/-- A line never clears the sprite-0 hit. -/
theorem lineSprites_s0_of_status {s : State} (h : s.ppu.status.getLsbD 6 = true) (line : Nat) :
    (lineSprites s line).1.s0 = true := by
  cases hs : s.ppu.spritesEnabled with
  | false => rw [lineSprites_s0_off hs, h]
  | true => exact (lineSprites_s0_on hs line).mpr (.inl h)

/-- A line sets the sprite-0 hit with both renderers on alone (R192). -/
theorem status_of_lineSprites_s0 {s : State} {line : Nat} (h : (lineSprites s line).1.s0 = true) :
    s.ppu.status.getLsbD 6 = true ∨ (s.ppu.bgEnabled = true ∧ s.ppu.spritesEnabled = true) := by
  cases hs : s.ppu.spritesEnabled with
  | false => exact .inl ((lineSprites_s0_off hs line).symm.trans h)
  | true =>
    refine ((lineSprites_s0_on hs line).mp h).imp_right fun ⟨_, k, d, hd, hit⟩ => ⟨?_, rfl⟩
    by_contra hb
    exact not_hits_of_bg_off (Bool.eq_false_iff.mpr hb) hd hit

theorem spriteStatus_hit (st : Byte) (s0 ovf : Bool) : (spriteStatus st s0 ovf).getLsbD 6 = s0 := by
  cases s0 <;> cases ovf <;> simp [spriteStatus]

theorem spriteStatus_overflow (st : Byte) (s0 ovf : Bool) : (spriteStatus st s0 ovf).getLsbD 5 = ovf := by
  cases s0 <;> cases ovf <;> simp [spriteStatus]

theorem drawScanline_hit (line : Nat) (s : State) :
    (drawScanline line s).ppu.status.getLsbD 6 = (lineSprites s line).1.s0 := spriteStatus_hit _ _ _

theorem drawScanline_overflow (line : Nat) (s : State) :
    (drawScanline line s).ppu.status.getLsbD 5 = (lineSprites s line).2 := spriteStatus_overflow _ _ _

/-- With the sprites on, a line's overflow says that more than 8 are in range (R188). -/
theorem lineSprites_overflow {s : State} (hs : s.ppu.spritesEnabled = true) (line : Nat) :
    (lineSprites s line).2 = decide (8 < (List.range 64).countP (spriteInRange s line)) := by
  simp only [lineSprites, hs, if_true, renderSprites_eq, List.countP_eq_length_filter]

/-- Settles O57: each promise is one of the line's lemmas, read from the buffers and the status. -/
theorem drawnLineKeepsItsPromises : Obligations.DrawnLineKeepsItsPromises := by
  unfold Obligations.DrawnLineKeepsItsPromises
  intro s line hf hi t
  refine ⟨fun sx h => ?_, fun hb hs sx h => ?_, fun h => ?_, fun h => ?_, fun hs => ?_, fun hs => ?_⟩
  · obtain ⟨d, -, ok, hpx, hinfo⟩ := drawScanline_column hf hi line h
    rw [hpx, hinfo]
    exact ok
  · have hd : (lineSprites s line).1.dots[sx]? = some (blankDot s) := by
      rw [lineSprites_off hb hs, List.getElem?_replicate, if_pos h]
    exact drawScanline_dot hf hi line hd
  · rw [drawScanline_hit]
    exact lineSprites_s0_of_status h line
  · rw [drawScanline_hit] at h
    exact status_of_lineSprites_s0 h
  · rw [drawScanline_overflow, lineSprites, if_neg (Bool.eq_false_iff.mp hs : ¬s.ppu.spritesEnabled = true)]
  · rw [drawScanline_overflow, lineSprites_overflow hs]
    rfl

end Sys2Proof.Machine
end

section
/-! PROOFS. The machine's invariant: it holds at reset and every step keeps it (10_state R20, R30, R34, R37); and the
machine that is stopped (40_execution_and_addressing R86). -/

namespace Sys2Proof.Machine

section
variable {s t : State}

theorem Inv.afterInput (h : Inv s) : Inv (afterInput s) :=
  ⟨h.held, h.ram, h.ppu, h.cart, h.phase, fun i hi => h.inputs i (List.mem_of_mem_tail hi), h.faulted⟩

theorem Inv.runInstr (h : Inv s) (hr : runInstr s = .next t) : Inv t := (exec_instrEffect hr).inv h.fetch

/-- The invariant looks at where a frame stands for its line alone. -/
theorem Inv.withPhase (h : Inv s) {f : FramePhase} (hf : f.wf = true) : Inv { s with phase := f } :=
  ⟨h.held, h.ram, h.ppu, h.cart, hf, h.inputs, h.faulted⟩

theorem PpuInv.withScanline {p : Ppu} (h : PpuInv p) {line : Nat} (hl : line < 240) :
    PpuInv { p with scanline := line } :=
  ⟨h.status, hl, h.oam, h.palette, h.paletteCache, h.nt, h.fb, h.info⟩

theorem PpuInv.setVbl {p : Ppu} (h : PpuInv p) (b : Bool) : PpuInv (p.setVbl b) := by
  refine ⟨?_, h.scanline, h.oam, h.palette, h.paletteCache, h.nt, h.fb, h.info⟩
  cases b with
  | true => exact setVbl_low _ h.status
  | false => exact clearVbl_low _ h.status

theorem PpuInv.afterReset {p : Ppu} (h : PpuInv p) : PpuInv p.afterReset :=
  ⟨BitVec.zero_and, Nat.succ_pos 239, h.oam, h.palette, h.paletteCache, h.nt, rfl, rfl⟩

theorem Inv.withPpu (h : Inv s) {p : Ppu} (hp : PpuInv p) : Inv { s with ppu := p } := h.withPpuCart hp h.cart rfl

theorem Inv.endVisible (h : Inv s) {line : Nat} (hl : line < 240) : Inv (endVisible line s) := by
  have hd := h.drawScanline hl
  unfold Machine.endVisible
  dsimp only
  split
  · have hl' : line + 1 < 240 := by omega
    exact (hd.withPpu (hd.ppu.withScanline hl')).withPhase (decide_eq_true hl')
  · exact hd.withPhase rfl

theorem Inv.interruptService (h : Inv s) (image : Byte) (vector : Word) :
    Inv (Machine.charge 7 (Machine.enterInterrupt s.pc image vector s)) := (h.enterInterrupt _ _ _).charge 7

theorem Inv.irqService (h : Inv s) : Inv (irqService s) := by
  unfold Machine.irqService
  split
  · exact h
  · exact h.interruptService _ _

theorem Inv.enterVblank (h : Inv s) : Inv (enterVblank s) := by
  have hv := h.withPpu (h.ppu.setVbl true)
  unfold Machine.enterVblank
  dsimp only
  split
  · exact (hv.interruptService _ _).withPhase rfl
  · exact hv.withPhase rfl

theorem Inv.endFrame (h : Inv s) : Inv (endFrame s) := (h.withPpu (h.ppu.setVbl false)).withPhase rfl

theorem Inv.beginFrame (h : Inv s) : Inv (beginFrame s) :=
  have hf := h.frameStart
  (hf.withPpu (hf.ppu.withScanline (line := 0) (by decide))).withPhase (f := .visible 0 s.cycles) rfl

theorem Inv.resetService (h : Inv s) : Inv (resetService s) := by
  have k : Inv { s with
      a := 0, x := 0, y := 0, p := 0x00, sp := 0xFD, cycles := 0, ppu := s.ppu.afterReset, faulted := false } :=
    ⟨BitVec.zero_and, h.ram, h.ppu.afterReset, h.cart, h.phase, h.inputs, rfl⟩
  exact (k.jumpVector resetVector).charge 7

theorem Inv.withCart (h : Inv s) {c : Cart} (hc : c.wf = true) : Inv { s with cart := c } :=
  h.withPpuCart h.ppu hc rfl

/-- The line of a frame in progress is visible. -/
theorem Inv.line (h : Inv s) {line : Nat} {start : BitVec 64} (hp : s.phase = .visible line start) : line < 240 := by
  have k := h.phase
  rw [hp] at k
  exact of_decide_eq_true k

end

/-- Settles O3: the invariant is kept in each of the cases of a step. -/
theorem stepKeepsTheInvariant : Obligations.StepKeepsTheInvariant := by
  unfold Obligations.StepKeepsTheInvariant
  intro s t h hst
  have ha := h.afterInput
  cases step_cases hst with
  | ran hr => exact ha.runInstr hr
  | stayed e => exact e ▸ ha
  | lineEnd line start hp e => exact e ▸ ha.endVisible (h.line hp)
  | vblank start hp e => exact e ▸ ha.enterVblank
  | frameEnd start hp e => exact e ▸ ha.endFrame
  | irq e => exact e ▸ ha.irqService
  | reset e hp => exact e ▸ ha.resetService
  | frameBegin e hp => exact e ▸ ha.beginFrame
  | cart c hc e => exact e ▸ ha.withCart (h.inputs _ hc)
  | ext x e => exact e ▸ ha.congr rfl rfl rfl rfl rfl rfl rfl

/-- Settles O2: no memory has an entry, and the registers are 0. -/
theorem resetStateMeetsTheInvariant : Obligations.ResetStateMeetsTheInvariant := by
  unfold Obligations.ResetStateMeetsTheInvariant
  have ppu : PpuInv Ppu.reset := ⟨by decide, by decide, rfl, rfl, rfl, rfl, rfl, rfl⟩
  exact ⟨by decide, rfl, ppu, rfl, rfl, nofun, rfl⟩

/-- The step of a machine asked an IRQ delivers it. -/
theorem step_irq {s : State} (h : s.inputs.head? = some .irq) : step s = deliverIrq (afterInput s) := by
  obtain ⟨rest, hi⟩ := List.head?_eq_some_iff.mp h
  simp [step, machineStep, afterInput, hi, takeInput]

/-- The step of an idle machine that goes on is the host's step. -/
theorem GoesOn.step_idle {s : State} (h : GoesOn s) (hp : s.phase = .idle) : step s = hostStep (afterInput s) := by
  rw [h.step_eq, advance, show (afterInput s).phase = .idle from hp]

/-- Settles O11: the host's step and an IRQ both look at the fault bit first, and the host's step then at PC. -/
theorem stoppedMachineRunsNothing : Obligations.StoppedMachineRunsNothing := by
  unfold Obligations.StoppedMachineRunsNothing
  intro s hp
  refine ⟨fun hf h => ?_, fun hf hc h => ?_⟩
  · have hf' : (afterInput s).faulted = true := hf
    rcases h with h | h
    · rw [h.step_idle hp, hostStep, if_pos hf']
    · rw [step_irq h, deliverIrq, if_pos hf']
  · have hf' : ¬(afterInput s).faulted = true := by simp [afterInput, hf]
    have hm : ¬mayContinue (afterInput s) = true := fun k => (mayContinue_iff _).mp k hc
    rw [h.step_idle hp, hostStep, if_neg hf', if_neg hm, afterInput]

end Sys2Proof.Machine
end

section
/-! PROOFS. The CPU bus: which device answers each address (20_memory R45, R46, R48, R49), and the instructions that
leave memory alone (R43, R44). -/

namespace Sys2Proof.Machine

/-! ## The regions of the memory map -/

section
variable {a r : Word} {s : State}

theorem ppuRegAddr_eq (h : r.toNat = 0x2000 + a.toNat % 8) : ppuRegAddr a = r :=
  BitVec.eq_of_toNat_eq ((ppuRegAddr_toNat a).trans h.symm)

theorem eq_dmaAddr (h : a.toNat = 0x4014) : a = 0x4014 := BitVec.eq_of_toNat_eq h

theorem ne_dmaAddr (h : a.toNat ≠ 0x4014) : a ≠ 0x4014 := fun e => h (congrArg BitVec.toNat e)

theorem read8_dma (s : State) : read8 0x4014 s = (0, s) := rfl

/-- A read at one of the addresses of the external device. -/
theorem read8_ext (h : 0x4000 ≤ a.toNat) (h' : a.toNat ≤ 0x4017) (hd : a.toNat ≠ 0x4014) (s : State) :
    read8 a s = extRead a s := by
  rw [read8, if_neg (by omega), if_neg (by omega), if_neg (ne_dmaAddr hd), if_pos h']

/-- A read where no device is. -/
theorem read8_unmapped (h : 0x4018 ≤ a.toNat) (h' : a.toNat ≤ 0x401F) (s : State) : read8 a s = (0, s) := by
  rw [read8, if_neg (by omega), if_neg (by omega), if_neg (ne_dmaAddr (by omega)), if_neg (by omega), if_pos h']

/-- A read of the cartridge. -/
theorem read8_cart (h : 0x4020 ≤ a.toNat) (s : State) : read8 a s = cartCpuRead a s := by
  rw [read8, if_neg (by omega), if_neg (by omega), if_neg (ne_dmaAddr (by omega)), if_neg (by omega),
    if_neg (by omega)]

theorem write8_dma (v : Byte) (s : State) : write8 0x4014 v s = oamDma v s := rfl

/-- A write at one of the addresses of the external device. -/
theorem write8_ext (h : 0x4000 ≤ a.toNat) (h' : a.toNat ≤ 0x4017) (hd : a.toNat ≠ 0x4014) (v : Byte) (s : State) :
    write8 a v s = extWrite a v s := by
  rw [write8, if_neg (by omega), if_neg (by omega), if_neg (ne_dmaAddr hd), if_pos h']

/-- A write where no device is. -/
theorem write8_unmapped (h : 0x4018 ≤ a.toNat) (h' : a.toNat ≤ 0x401F) (v : Byte) (s : State) : write8 a v s = s := by
  rw [write8, if_neg (by omega), if_neg (by omega), if_neg (ne_dmaAddr (by omega)), if_neg (by omega), if_pos h']

/-- A write of the cartridge. -/
theorem write8_cart (h : 0x4020 ≤ a.toNat) (v : Byte) (s : State) : write8 a v s = cartCpuWrite a v s := by
  rw [write8, if_neg (by omega), if_neg (by omega), if_neg (ne_dmaAddr (by omega)), if_neg (by omega),
    if_neg (by omega)]

/-! ## The external device and the cartridge -/

theorem extRead_absent (h : s.ext = .absent) (a : Word) : extRead a s = (0, s) := by
  simp only [extRead, h]

theorem extRead_attached {e : List Nat} (h : s.ext = .attached e) (a : Word) :
    extRead a s = ((Config.extRead e a).1, { s with ext := .attached (Config.extRead e a).2 }) := by
  simp only [extRead, h]

theorem extWrite_absent (h : s.ext = .absent) (a : Word) (v : Byte) : extWrite a v s = s := by
  simp only [extWrite, h]

theorem extWrite_attached {e : List Nat} (h : s.ext = .attached e) (a : Word) (v : Byte) :
    extWrite a v s = { s with ext := .attached (Config.extWrite e a v) } := by
  simp only [extWrite, h]

theorem cartCpuRead_mapper {m : List Nat} (h : s.cart = .mapper m) (a : Word) :
    cartCpuRead a s =
      ((Config.mapperCpuRead m a).1, { s with cart := .mapper (Config.mapperCpuRead m a).2 }) := by
  simp only [cartCpuRead, h]

theorem cartCpuWrite_fixture (h : s.cart.isFixture = true) (a : Word) (v : Byte) : cartCpuWrite a v s = s := by
  obtain ⟨prg, chr, mir, hc⟩ := (isFixture_iff _).mp h
  simp only [cartCpuWrite, hc]

theorem cartCpuWrite_mapper {m : List Nat} (h : s.cart = .mapper m) (a : Word) (v : Byte) :
    cartCpuWrite a v s = { s with cart := .mapper (Config.mapperCpuWrite m a v) } := by
  simp only [cartCpuWrite, h]

end

/-- Settles O41: a clause for each region of the map, and what a read may change at all. -/
theorem busReadsFollowTheMap : Obligations.BusReadsFollowTheMap := by
  unfold Obligations.BusReadsFollowTheMap
  intro a s
  refine ⟨fun h => read8_ram h s, fun h h' r hr => ?ppu, fun h => eq_dmaAddr h ▸ read8_dma s,
    fun h h' => read8_unmapped h h' s, fun h h' hd => ?ext, fun h => ?cart, read8_frame a s⟩
  case ppu => rw [read8_ppu h h', ppuRegAddr_eq hr]
  case ext =>
    rw [read8_ext h h' hd]
    exact ⟨fun he => extRead_absent he a, fun e he => extRead_attached he a⟩
  case cart =>
    exact ⟨fun prg chr mir hc => read8_fixture h hc,
      fun m hc => (read8_cart h s).trans (cartCpuRead_mapper hc a)⟩

/-- Settles O42: a clause for each region of the map, and the effect of one write. -/
theorem busWritesFollowTheMap : Obligations.BusWritesFollowTheMap := by
  unfold Obligations.BusWritesFollowTheMap
  intro a v s
  refine ⟨fun h => write8_ram h v s, fun h h' r hr => ?ppu, fun h => eq_dmaAddr h ▸ write8_dma v s,
    fun h h' => write8_unmapped h h' v s, fun h h' hd => ?ext, fun h => ?cart, write8_storeEffect a v s⟩
  case ppu => rw [write8_ppu h h', ppuRegAddr_eq hr]
  case ext =>
    rw [write8_ext h h' hd]
    exact ⟨fun he => extWrite_absent he a v, fun e he => extWrite_attached he a v⟩
  case cart =>
    rw [write8_cart h]
    exact ⟨fun hc => cartCpuWrite_fixture hc a v, fun m hc => cartCpuWrite_mapper hc a v⟩

/-! ## Instructions that store nothing -/

/-- Every memory is as before: RAM, OAM, palette, nametables and, if it is the fixture, the cartridge. -/
structure MemoryKept (s t : State) : Prop where
  ram : t.ram = s.ram
  oam : t.ppu.oam = s.ppu.oam
  palette : t.ppu.palette = s.ppu.palette
  nt : t.ppu.nt = s.ppu.nt
  fixture : s.cart.isFixture = true → t.cart = s.cart

section
variable {s u t : State}

theorem MemoryKept.refl (s : State) : MemoryKept s s := ⟨rfl, rfl, rfl, rfl, fun _ => rfl⟩

/-- Writes of registers and flags, and charges, keep what is kept. -/
theorem MemoryKept.congr (h : MemoryKept s u) (hr : t.ram = u.ram) (hq : t.ppu = u.ppu) (hc : t.cart = u.cart) :
    MemoryKept s t :=
  ⟨hr.trans h.ram, (congrArg Ppu.oam hq).trans h.oam, (congrArg Ppu.palette hq).trans h.palette,
    (congrArg Ppu.nt hq).trans h.nt, fun hf => hc.trans (h.fixture hf)⟩

theorem ReadFrame.memoryKept (h : ReadFrame s t) : MemoryKept s t :=
  ⟨h.ram, h.oam, h.palette, h.nt, h.fixture⟩

theorem readOperand_memoryKept (m : SrcForm) (s : State) : MemoryKept s (readOperand m s).2 :=
  (readOperand_frame m s).memoryKept.congr rfl rfl rfl

theorem indirectTarget_memoryKept (w : Word) (s : State) : MemoryKept s (indirectTarget w s).2 := by
  unfold indirectTarget
  split
  · exact (readPair_frame _ _ s).memoryKept
  · exact (read16_frame _ s).memoryKept

theorem pull8_memoryKept (s : State) : MemoryKept s (pull8 s).2 := by
  rw [pull8_eq]
  exact (MemoryKept.refl s).congr rfl rfl rfl

theorem pull16_memoryKept (s : State) : MemoryKept s (pull16 s).2 := by
  rw [pull16_eq]
  exact (MemoryKept.refl s).congr rfl rfl rfl

theorem returnFromInterrupt_memoryKept (s : State) : MemoryKept s (returnFromInterrupt s) := by
  simp only [returnFromInterrupt, pull8_eq, pull16_eq]
  exact (MemoryKept.refl s).congr rfl rfl rfl

theorem branch_memoryKept (taken : Bool) (off : Byte) (s : State) : MemoryKept s (branch taken off s) := by
  cases taken with
  | false => exact .refl s
  | true => exact (MemoryKept.refl s).congr rfl rfl rfl

/-- A shift that stores nothing is one of the accumulator. -/
theorem shiftOperand_memoryKept {m : ShiftMode} (h : decide (m ≠ .acc) = false) (f : Byte → Bool → CarryResult)
    (s : State) : MemoryKept s (shiftOperand f m.rmw s) := by
  obtain rfl : m = .acc := not_not.mp (of_decide_eq_false h)
  exact (MemoryKept.refl s).congr rfl rfl rfl

end

/-- An instruction that neither stores nor pushes keeps every memory. -/
theorem exec_memoryKept (i : Instr) (hi : mayStore i = false) (s : State) :
    ∃ t, exec i s = .next t ∧ MemoryKept s t := by
  cases i with
  | sta | stx | sty | inc | dec | jsr | brk | pha | php => cases hi
  | lda | ldx | ldy | adc | sbc | and | ora | eor | cmp | cpx | cpy | bit =>
    exact ⟨_, rfl, (readOperand_memoryKept _ s).congr rfl rfl rfl⟩
  | tax | tay | tsx | txa | txs | tya | inx | iny | dex | dey | clc | cld | cli | clv | sec | sed | sei | nop
  | unknown => exact ⟨_, rfl, (MemoryKept.refl s).congr rfl rfl rfl⟩
  | asl | lsr | rol | ror => exact ⟨_, rfl, shiftOperand_memoryKept hi _ s⟩
  | jmp m =>
    cases m with
    | abs w => exact ⟨_, rfl, (MemoryKept.refl s).congr rfl rfl rfl⟩
    | ind w => exact ⟨_, rfl, (indirectTarget_memoryKept w s).congr rfl rfl rfl⟩
  | rts => exact ⟨_, rfl, (pull16_memoryKept s).congr rfl rfl rfl⟩
  | rti => exact ⟨_, rfl, returnFromInterrupt_memoryKept s⟩
  | bcc off | bcs off | beq off | bmi off | bne off | bpl off | bvc off | bvs off =>
    exact ⟨_, rfl, branch_memoryKept _ off s⟩
  | pla | plp => exact ⟨_, rfl, (pull8_memoryKept s).congr rfl rfl rfl⟩

/-- Settles O17: with RAM and a fixture cartridge kept, every byte of memory reads as before. -/
theorem nonStoringInstructionsKeepMemory : Obligations.NonStoringInstructionsKeepMemory := by
  unfold Obligations.NonStoringInstructionsKeepMemory
  intro i s t hi h
  obtain ⟨u, hu, k⟩ := exec_memoryKept i hi s
  cases hu.symm.trans h
  exact ⟨k.ram, k.oam, k.palette, k.nt, k.fixture, plainKept_of_eq k.ram k.fixture _⟩

end Sys2Proof.Machine
end

section
/-! PROOFS. The encoding: the decoder and the encoder invert each other, and the decoder refuses no byte value
(30_encoding R56, R58, R59, R61, R62, R64). -/

namespace Sys2Proof

/-! ## The decoder's answer, in one equation -/

/-- The decoder answers exactly when the opcode's operand bytes are there, and then with the table's instruction. -/
theorem decode_eq_ok_iff {bs rest : List Byte} {i : Instr} :
    decode bs = .ok (i, rest) ↔ ∃ op args, bs = op :: (args ++ rest) ∧ args.length = operandCount op ∧
      decodeOp op (args.getD 0 0) (args.getD 1 0) = i := by
  constructor
  · intro h
    unfold decode at h
    split at h
    · cases h
    · split at h <;> cases h
      · exact ⟨_, [], rfl, by simp [*], rfl⟩
      · exact ⟨_, [_], rfl, by simp [*], rfl⟩
      · exact ⟨_, [_, _], rfl, by simp [*], rfl⟩
  · rintro ⟨op, args, rfl, hn, rfl⟩
    have hle := operandCount_le op
    match args, hn with
    | [], hn => exact decode_zero hn.symm rest
    | [b], hn => exact decode_one hn.symm b rest
    | [b, c], hn => exact decode_two hn.symm b c rest
    | _ :: _ :: _ :: _, hn => simp only [List.length_cons] at hn; omega

/-! ## From an instruction to its row -/

namespace Laws.Encoding

/-- Every instruction's opcode has a row that gives it back. -/
theorem statement_holds : ∀ i : Instr, Statement i
  | .lda m => lda m
  | .ldx m => ldx m
  | .ldy m => ldy m
  | .sta m => sta m
  | .stx m => stx m
  | .sty m => sty m
  | .tax => tax
  | .tay => tay
  | .tsx => tsx
  | .txa => txa
  | .txs => txs
  | .tya => tya
  | .adc m => adc m
  | .sbc m => sbc m
  | .and m => and m
  | .ora m => ora m
  | .eor m => eor m
  | .cmp m => cmp m
  | .cpx m => cpx m
  | .cpy m => cpy m
  | .bit m => bit m
  | .inc m => inc m
  | .dec m => dec m
  | .inx => inx
  | .iny => iny
  | .dex => dex
  | .dey => dey
  | .asl m => asl m
  | .lsr m => lsr m
  | .rol m => rol m
  | .ror m => ror m
  | .jmp m => jmp m
  | .jsr w => jsr w
  | .rts => rts
  | .rti => rti
  | .bcc off => bcc off
  | .bcs off => bcs off
  | .beq off => beq off
  | .bmi off => bmi off
  | .bne off => bne off
  | .bpl off => bpl off
  | .bvc off => bvc off
  | .bvs off => bvs off
  | .brk => brk
  | .pha => pha
  | .php => php
  | .pla => pla
  | .plp => plp
  | .clc => clc
  | .cld => cld
  | .cli => cli
  | .clv => clv
  | .sec => sec
  | .sed => sed
  | .sei => sei
  | .nop => nop
  | .unknown op => unknown op

end Laws.Encoding

/-- Settles O4: an instruction's operand bytes are those its opcode calls for, and its row gives it back. -/
theorem decodeOfEncodeIsTheInstruction : Obligations.DecodeOfEncodeIsTheInstruction := by
  unfold Obligations.DecodeOfEncodeIsTheInstruction
  intro i rest hw
  obtain ⟨hcount, hback⟩ := Laws.Encoding.statement_holds i hw
  exact decode_eq_ok_iff.mpr ⟨i.opcode, i.operands, rfl, hcount.symm, hback⟩

/-! ## From a row to its instruction -/

/-- The first `n` of two operand bytes, with an address of two cut from its word, as the encoder writes it (R58). -/
def formBytes (n : Nat) (b c : Byte) : List Byte :=
  match n with
  | 0 => []
  | 1 => [b]
  | _ => [loByte (mkWord c b), hiByte (mkWord c b)]

theorem formBytes_eq_take {n : Nat} (h : n ≤ 2) (b c : Byte) : formBytes n b c = [b, c].take n := by
  match n, h with
  | 0, _ | 1, _ => rfl
  | 2, _ => simp [formBytes]

theorem opTable_wf (b c : Byte) : opTable.map (fun r => (r.build b c).wf) = opTable.map fun _ => true := by rfl

theorem opTable_encode (b c : Byte) :
    opTable.map (fun r => encode (r.build b c)) = opTable.map fun r => r.op :: formBytes r.operandBytes b c := by rfl

/-- A row's instruction is well-formed and is written as the row's opcode and the operand bytes the row counts. -/
theorem encode_build {r : OpRow} (h : r ∈ opTable) (b c : Byte) :
    (r.build b c).wf = true ∧ encode (r.build b c) = r.op :: formBytes r.operandBytes b c :=
  ⟨List.map_inj_left.mp (opTable_wf b c) r h, List.map_inj_left.mp (opTable_encode b c) r h⟩

/-- A documented opcode decodes by a row of the table; any other is in R64's list. -/
theorem opRow_cases (op : Byte) :
    (∃ r ∈ opTable, opRow op = some r ∧ r.op = op) ∨ (opRow op = none ∧ op ∈ unknownOpcodes) := by
  cases h : opRow op with
  | some r => exact .inl ⟨r, List.mem_of_find?_eq_some h, rfl, by simpa using List.find?_some h⟩
  | none => exact .inr ⟨rfl, List.contains_iff_mem.mp ((opRow_isNone_iff op).symm.trans (by rw [h]; rfl))⟩

/-- What an opcode decodes to is well-formed and is written as that opcode and the operand bytes it calls for. -/
theorem encode_decodeOp (op b c : Byte) :
    (decodeOp op b c).wf = true ∧ encode (decodeOp op b c) = op :: [b, c].take (operandCount op) := by
  obtain ⟨r, hr, hrow, rfl⟩ | ⟨hrow, hmem⟩ := opRow_cases op
  · rw [← formBytes_eq_take (operandCount_le r.op)]
    simpa only [decodeOp, operandCount, hrow] using encode_build hr b c
  · simp only [decodeOp, operandCount, hrow]
    exact ⟨List.contains_iff_mem.mpr hmem, rfl⟩

/-- Settles O5: the bytes decoded are an opcode and the operand bytes it calls for. -/
theorem encodeOfDecodeIsTheBytes : Obligations.EncodeOfDecodeIsTheBytes := by
  unfold Obligations.EncodeOfDecodeIsTheBytes
  intro bs rest i h
  obtain ⟨op, args, rfl, hn, rfl⟩ := decode_eq_ok_iff.mp h
  obtain ⟨hwf, henc⟩ := encode_decodeOp op (args.getD 0 0) (args.getD 1 0)
  have hargs : [args.getD 0 0, args.getD 1 0].take (operandCount op) = args := by
    have hle := operandCount_le op
    rw [← hn] at hle ⊢
    match args, hle with
    | [], _ | [_], _ | [_, _], _ => rfl
  exact ⟨hwf, by rw [henc, hargs, List.cons_append]⟩

/-- Settles O6: the operand bytes are the first of the bytes after the opcode. -/
theorem decodeRefusesOnlyMissingBytes : Obligations.DecodeRefusesOnlyMissingBytes := by
  unfold Obligations.DecodeRefusesOnlyMissingBytes
  intro bs
  constructor
  · rintro ⟨⟨i, rest⟩, h⟩
    obtain ⟨op, args, rfl, hn, -⟩ := decode_eq_ok_iff.mp h
    exact ⟨op, args ++ rest, rfl, by rw [List.length_append]; omega⟩
  · rintro ⟨op, tail, rfl, hle⟩
    refine ⟨(_, tail.drop (operandCount op)),
      decode_eq_ok_iff.mpr ⟨op, tail.take (operandCount op), ?_, List.length_take_of_le hle, rfl⟩⟩
    rw [List.take_append_drop]

/-- Settles O7: each word by evaluation of the decoder. -/
theorem sampleWordsDecode : Obligations.SampleWordsDecode := by
  unfold Obligations.SampleWordsDecode
  exact ⟨rfl, rfl, rfl, rfl, rfl, rfl, rfl, rfl, rfl, rfl, rfl, rfl, rfl, rfl, rfl⟩

/-! ## The unknown opcodes -/

theorem decodeOp_eq_unknown_iff {op b c op' : Byte} :
    decodeOp op b c = .unknown op' ↔ op' = op ∧ op ∈ unknownOpcodes := by
  constructor
  · intro h
    obtain ⟨hwf, henc⟩ := encode_decodeOp op b c
    rw [h] at hwf henc
    obtain rfl : op' = op := (List.cons.inj henc).1
    exact ⟨rfl, List.contains_iff_mem.mp hwf⟩
  · rintro ⟨rfl, hmem⟩
    exact decodeOp_unknown hmem b c

theorem operandCount_unknown {op : Byte} (h : op ∈ unknownOpcodes) : operandCount op = 0 :=
  (Laws.Encoding.unknown op (List.contains_iff_mem.mpr h)).1

/-- R64 lists its bytes in ascending order. -/
theorem unknownOpcodes_ascending : (unknownOpcodes.map BitVec.toNat).IsChain (· < ·) := by
  decide +kernel

theorem unknownOpcodes_nodup : unknownOpcodes.Nodup :=
  .of_map _ (unknownOpcodes_ascending.pairwise.imp Nat.ne_of_lt)

/-- Settles O8: what decodes to an unknown opcode is well-formed, so its byte is listed. -/
theorem unknownOpcodesAreTheListedOnes : Obligations.UnknownOpcodesAreTheListedOnes := by
  unfold Obligations.UnknownOpcodesAreTheListedOnes
  exact ⟨fun _ _ _ _ => decodeOp_eq_unknown_iff, fun _ => operandCount_unknown, rfl, unknownOpcodes_nodup⟩

end Sys2Proof
end

section
/-! PROOFS. Operand addressing and branches (40_execution_and_addressing R70 to R85, 44_control_transfer R126 to
R134): the effective address of each form as a number, the one read of an operand, and what a branch does. -/

namespace Sys2Proof.Machine

/-! ## Effective addresses -/

/-- An indexed sum wraps modulo 65536 (R78). -/
theorem indexed_addr_toNat (base : Word) (index : Byte) (s : State) :
    (indexed base index s).addr.toNat = (base.toNat + index.toNat) % 65536 := by
  simp only [indexed, BitVec.toNat_add, zext16_toNat]

theorem hiByte_eq_iff (v w : Word) : hiByte v = hiByte w ↔ v.toNat / 256 = w.toNat / 256 := by
  rw [← BitVec.toNat_inj, hiByte_toNat, hiByte_toNat]

/-- An indexed sum reports a crossing exactly when its page is not the base's. -/
theorem indexed_crossed_iff (base : Word) (index : Byte) (s : State) :
    (indexed base index s).crossed = true ↔ (indexed base index s).addr.toNat / 256 ≠ base.toNat / 256 := by
  simp only [indexed, bne_iff_ne, ne_eq, hiByte_eq_iff]

/-- The pointer's second byte stays within page 0 (R81). -/
theorem effAddr_indx (b : Byte) (s : State) :
    effAddr (.indx b) s = direct (mkWord (s.ram.get (b + s.x + 1).toNat) (s.ram.get (b + s.x).toNat)) s := by
  simp only [effAddr, zpPointer_eq]

/-- The base is the pointer at page 0 and the index is Y (R82). -/
theorem effAddr_indy (b : Byte) (s : State) :
    effAddr (.indy b) s = indexed (mkWord (s.ram.get (b + 1).toNat) (s.ram.get b.toNat)) s.y s := by
  simp only [effAddr, zpPointer_eq]

/-- A byte plus 1 wraps modulo 256. -/
theorem byte_succ_toNat (b : Byte) : (b + 1).toNat = (b.toNat + 1) % 256 := BitVec.toNat_add b 1

/-- Settles O18: each form is a direct or an indexed address, and these know their sums and crossings. -/
theorem effectiveAddressOfEachForm : Obligations.EffectiveAddressOfEachForm := by
  unfold Obligations.EffectiveAddressOfEachForm
  intro s b w
  have hzp (i : Byte) : (zext16 (b + i)).toNat = (b.toNat + i.toNat) % 256 := by
    rw [zext16_toNat, BitVec.toNat_add]
  refine ⟨zext16_toNat b, hzp s.x, hzp s.y, rfl, indexed_addr_toNat w s.x s, indexed_addr_toNat w s.y s, ?indx, ?indy,
    indexed_crossed_iff w s.x s, indexed_crossed_iff w s.y s, ?cross, rfl, rfl, rfl, rfl, rfl,
    fun m => effAddr_st m s⟩
  case indx =>
    rw [effAddr_indx, direct, mkWord_toNat, byte_succ_toNat, BitVec.toNat_add, Nat.mod_add_mod]
  case indy =>
    rw [effAddr_indy, indexed_addr_toNat, mkWord_toNat, byte_succ_toNat]
  case cross =>
    rw [effAddr_indy, indexed_crossed_iff, ← hiByte_toNat (mkWord _ _), hiByte_mkWord, byte_succ_toNat]

/-! ## Operands -/

/-- Settles O19: the read leaves the cycle count, so the penalty alone changes it. -/
theorem operandIsOneReadAtTheEffectiveAddress : Obligations.OperandIsOneReadAtTheEffectiveAddress := by
  unfold Obligations.OperandIsOneReadAtTheEffectiveAddress
  intro s
  refine ⟨fun b => readOperand_imm b s, fun m => ?_, fun m => readOperand_readEffect m s⟩
  have hc := (read8_frame (effAddr m s).addr s).cycles
  rw [readOperand_mem, ← hc]
  refine ⟨rfl, ?_⟩
  cases (effAddr m s).crossed with
  | true => rfl
  | false => simp

/-! ## Branches -/

/-- The target is the PC plus the signed offset, modulo 65536 (R83). -/
theorem branchTarget_toNat (off : Byte) (pc : Word) :
    ((branchTarget off pc).toNat : Int) = ((pc.toNat : Int) + off.toInt) % 65536 := by
  have hs : (sext16 off).toNat = (off.toInt % 65536).toNat := BitVec.toNat_ofInt off.toInt
  rw [branchTarget, BitVec.toNat_add, hs]
  omega

/-- The penalty in cycles: 1, or 2 in all when the target is in another page (R85). -/
theorem ofNat_branchPenalty (target pc : Word) :
    BitVec.ofNat 64 (branchPenalty target pc) = if target.toNat / 256 = pc.toNat / 256 then 1 else 2 := by
  simp only [branchPenalty, hiByte_eq_iff]
  split <;> rfl

/-- Each branch with the flag it tests and the value it is taken on (R127 to R134). -/
def branchTests : List ((Byte → Instr) × Flag × Bool) :=
  [(.bcc, .c, false), (.bcs, .c, true), (.beq, .z, true), (.bmi, .n, true), (.bne, .z, false), (.bpl, .n, false),
   (.bvc, .v, false), (.bvs, .v, true)]

/-- A branch of that list is `branch` on its flag's having its value. -/
theorem exec_branch {br : (Byte → Instr) × Flag × Bool} (h : br ∈ branchTests) (off : Byte) (s : State) :
    exec (br.1 off) s = .next (branch (getFlag s.p br.2.1 == br.2.2) off s) := by
  simp only [branchTests, List.mem_cons, List.not_mem_nil, or_false] at h
  rcases h with rfl | rfl | rfl | rfl | rfl | rfl | rfl | rfl <;>
    simp only [exec, execBcc, execBcs, execBeq, execBmi, execBne, execBpl, execBvc, execBvs, beq_true, beq_false]

/-- Settles O34: the rows decode by evaluation, and every branch is `branch` on its flag. -/
theorem branchesTestOneFlag : Obligations.BranchesTestOneFlag := by
  unfold Obligations.BranchesTestOneFlag
  refine ⟨⟨fun _ _ => rfl, fun _ _ => rfl, fun _ _ => rfl, fun _ _ => rfl, fun _ _ => rfl, fun _ _ => rfl,
    fun _ _ => rfl, fun _ _ => rfl⟩, fun s off br hbr => ?_⟩
  rw [exec_branch hbr]
  refine ⟨fun hne => ?_, fun heq => ⟨branchTarget off s.pc, branchTarget_toNat off s.pc, ?_⟩⟩
  · rw [beq_false_of_ne hne]
    rfl
  · rw [heq, beq_self_eq_true, ← ofNat_branchPenalty]
    rfl

end Sys2Proof.Machine
end

section
/-! PROOFS. The fetch and the step that runs an instruction (40_execution_and_addressing R68, 20_memory R55), and the
base cost of each opcode (30_encoding R61, R63, R64). -/

namespace Sys2Proof.Machine

/-! ## The fetch -/

/-- Settles O10: the step is the fetch and the instruction's meaning, and the fetch has a closed form for each number of
operand bytes. -/
theorem fetchReadsThroughTheBus : Obligations.FetchReadsThroughTheBus := by
  unfold Obligations.FetchReadsThroughTheBus
  intro s hs
  dsimp only
  rw [hs.step_fetch]
  refine ⟨fun h => ?_, fun h => ?_, fun h => ?_, operandCount_le _⟩
  · rw [fetch_zero h]; rfl
  · rw [fetch_one h]; rfl
  · rw [fetch_two h]; rfl

/-- The fetch of an instruction's bytes from memory whose reads change nothing. -/
theorem fetch_of_bytes {s : State} {op : Byte} {args : List Byte} (hn : args.length = operandCount op)
    (hread : ∀ k (h : k < (op :: args).length), read8 (s.pc + BitVec.ofNat 16 k) s = ((op :: args)[k], s)) :
    fetch s = (decodeOp op (args.getD 0 0) (args.getD 1 0), fetched s op (BitVec.ofNat 16 (args.length + 1)) s) := by
  have hop : read8 s.pc s = (op, s) := by simpa using hread 0 (Nat.succ_pos _)
  have hle := operandCount_le op
  match args, hn with
  | [], hn =>
    rw [fetch_zero (by rw [hop]; exact hn.symm), hop]
    rfl
  | [b], hn =>
    have hb : read8 (s.pc + 1) s = (b, s) := hread 1 (by simp)
    rw [fetch_one (by rw [hop]; exact hn.symm)]
    simp only [hop, hb]
    rfl
  | [b, c], hn =>
    have hb : read8 (s.pc + 1) s = (b, s) := hread 1 (by simp)
    have hc : read8 (s.pc + 2) s = (c, s) := hread 2 (by simp)
    rw [fetch_two (by rw [hop]; exact hn.symm)]
    simp only [hop, hb, hc]
    rfl
  | _ :: _ :: _ :: _, hn => simp only [List.length_cons] at hn; omega

/-! ## The costs of the opcodes -/

/-- An opcode that a parameter does not list has the reference value. -/
theorem entryOr_of_forall_ne {α : Type} {op : Byte} (dflt : α) {l : List (Byte × α)} (h : ∀ e ∈ l, e.1 ≠ op) :
    entryOr op dflt l = dflt := by
  induction l with
  | nil => rfl
  | cons e l ih =>
    obtain ⟨he, hl⟩ := List.forall_mem_cons.mp h
    rw [entryOr, if_neg he, ih hl]

theorem entryOr_cons_self {α : Type} (op : Byte) (dflt v : α) (l : List (Byte × α)) :
    entryOr op dflt ((op, v) :: l) = v := if_pos rfl

/-- R61's column "cycles", row by row: each of its opcodes is documented and has its cost in the decoder's table. -/
theorem referenceCycles_of_mem_cycleColumn :
    ∀ g ∈ cycleColumn, ∀ op ∈ g.2, op ∉ unknownOpcodes ∧ referenceCycles op = g.1 := by
  decide +kernel

/-- Every row of the decoder's table is in R61's column "cycles". -/
theorem exists_cycleColumn_of_mem_opTable : ∀ r ∈ opTable, ∃ g ∈ cycleColumn, r.op ∈ g.2 := by
  decide +kernel

theorem fetchCost_unknown (c : Config) {op : Byte} (h : op ∈ unknownOpcodes) : fetchCost c op = 0 := if_pos h

theorem fetchCost_documented (c : Config) {op : Byte} (h : op ∉ unknownOpcodes) : fetchCost c op = baseCycles c op :=
  if_neg h

/-- Settles O9: a well-formed instruction is fetched from its bytes, and the table's costs are those of R61. -/
theorem stepRunsTheDecodedInstruction : Obligations.StepRunsTheDecodedInstruction := by
  unfold Obligations.StepRunsTheDecodedInstruction
  refine ⟨fun i s hw hs hread => ?step, fun g hg op hop => ?sound, fun op hop => ?complete, fun op hop => ?unknown,
    fun c op => ⟨entryOr_of_forall_ne _, entryOr_of_forall_ne _, fun h => ?length, fun n rest h => ?base,
      fun n rest h => ?body⟩⟩
  case step =>
    obtain ⟨hcount, hback⟩ := Laws.Encoding.statement_holds i hw
    rw [hs.step_fetch, fetch_of_bytes hcount.symm hread, hback]
    rfl
  case sound =>
    obtain ⟨hdoc, hcost⟩ := referenceCycles_of_mem_cycleColumn g hg op hop
    exact ⟨hcost, (fetchCost_documented _ hdoc).trans hcost, hdoc⟩
  case complete =>
    obtain ⟨r, hr, -, rfl⟩ | ⟨-, hmem⟩ := opRow_cases op
    · exact exists_cycleColumn_of_mem_opTable r hr
    · exact absurd hmem hop
  case unknown => exact ⟨fetchCost_unknown _ hop, rfl, rfl⟩
  case length => exact congrArg OpLength.toNat (entryOr_of_forall_ne _ h)
  case base => rw [baseCycles, h, entryOr_cons_self]
  case body => rw [unknownOpCycles, h, entryOr_cons_self]

end Sys2Proof.Machine
end

section
/-! PROOFS. Loads, stores and transfers (41_load_store_transfer R89 to R100): each is an operand read, a bus write or a
copy of a register; all but the stores and TXS then write N and Z of the byte moved. -/

namespace Sys2Proof.Machine

/-! ## An operand read leaves the registers -/

@[simp] theorem readOperand_a (m : SrcForm) (s : State) : (readOperand m s).2.a = s.a := (readOperand_frame m s).a
@[simp] theorem readOperand_x (m : SrcForm) (s : State) : (readOperand m s).2.x = s.x := (readOperand_frame m s).x
@[simp] theorem readOperand_y (m : SrcForm) (s : State) : (readOperand m s).2.y = s.y := (readOperand_frame m s).y
@[simp] theorem readOperand_p (m : SrcForm) (s : State) : (readOperand m s).2.p = s.p := (readOperand_frame m s).p

/-! ## Loads -/

/-- N and Z of a byte written into P after an operand read are that byte's, and no other flag is changed. -/
theorem readOperand_setNZ (m : SrcForm) (r : Byte) (s : State) :
    ShowsNZ r (setNZ r (readOperand m s).2.p) ∧ FlagsKept [.z, .n] s.p (setNZ r (readOperand m s).2.p) := by
  rw [readOperand_p]
  exact ⟨showsNZ_setNZ r s.p, flagsKept_setNZ r s.p⟩

theorem decodesAlu_lda : DecodesAlu .lda 0xA9 0xA5 0xB5 0xAD 0xBD 0xB9 0xA1 0xB1 := by
  unfold DecodesAlu
  exact ⟨fun _ _ => rfl, fun _ _ => rfl, fun _ _ => rfl, fun _ _ _ => rfl, fun _ _ _ => rfl, fun _ _ _ => rfl,
    fun _ _ => rfl, fun _ _ => rfl⟩

/-- Settles O20: a load is its operand read and then a write of one register and of N and Z, which spoils nothing said
of the read. -/
theorem loadsTakeTheirOperand : Obligations.LoadsTakeTheirOperand := by
  unfold Obligations.LoadsTakeTheirOperand
  refine ⟨⟨decodesAlu_lda, fun _ _ => rfl, fun _ _ => rfl, fun _ _ => rfl, fun _ _ _ => rfl, fun _ _ _ => rfl,
    fun _ _ => rfl, fun _ _ => rfl, fun _ _ => rfl, fun _ _ _ => rfl, fun _ _ _ => rfl⟩, fun m s => ?lda,
    fun m s => ?ldx, fun m s => ?ldy⟩
  all_goals
    have hread := readOperand_readEffect m.src s
    obtain ⟨hnz, hkept⟩ := readOperand_setNZ m.src (readOperand m.src s).1 s
  case lda => exact ⟨_, rfl, rfl, readOperand_x _ s, readOperand_y _ s, hnz, hkept, hread.congr rfl⟩
  case ldx => exact ⟨_, rfl, rfl, readOperand_a _ s, readOperand_y _ s, hnz, hkept, hread.congr rfl⟩
  case ldy => exact ⟨_, rfl, rfl, readOperand_a _ s, readOperand_x _ s, hnz, hkept, hread.congr rfl⟩

/-! ## Stores -/

/-- A store is one bus write at its effective address: computing the address leaves the state. -/
theorem storeOperand_storeEffect (m : MemForm) (v : Byte) (s : State) :
    StoreEffect (effAddr m s).addr v s (storeOperand m v s) := by
  rw [storeOperand_eq]
  exact write8_storeEffect _ v s

/-- Settles O21: a store's meaning is `storeOperand` of its register. -/
theorem storesWriteOnce : Obligations.StoresWriteOnce := by
  unfold Obligations.StoresWriteOnce
  exact ⟨⟨fun _ _ => rfl, fun _ _ => rfl, fun _ _ _ => rfl, fun _ _ _ => rfl, fun _ _ _ => rfl, fun _ _ => rfl,
    fun _ _ => rfl, fun _ _ => rfl, fun _ _ => rfl, fun _ _ _ => rfl, fun _ _ => rfl, fun _ _ => rfl,
    fun _ _ _ => rfl⟩,
    fun m s => ⟨_, rfl, storeOperand_storeEffect m.mem s.a s⟩,
    fun m s => ⟨_, rfl, storeOperand_storeEffect m.mem s.x s⟩,
    fun m s => ⟨_, rfl, storeOperand_storeEffect m.mem s.y s⟩⟩

/-! ## Transfers -/

/-- What holds of P with N and Z of a byte written holds of a P that shows them and keeps every other flag. -/
theorem exists_setNZ {r p : Byte} {holds : Byte → Prop} (h : holds (setNZ r p)) :
    ∃ q, holds q ∧ ShowsNZ r q ∧ FlagsKept [.z, .n] p q :=
  ⟨setNZ r p, h, showsNZ_setNZ r p, flagsKept_setNZ r p⟩

/-- Settles O22: five transfers write their register and N and Z of it; TXS writes SP alone. -/
theorem transfersMoveARegister : Obligations.TransfersMoveARegister := by
  unfold Obligations.TransfersMoveARegister
  exact ⟨⟨fun _ => rfl, fun _ => rfl, fun _ => rfl, fun _ => rfl, fun _ => rfl, fun _ => rfl⟩,
    fun _ => ⟨exists_setNZ rfl, exists_setNZ rfl, exists_setNZ rfl, exists_setNZ rfl, exists_setNZ rfl, rfl⟩⟩

end Sys2Proof.Machine
end

section
/-! PROOFS. Arithmetic, logic, compares, BIT, increments and decrements (42_arithmetic_logic R101 to R116): each is an
operand read, a read-modify-write or a step of a register, and then a computation of bytes and flags. -/

namespace Sys2Proof.Machine

/-! ## Encodings -/

/-- The eight-form rows of R61 for arithmetic, logic and CMP. -/
theorem decodesAlu_arithmetic :
    DecodesAlu .adc 0x69 0x65 0x75 0x6D 0x7D 0x79 0x61 0x71 ∧ DecodesAlu .sbc 0xE9 0xE5 0xF5 0xED 0xFD 0xF9 0xE1 0xF1 ∧
    DecodesAlu .and 0x29 0x25 0x35 0x2D 0x3D 0x39 0x21 0x31 ∧ DecodesAlu .ora 0x09 0x05 0x15 0x0D 0x1D 0x19 0x01 0x11 ∧
    DecodesAlu .eor 0x49 0x45 0x55 0x4D 0x5D 0x59 0x41 0x51 ∧
    DecodesAlu .cmp 0xC9 0xC5 0xD5 0xCD 0xDD 0xD9 0xC1 0xD1 := by
  unfold DecodesAlu
  refine ⟨?adc, ?sbc, ?and, ?ora, ?eor, ?cmp⟩
  all_goals
    exact ⟨fun _ _ => rfl, fun _ _ => rfl, fun _ _ => rfl, fun _ _ _ => rfl, fun _ _ _ => rfl, fun _ _ _ => rfl,
      fun _ _ => rfl, fun _ _ => rfl⟩

/-! ## Differences of bytes -/

theorem byte_sub_toNat (b c : Byte) : (b - c).toNat = (b.toNat + 256 - c.toNat) % 256 := by
  have := c.isLt
  rw [BitVec.toNat_sub]
  omega

theorem byte_pred_toNat (b : Byte) : (b - 1).toNat = (b.toNat + 255) % 256 := byte_sub_toNat b 1

/-! ## Increment and decrement -/

/-- Settles O29: the register, N and Z are written, and nothing else. -/
theorem indexRegistersStepByOne : Obligations.IndexRegistersStepByOne := by
  unfold Obligations.IndexRegistersStepByOne
  refine ⟨⟨fun _ => rfl, fun _ => rfl, fun _ => rfl, fun _ => rfl⟩, fun s => ⟨?inx, ?iny, ?dex, ?dey⟩⟩
  case inx => exact ⟨_, _, rfl, byte_succ_toNat s.x, showsNZ_setNZ _ _, flagsKept_setNZ _ _⟩
  case iny => exact ⟨_, _, rfl, byte_succ_toNat s.y, showsNZ_setNZ _ _, flagsKept_setNZ _ _⟩
  case dex => exact ⟨_, _, rfl, byte_pred_toNat s.x, showsNZ_setNZ _ _, flagsKept_setNZ _ _⟩
  case dey => exact ⟨_, _, rfl, byte_pred_toNat s.y, showsNZ_setNZ _ _, flagsKept_setNZ _ _⟩

/-- A read-modify-write that shows Z and N of what it writes is one write at the address read. -/
theorem modifyMemory_setNZ_storeEffect (m : MemForm) (g : Byte → Byte) (s : State) :
    let e := (effAddr m s).addr
    let r := read8 e s
    StoreEffect e (g r.1) { r.2 with p := setNZ (g r.1) s.p } (modifyMemory m (fun v p => (g v, setNZ (g v) p)) s) := by
  rw [modifyMemory_eq]
  exact write8_storeEffect _ _ _

/-- Settles O28: INC and DEC are the read-modify-writes by plus and minus 1. -/
theorem incDecReadThenWriteOnce : Obligations.IncDecReadThenWriteOnce := by
  unfold Obligations.IncDecReadThenWriteOnce
  refine ⟨⟨fun _ _ => rfl, fun _ _ => rfl, fun _ _ _ => rfl, fun _ _ _ => rfl, fun _ _ => rfl, fun _ _ => rfl,
    fun _ _ _ => rfl, fun _ _ _ => rfl⟩, fun m s => ⟨?inc, ?dec⟩⟩
  case inc =>
    exact ⟨_, _, _, rfl, byte_succ_toNat _, showsNZ_setNZ _ _, flagsKept_setNZ _ _,
      modifyMemory_setNZ_storeEffect m.mem (· + 1) s⟩
  case dec =>
    exact ⟨_, _, _, rfl, byte_pred_toNat _, showsNZ_setNZ _ _, flagsKept_setNZ _ _,
      modifyMemory_setNZ_storeEffect m.mem (· - 1) s⟩

/-! ## ADC and SBC -/

theorem exec_adc (m : AluMode) (s : State) :
    exec (.adc m) s =
      .next (setArith (addResult s.a (readOperand m.src s).1 (getFlag s.p .c)) (readOperand m.src s).2) := by
  simp only [exec, execAdc, readOperand_a, readOperand_p]

theorem exec_sbc (m : AluMode) (s : State) :
    exec (.sbc m) s =
      .next (setArith (subResult s.a (readOperand m.src s).1 (getFlag s.p .c)) (readOperand m.src s).2) := by
  simp only [exec, execSbc, readOperand_a, readOperand_p]

/-- A sum or difference written after an operand read: its carry and overflow, N and Z, and what is left. -/
theorem readOperand_setArith (m : SrcForm) (q : ArithResult) (s : State) :
    let t := setArith q (readOperand m s).2
    getFlag t.p .c = q.c ∧ getFlag t.p .v = q.v ∧ ShowsNZ t.a t.p ∧ FlagsKept [.c, .z, .v, .n] s.p t.p ∧ t.x = s.x ∧
      t.y = s.y ∧ ReadEffect m s t := by
  refine ⟨getFlag_arithFlags _ _ _, getFlag_arithFlags _ _ _, showsNZ_arithFlags _ _, ?_, readOperand_x m s,
    readOperand_y m s, (readOperand_readEffect m s).congr rfl⟩
  rw [← readOperand_p m s]
  exact flagsKept_arithFlags _ _

/-- Settles O23: ADC writes `addResult`, whose fields are the sum, its carry and its signed overflow; D is not read. -/
theorem adcAddsWithCarry : Obligations.AdcAddsWithCarry := by
  unfold Obligations.AdcAddsWithCarry
  obtain ⟨hdecodes, -⟩ := decodesAlu_arithmetic
  refine ⟨hdecodes, fun m s => ⟨_, exec_adc m s, ?_⟩⟩
  obtain ⟨hc, hv, hrest⟩ := readOperand_setArith m.src (addResult s.a (readOperand m.src s).1 (getFlag s.p .c)) s
  exact ⟨addResult_r _ _ _, hc, hv.trans (addResult_v _ _ _), hv.trans (addResult_v_signed _ _ _), hrest⟩

/-- Settles O24: SBC writes `subResult`, which is also the sum with the complement. -/
theorem sbcSubtractsWithBorrow : Obligations.SbcSubtractsWithBorrow := by
  unfold Obligations.SbcSubtractsWithBorrow
  obtain ⟨-, hdecodes, -⟩ := decodesAlu_arithmetic
  refine ⟨hdecodes, fun b s => ?complement, fun m s => ⟨_, exec_sbc m s, ?difference⟩⟩
  case complement =>
    rw [exec_sbc, exec_adc]
    simp only [AluMode.src, readOperand_imm, subResult_eq_addResult]
  case difference =>
    obtain ⟨hc, hv, hrest⟩ := readOperand_setArith m.src (subResult s.a (readOperand m.src s).1 (getFlag s.p .c)) s
    exact ⟨subResult_r _ _ _, hc, hv.trans (subResult_v _ _ _), hv.trans (subResult_v_signed _ _ _), hrest⟩

/-! ## AND, ORA and EOR -/

/-- A byte written to A after an operand read: N and Z of it, and what is left. -/
theorem readOperand_setA (m : SrcForm) (r : Byte) (s : State) :
    let t := setA r (readOperand m s).2
    ShowsNZ t.a t.p ∧ FlagsKept [.z, .n] s.p t.p ∧ t.x = s.x ∧ t.y = s.y ∧ ReadEffect m s t := by
  obtain ⟨hnz, hkept⟩ := readOperand_setNZ m r s
  exact ⟨hnz, hkept, readOperand_x m s, readOperand_y m s, (readOperand_readEffect m s).congr rfl⟩

/-- Settles O25: A becomes the word operation of A and the operand, whose bits are those of the operation. -/
theorem logicActsBitByBit : Obligations.LogicActsBitByBit := by
  unfold Obligations.LogicActsBitByBit
  obtain ⟨-, -, hand, hora, heor, -⟩ := decodesAlu_arithmetic
  refine ⟨⟨hand, hora, heor⟩, fun m s => ⟨⟨_, rfl, fun i => ?and, readOperand_setA m.src _ s⟩,
    ⟨_, rfl, fun i => ?ora, readOperand_setA m.src _ s⟩, ⟨_, rfl, fun i => ?eor, readOperand_setA m.src _ s⟩⟩⟩
  case and => rw [setA_a, BitVec.getLsbD_and, readOperand_a]
  case ora => rw [setA_a, BitVec.getLsbD_or, readOperand_a]
  case eor => rw [setA_a, BitVec.getLsbD_xor, readOperand_a]

/-! ## Compares and BIT -/

/-- Flags computed after an operand read leave the registers and spoil nothing said of the read. -/
theorem readOperand_updateP (m : SrcForm) (g : Byte → Byte) (s : State) :
    let t := updateP g (readOperand m s).2
    t.p = g s.p ∧ t.a = s.a ∧ t.x = s.x ∧ t.y = s.y ∧ ReadEffect m s t :=
  ⟨congrArg g (readOperand_p m s), readOperand_a m s, readOperand_x m s, readOperand_y m s,
    (readOperand_readEffect m s).congr rfl⟩

theorem exec_cmp (m : AluMode) (s : State) :
    exec (.cmp m) s = .next (updateP (compareFlags s.a (readOperand m.src s).1) (readOperand m.src s).2) := by
  simp only [exec, execCmp, readOperand_a]

theorem exec_cpx (m : CpMode) (s : State) :
    exec (.cpx m) s = .next (updateP (compareFlags s.x (readOperand m.src s).1) (readOperand m.src s).2) := by
  simp only [exec, execCpx, readOperand_x]

theorem exec_cpy (m : CpMode) (s : State) :
    exec (.cpy m) s = .next (updateP (compareFlags s.y (readOperand m.src s).1) (readOperand m.src s).2) := by
  simp only [exec, execCpy, readOperand_y]

theorem exec_bit (m : BitMode) (s : State) :
    exec (.bit m) s = .next (updateP (bitFlags s.a (readOperand m.src s).1) (readOperand m.src s).2) := by
  simp only [exec, execBit, readOperand_a]

/-- A compare of a register with the operand read, in the terms of R107 to R109. -/
theorem readOperand_compareFlags (m : SrcForm) (reg : Byte) (s : State) :
    let v := (readOperand m s).1
    let t := updateP (compareFlags reg v) (readOperand m s).2
    getFlag t.p .c = decide (v.toNat ≤ reg.toNat) ∧
      (∃ d : Byte, d.toNat = (reg.toNat + 256 - v.toNat) % 256 ∧ ShowsNZ d t.p) ∧
      FlagsKept [.c, .z, .n] s.p t.p ∧ t.a = s.a ∧ t.x = s.x ∧ t.y = s.y ∧ ReadEffect m s t := by
  obtain ⟨hp, hregs⟩ := readOperand_updateP m (compareFlags reg (readOperand m s).1) s
  dsimp only
  rw [hp]
  exact ⟨getFlag_compareFlags _ _ _ _, ⟨_, byte_sub_toNat _ _, showsNZ_compareFlags _ _ _⟩,
    flagsKept_compareFlags _ _ _, hregs⟩

/-- Settles O26: the three compares are one computation of flags on their register. -/
theorem comparesSetFlagsOnly : Obligations.ComparesSetFlagsOnly := by
  unfold Obligations.ComparesSetFlagsOnly
  obtain ⟨-, -, -, -, -, hcmp⟩ := decodesAlu_arithmetic
  exact ⟨⟨hcmp, fun _ _ => rfl, fun _ _ => rfl, fun _ _ _ => rfl, fun _ _ => rfl, fun _ _ => rfl, fun _ _ _ => rfl⟩,
    fun m s => ⟨_, exec_cmp m s, readOperand_compareFlags m.src s.a s⟩,
    fun m s => ⟨_, exec_cpx m s, readOperand_compareFlags m.src s.x s⟩,
    fun m s => ⟨_, exec_cpy m s, readOperand_compareFlags m.src s.y s⟩⟩

/-- Two bytes have no common bit set exactly when their conjunction is 0. -/
theorem byte_and_eq_zero_iff (b c : Byte) :
    b &&& c = 0 ↔ ∀ i, ¬(b.getLsbD i = true ∧ c.getLsbD i = true) := by
  rw [BitVec.ofNat_eq_ofNat, BitVec.zero_iff_eq_false]
  simp only [BitVec.getLsbD_and, ← Bool.and_eq_true, Bool.not_eq_true]

/-- Settles O27: P is `bitFlags` of A and the operand, and no register is written. -/
theorem bitTestsItsOperand : Obligations.BitTestsItsOperand := by
  unfold Obligations.BitTestsItsOperand
  refine ⟨fun _ _ => rfl, fun _ _ _ => rfl, fun m s => ⟨_, exec_bit m s, ?_⟩⟩
  obtain ⟨hp, hregs⟩ := readOperand_updateP m.src (bitFlags s.a (readOperand m.src s).1) s
  rw [hp]
  refine ⟨getFlag_bitFlags _ _ _ _, getFlag_bitFlags _ _ _ _, ?_, flagsKept_bitFlags _ _ _, hregs⟩
  rw [getFlag_bitFlags, beq_iff_eq]
  exact byte_and_eq_zero_iff _ _

end Sys2Proof.Machine
end

section
/-! PROOFS. Shifts and rotates (43_shift_rotate R117 to R120): one computation of a byte and its carry, done to A or to
the byte of memory that is read, whose flags are C, N and Z of the result. -/

namespace Sys2Proof.Machine

/-! ## Encodings -/

/-- The five-form rows of R61 for the shifts and rotates. -/
theorem decodesShift_shifts :
    DecodesShift .asl 0x0A 0x06 0x16 0x0E 0x1E ∧ DecodesShift .lsr 0x4A 0x46 0x56 0x4E 0x5E ∧
    DecodesShift .rol 0x2A 0x26 0x36 0x2E 0x3E ∧ DecodesShift .ror 0x6A 0x66 0x76 0x6E 0x7E := by
  unfold DecodesShift
  refine ⟨?asl, ?lsr, ?rol, ?ror⟩
  all_goals exact ⟨fun _ => rfl, fun _ _ => rfl, fun _ _ => rfl, fun _ _ _ => rfl, fun _ _ _ => rfl⟩

/-! ## What a shift does, of whichever computation -/

/-- P after a shift, in the terms of R117 to R120. -/
theorem shiftFlags_effect (q : CarryResult) (p : Byte) :
    getFlag (shiftFlags q p) .c = q.c ∧ ShowsNZ q.r (shiftFlags q p) ∧ FlagsKept [.c, .z, .n] p (shiftFlags q p) :=
  ⟨getFlag_shiftFlags q p .c, showsNZ_shiftFlags q p, flagsKept_shiftFlags q p⟩

/-- A shift of memory is one write, at the address read, of the byte computed, made with C, N and Z of the result
already in P (R70). -/
theorem shiftOperand_storeEffect (op : Byte → Bool → CarryResult) (f : MemForm) (s : State) :
    let e := (effAddr f s).addr
    let r := read8 e s
    let q := op r.1 (getFlag s.p .c)
    StoreEffect e q.r { r.2 with p := shiftFlags q s.p } (shiftOperand op (.mem f) s) := by
  rw [shiftOperand, modifyMemory_eq]
  exact write8_storeEffect _ _ _

section
variable {i : Instr} {op : Byte → Bool → CarryResult} {s : State} {n : Nat} {c : Bool}

/-- An instruction that shifts A, its computation giving the number `n` and the carry `c`, writes A and P alone. -/
theorem exec_shiftAcc (hi : exec i s = .next (shiftOperand op .acc s))
    (hop : (op s.a (getFlag s.p .c)).r.toNat = n ∧ (op s.a (getFlag s.p .c)).c = c) :
    ∃ b q, exec i s = .next { s with a := b, p := q } ∧ b.toNat = n ∧ getFlag q .c = c ∧ ShowsNZ b q ∧
      FlagsKept [.c, .z, .n] s.p q := by
  obtain ⟨hn, hc⟩ := hop
  obtain ⟨hcarry, hrest⟩ := shiftFlags_effect (op s.a (getFlag s.p .c)) s.p
  exact ⟨_, _, hi, hn, hcarry.trans hc, hrest⟩

/-- An instruction that shifts the byte of memory of a form, its computation giving the number `n` and the carry
`c`, reads it once and writes it once. -/
theorem exec_shiftMemory {m : RmwForm} {f : MemForm} (hm : m = .mem f)
    (hi : exec i s = .next (shiftOperand op m s)) :
    let e := (effAddr f s).addr
    let r := read8 e s
    (op r.1 (getFlag s.p .c)).r.toNat = n ∧ (op r.1 (getFlag s.p .c)).c = c →
    ∃ t b q, exec i s = .next t ∧ b.toNat = n ∧ getFlag q .c = c ∧ ShowsNZ b q ∧ FlagsKept [.c, .z, .n] s.p q ∧
      StoreEffect e b { r.2 with p := q } t := by
  subst hm
  rintro e r ⟨hn, hc⟩
  obtain ⟨hcarry, hnz, hkept⟩ := shiftFlags_effect (op r.1 (getFlag s.p .c)) s.p
  exact ⟨_, _, _, hi, hn, hcarry.trans hc, hnz, hkept, shiftOperand_storeEffect op f s⟩

end

/-! ## ASL, LSR, ROL and ROR -/

/-- Settles O30: each is a shift of A by its own computation, whose number and carry are known. -/
theorem shiftsOfTheAccumulator : Obligations.ShiftsOfTheAccumulator := by
  unfold Obligations.ShiftsOfTheAccumulator
  obtain ⟨⟨hasl, -⟩, ⟨hlsr, -⟩, ⟨hrol, -⟩, ⟨hror, -⟩⟩ := decodesShift_shifts
  exact ⟨⟨hasl, hlsr, hrol, hror⟩, fun _ => ⟨exec_shiftAcc rfl (aslResult_eq _ _),
    exec_shiftAcc rfl (lsrResult_eq _ _), exec_shiftAcc rfl (rolResult_eq _ _), exec_shiftAcc rfl (rorResult_eq _ _)⟩⟩

/-- Settles O31: each is the same computation as on A, done to the byte read at the effective address. -/
theorem shiftsOfMemory : Obligations.ShiftsOfMemory := by
  unfold Obligations.ShiftsOfMemory
  exact ⟨decodesShift_shifts, fun _ _ _ hm => ⟨exec_shiftMemory hm rfl (aslResult_eq _ _),
    exec_shiftMemory hm rfl (lsrResult_eq _ _), exec_shiftMemory hm rfl (rolResult_eq _ _),
    exec_shiftMemory hm rfl (rorResult_eq _ _)⟩⟩

end Sys2Proof.Machine
end

section
/-! PROOFS. Control transfer (44_control_transfer R121 to R125, R135): JMP; JSR, BRK and what they push; RTS, RTI and
what they pull; and the pulls that undo pushes (R124, R125; 45_stack_status_misc R137, R138). -/

namespace Sys2Proof.Machine

/-! ## JMP -/

theorem loByte_eq_ff_iff (w : Word) : loByte w = 0xFF ↔ w.toNat % 256 = 255 := by
  rw [← BitVec.toNat_inj, loByte_toNat]
  rfl

/-- Clearing the low byte gives the start of the page. -/
theorem pageStart_toNat (w : Word) : (w &&& 0xFF00).toNat = w.toNat - w.toNat % 256 := by
  have h : w &&& (BitVec.allOnes 16 <<< 8) = w >>> 8 <<< 8 := BitVec.shiftLeft_ushiftRight.symm
  change (w &&& (BitVec.allOnes 16 <<< 8)).toNat = _
  rw [h, BitVec.toNat_shiftLeft, BitVec.toNat_ushiftRight, Nat.shiftRight_eq_div_pow, Nat.shiftLeft_eq]
  omega

/-- The target of JMP (Indirect) is a pair read at the pointer and at the address that R80 gives for its high byte. -/
theorem indirectTarget_eq_readPair {ptr hiAddr : Word} {s : State}
    (h : hiAddr.toNat = if s.cfg.jmpIndirectPageWrap = true ∧ ptr.toNat % 256 = 255 then ptr.toNat - 255
      else (ptr.toNat + 1) % 65536) :
    indirectTarget ptr s = readPair ptr hiAddr s := by
  simp only [indirectTarget, read16, Bool.and_eq_true, beq_iff_eq, loByte_eq_ff_iff]
  split at h
  next hw =>
    rw [if_pos hw, BitVec.eq_of_toNat_eq (h.trans ((pageStart_toNat ptr).trans (by rw [hw.2])).symm)]
  next hw =>
    rw [if_neg hw, BitVec.eq_of_toNat_eq (h.trans (BitVec.toNat_add ptr 1).symm)]

/-- Settles O32: the target of the indirect form is a pair of reads, and these change only what reads may. -/
theorem jmpSetsPc : Obligations.JmpSetsPc := by
  unfold Obligations.JmpSetsPc
  refine ⟨fun _ _ _ => rfl, fun _ _ _ => rfl, fun w s => ⟨rfl, fun hiAddr h => ?_⟩⟩
  have hexec : exec (.jmp (.ind w)) s =
      .next { (readPair w hiAddr s).2 with pc := (readPair w hiAddr s).1 } := by
    rw [← indirectTarget_eq_readPair h]
    rfl
  obtain ⟨-, -, -, -, -, hkept⟩ := nonStoringInstructionsKeepMemory (.jmp (.ind w)) s _ rfl hexec
  have hf := readPair_frame w hiAddr s
  refine ⟨_, hexec, rfl, ?_, hkept⟩
  rw [← hf.pc]
  exact hf

/-! ## What pushes and pulls do -/

/-- A pull in the terms of the claims: a bus read one above SP, which changes nothing. -/
theorem pull8_eq_read8 (s : State) :
    pull8 s = ((read8 (0x0100 + zext16 (s.sp + 1)) s).1, { s with sp := s.sp + 1 }) := by
  rw [pull8_eq, read8_stack]

/-- A 16-bit pull in the terms of the claims: two bus reads above SP, the low byte first. -/
theorem pull16_eq_read8 (s : State) :
    pull16 s =
      (mkWord (read8 (0x0100 + zext16 (s.sp + 2)) s).1 (read8 (0x0100 + zext16 (s.sp + 1)) s).1,
        { s with sp := s.sp + 2 }) := by
  rw [pull16_eq, read8_stack, read8_stack]

/-- A push in the terms of the claims: one byte is pushed, SP falls by 1, and nothing else changes. -/
theorem push8_effect (b : Byte) (s : State) :
    ∃ t, push8 b s = t ∧ t = { s with ram := t.ram, sp := s.sp - 1 } ∧ Pushed [b] s t :=
  ⟨_, push8_pushRam b s, rfl, pushed_of rfl (by simp) fun _ => rfl⟩

theorem exec_jsr (w : Word) (s : State) :
    exec (.jsr w) s =
      .next { s with pc := w, sp := s.sp - 2, ram := pushRam [hiByte (s.pc - 1), loByte (s.pc - 1)] s.sp s.ram } := by
  rw [exec, execJsr, push16_pushRam]

theorem exec_rts (s : State) :
    exec .rts s = .next { s with
      sp := s.sp + 2
      pc := mkWord (read8 (0x0100 + zext16 (s.sp + 2)) s).1 (read8 (0x0100 + zext16 (s.sp + 1)) s).1 + 1 } := by
  rw [exec, execRts, pull16_eq_read8]

theorem exec_rti (s : State) :
    exec .rti s = .next { s with
      p := pulledStatus (read8 (0x0100 + zext16 (s.sp + 1)) s).1
      sp := s.sp + 3
      pc := mkWord (read8 (0x0100 + zext16 (s.sp + 3)) s).1 (read8 (0x0100 + zext16 (s.sp + 2)) s).1 } := by
  have hlo : s.sp + 1 + 1 = s.sp + 2 := BitVec.add_assoc _ _ _
  have hhi : s.sp + 1 + 2 = s.sp + 3 := BitVec.add_assoc _ _ _
  simp only [exec, execRti, returnFromInterrupt, pull8_eq, pull16_eq, read8_stack, hlo, hhi]

/-- A pushed byte reads back at its place, in whatever way the place is written. -/
theorem Pushed.read8_eq {bs : List Byte} {s t : State} (h : Pushed bs s t) (hw : Memory.wf 2048 s.ram = true)
    {sp : Byte} {k : Nat} (hk : k < bs.length) (hsp : sp = s.sp - BitVec.ofNat 8 k) :
    (read8 (0x0100 + zext16 sp) t).1 = bs[k] := hsp ▸ h.readBack hw k hk

/-! ## JSR, RTS, BRK and RTI -/

/-- Settles O33: the closed forms of JSR and RTS; the bytes JSR pushed are those of PC - 1. -/
theorem jsrPushesAndRtsPulls : Obligations.JsrPushesAndRtsPulls := by
  unfold Obligations.JsrPushesAndRtsPulls
  exact ⟨fun _ _ _ => rfl, fun _ => rfl,
    fun s => ⟨fun w => ⟨_, exec_jsr w s, rfl, pushed_of rfl (by simp) fun _ => rfl⟩, exec_rts s⟩⟩

/-- Settles O35: BRK is the entry that interrupts share, with its own saved PC and image. -/
theorem brkEntersThroughTheIrqVector : Obligations.BrkEntersThroughTheIrqVector := by
  unfold Obligations.BrkEntersThroughTheIrqVector
  exact ⟨fun _ => rfl, fun s =>
    ⟨_, rfl, enterInterrupt_effect (s.pc + 1) (breakImage s.p) irqVector s (by decide) (by decide)⟩⟩

/-- Settles O36: P is the image that `pulledStatus` makes of the first pulled byte. -/
theorem rtiPullsStatusAndPc : Obligations.RtiPullsStatusAndPc := by
  unfold Obligations.RtiPullsStatusAndPc
  exact ⟨fun _ => rfl, fun s => ⟨_, exec_rti s, getFlag_pulledStatus _, heldBits_pulledStatus _⟩⟩

/-! ## What the pulls find after the pushes -/

section
variable {s t : State} {w : Word} {b : Byte}

/-- RTS after two pushed bytes finds their word. -/
theorem exec_rts_of_pushed (hw : Memory.wf 2048 s.ram = true) (h : Pushed [hiByte w, loByte w] s t)
    (hsp : t.sp = s.sp - 2) : exec .rts t = .next { t with pc := w + 1, sp := s.sp } := by
  have hlo := h.read8_eq hw (sp := t.sp + 1) (k := 1) (by simp) (by rw [hsp]; bv_omega)
  have hhi := h.read8_eq hw (sp := t.sp + 2) (k := 0) (by simp) (by rw [hsp]; bv_omega)
  rw [exec_rts, hlo, hhi, hsp, BitVec.sub_add_cancel]
  simp

/-- RTI after an entry's three bytes finds the word and the status image. -/
theorem exec_rti_of_pushed (hw : Memory.wf 2048 s.ram = true) (h : Pushed [hiByte w, loByte w, b] s t)
    (hsp : t.sp = s.sp - 3) : exec .rti t = .next { t with p := pulledStatus b, pc := w, sp := s.sp } := by
  have himage := h.read8_eq hw (sp := t.sp + 1) (k := 2) (by simp) (by rw [hsp]; bv_omega)
  have hlo := h.read8_eq hw (sp := t.sp + 2) (k := 1) (by simp) (by rw [hsp]; bv_omega)
  have hhi := h.read8_eq hw (sp := t.sp + 3) (k := 0) (by simp) (by rw [hsp]; bv_omega)
  rw [exec_rti, himage, hlo, hhi, hsp, BitVec.sub_add_cancel]
  simp

/-- A pull after one pushed byte finds it. -/
theorem pull8_of_pushed (hw : Memory.wf 2048 s.ram = true) (h : Pushed [b] s t) (hsp : t.sp = s.sp - 1) :
    pull8 t = (b, { t with sp := s.sp }) := by
  have hb := h.read8_eq hw (sp := t.sp + 1) (k := 0) (by simp) (by rw [hsp]; bv_omega)
  rw [pull8_eq_read8, hb, hsp, BitVec.sub_add_cancel]
  rfl

end

/-- Settles O38: each return pulls the bytes that its call pushed, which read back since RAM is in form. -/
theorem returnsUndoCalls : Obligations.ReturnsUndoCalls := by
  unfold Obligations.ReturnsUndoCalls
  refine fun s hw => ⟨fun w => ?call, fun hheld => ?interrupt, ?pha, fun hheld => ?php⟩
  case call =>
    obtain ⟨-, -, hjsr⟩ := jsrPushesAndRtsPulls
    obtain ⟨t, hexec, ht, hpushed⟩ := (hjsr s).1 w
    refine ⟨t, hexec, ?_, by rw [ht]⟩
    rw [exec_rts_of_pushed hw hpushed (by rw [ht]), BitVec.sub_add_cancel]
  case interrupt =>
    obtain ⟨-, hbrk⟩ := brkEntersThroughTheIrqVector
    obtain ⟨t, hexec, ht, -, -, -, -, hpushed⟩ := hbrk s
    refine ⟨t, hexec, ?_⟩
    rw [exec_rti_of_pushed hw hpushed (by rw [ht]), ← breakImage, pulledStatus_breakImage hheld]
  case pha =>
    obtain ⟨t, hpush, ht, hpushed⟩ := push8_effect s.a s
    refine ⟨t, setNZ s.a s.p, congrArg _ hpush, ?_, by rw [ht], by rw [ht], showsNZ_setNZ _ _, flagsKept_setNZ _ _⟩
    rw [exec, execPla, pull8_of_pushed hw hpushed (by rw [ht]), ht]
    rfl
  case php =>
    obtain ⟨t, hpush, ht, hpushed⟩ := push8_effect (breakImage s.p) s
    refine ⟨t, congrArg _ hpush, ?_, by rw [ht], by rw [ht]⟩
    rw [exec, execPlp, pull8_of_pushed hw hpushed (by rw [ht]), pulledStatus_breakImage hheld, ht]

end Sys2Proof.Machine
end

section
/-! PROOFS. The stack, the flag instructions, NOP and the unknown opcodes (45_stack_status_misc R136 to R148): single
pushes and pulls, single writes of a flag, and steps that only advance PC and charge a cost. -/

namespace Sys2Proof.Machine

/-! ## Pushes and pulls -/

theorem exec_pla (s : State) :
    exec .pla s = .next { s with
      a := (read8 (0x0100 + zext16 (s.sp + 1)) s).1
      sp := s.sp + 1
      p := setNZ (read8 (0x0100 + zext16 (s.sp + 1)) s).1 s.p } := by
  rw [exec, execPla, pull8_eq_read8]
  rfl

theorem exec_plp (s : State) :
    exec .plp s = .next { s with
      sp := s.sp + 1
      p := pulledStatus (read8 (0x0100 + zext16 (s.sp + 1)) s).1 } := by
  rw [exec, execPlp, pull8_eq_read8]

/-- Settles O37: both pushes are `push8` and both pulls are one bus read above SP. -/
theorem stackInstructionsMoveOneByte : Obligations.StackInstructionsMoveOneByte := by
  unfold Obligations.StackInstructionsMoveOneByte
  refine ⟨⟨fun _ => rfl, fun _ => rfl, fun _ => rfl, fun _ => rfl⟩, fun s => ⟨?pha, ?php, ?pla, ?plp⟩⟩
  case pha =>
    obtain ⟨t, hpush, heffect⟩ := push8_effect s.a s
    exact ⟨t, congrArg _ hpush, heffect⟩
  case php =>
    obtain ⟨t, hpush, heffect⟩ := push8_effect (breakImage s.p) s
    exact ⟨t, congrArg _ hpush, heffect⟩
  case pla => exact exists_setNZ (exec_pla s)
  case plp => exact ⟨_, exec_plp s, getFlag_pulledStatus _, heldBits_pulledStatus _⟩

/-! ## The flag instructions -/

/-- An instruction that is one write of a flag changes that flag and nothing else. -/
theorem exists_setFlagOf {i : Instr} {s : State} {f : Flag} {b : Bool} (h : exec i s = .next (setFlagOf f b s)) :
    ∃ q, exec i s = .next { s with p := q } ∧ getFlag q f = b ∧ FlagsKept [f] s.p q :=
  ⟨setFlag s.p f b, h, getFlag_setFlag_self s.p f b, flagsKept_setFlag s.p f b⟩

/-- Settles O39: each of the seven is one `setFlagOf`. -/
theorem flagInstructionsWriteOneFlag : Obligations.FlagInstructionsWriteOneFlag := by
  unfold Obligations.FlagInstructionsWriteOneFlag
  intro s r hr
  simp only [List.mem_cons, List.not_mem_nil, or_false] at hr
  rcases hr with rfl | rfl | rfl | rfl | rfl | rfl | rfl <;> exact ⟨fun _ => rfl, exists_setFlagOf rfl⟩

/-! ## NOP and the unknown opcodes -/

/-- The step that runs an opcode with no operand byte, where the read of that opcode changes nothing. -/
theorem RunsNow.step_implied {s : State} (hs : RunsNow s) {op : Byte} (hn : operandCount op = 0)
    (hread : read8 s.pc s = (op, s)) :
    step s = exec (decodeOp op 0 0) { s with
      inputs := s.inputs.tail, pc := s.pc + 1, cycles := s.cycles + BitVec.ofNat 64 (fetchCost s.cfg op) } := by
  rw [hs.step_fetch, fetch_zero (by rw [hread]; exact hn), hread]
  rfl

theorem unknownOpLength_pos (c : Config) (op : Byte) : 0 < unknownOpLength c op := by
  unfold unknownOpLength
  cases entryOr op .one c.unknownOpLength <;> decide

/-- The body of an unknown opcode, its length counted from the opcode byte, which the fetch has passed. -/
theorem exec_unknown (op : Byte) (s : State) :
    exec (.unknown op) s = .next { s with
      pc := s.pc - 1 + BitVec.ofNat 16 (unknownOpLength s.cfg op)
      cycles := s.cycles + BitVec.ofNat 64 (unknownOpCycles s.cfg op) } := by
  have hpc : s.pc + BitVec.ofNat 16 (unknownOpLength s.cfg op - 1) =
      s.pc - 1 + BitVec.ofNat 16 (unknownOpLength s.cfg op) := by
    rw [← BitVec.ofNat_sub_ofNat_of_le _ 1 (by decide) (unknownOpLength_pos s.cfg op), ← add_sub_assoc]
    exact add_sub_right_comm _ _ _
  rw [exec, execUnknown, hpc]
  rfl

/-- Settles O40: both are opcodes without an operand byte; the fetch charges NOP, and the body of an unknown opcode,
whose fetch is free, charges it. -/
theorem nopsOnlyAdvance : Obligations.NopsOnlyAdvance := by
  unfold Obligations.NopsOnlyAdvance
  refine fun s => ⟨rfl, fun op _ => ⟨_, exec_unknown op s, rfl⟩, fun hs hread => ?nop, fun hs op hop hread => ?unknown⟩
  case nop =>
    rw [hs.step_implied rfl hread, fetchCost_documented _ (by decide)]
    rfl
  case unknown =>
    rw [hs.step_implied (operandCount_unknown hop) hread, decodeOp_unknown hop, exec_unknown, fetchCost_unknown _ hop]
    simp

end Sys2Proof.Machine
end

section
/-! PROOFS. Exceptions and what the outside asks (60_exceptions R149, R151 to R156, R165): instructions never fault, host
calls come between frames, and IRQ and NMI share one service, an interrupt's entry and its 7 cycles. -/

namespace Sys2Proof.Machine

/-- Settles O13, from what each instruction answers. -/
theorem everyInstructionCompletes : Obligations.EveryInstructionCompletes := by
  unfold Obligations.EveryInstructionCompletes
  intro i s
  obtain ⟨t, ht, -⟩ := exec_next i s
  exact ⟨t, ht⟩

/-! ## Host calls -/

/-- A step with something listed takes it off the list and does it. -/
theorem step_of_inputs {s : State} {i : HostInput} {rest : List HostInput} (h : s.inputs = i :: rest) :
    step s = takeInput i { s with inputs := rest } := by
  rw [step, machineStep, h]

/-- Settles O12: every input but `run` and `irq` is a `hostCall`, which looks at the phase first. -/
theorem hostCallsOnlyBetweenFrames : Obligations.HostCallsOnlyBetweenFrames := by
  unfold Obligations.HostCallsOnlyBetweenFrames
  intro s rest
  refine ⟨fun hp i hi hrun hirq => ?refused, fun hp c hi => ?cart, fun hp e hi => ?ext⟩
  case refused =>
    rw [step_of_inputs hi]
    cases i with
    | run => exact absurd rfl hrun
    | irq => exact absurd rfl hirq
    | reset | drawFrame | attachCart c | attachExt e => exact if_neg hp
  case cart =>
    rw [step_of_inputs hi]
    exact if_pos hp
  case ext =>
    rw [step_of_inputs hi]
    exact if_pos hp

/-! ## IRQ and NMI -/

/-- Bytes stay pushed when cycles are charged: a bus read does not look at the count. -/
theorem Pushed.charge {bs : List Byte} {s t : State} (h : Pushed bs s t) (n : Nat) : Pushed bs s (charge n t) where
  readBack := by simpa only [read8_charge] using h.readBack
  memory := by simpa only [PlainKept, read8_charge] using h.memory

/-- Bytes pushed after an input is taken off the list count as pushed before: a bus read does not look at the list. -/
theorem Pushed.of_inputs {bs : List Byte} {s t : State} {l : List HostInput} (h : Pushed bs { s with inputs := l } t) :
    Pushed bs s t where
  readBack := h.readBack
  memory a ha hn := by rw [h.memory a ha hn, read8_inputs]

/-- The service that IRQ and NMI share, in the terms of the claims (60_exceptions R153, R154, R156). -/
theorem interruptService_effect (vector : Word) (s : State) (hv : 0x4020 ≤ vector.toNat)
    (hv' : 0x4020 ≤ (vector + 1).toNat) :
    let t := charge 7 (enterInterrupt s.pc (interruptImage s.p) vector s)
    t = { s with ram := t.ram, sp := s.sp - 3, p := t.p, pc := t.pc, cart := t.cart, cycles := s.cycles + 7 } ∧
    t.pc = mkWord (read8 (vector + 1) (read8 vector s).2).1 (read8 vector s).1 ∧
    t.cart = (read8 (vector + 1) (read8 vector s).2).2.cart ∧
    getFlag t.p .i = true ∧ FlagsKept [.i] s.p t.p ∧ Pushed [hiByte s.pc, loByte s.pc, interruptImage s.p] s t := by
  obtain ⟨hframe, hpc, hcart, hi, hkept, hpushed⟩ :=
    enterInterrupt_effect s.pc (interruptImage s.p) vector s hv hv'
  exact ⟨congrArg (charge 7) hframe, hpc, hcart, hi, hkept, hpushed.charge 7⟩

/-- Settles O53: the service through the NMI's vector, which does not look at I. -/
theorem nmiEntersWhateverI : Obligations.NmiEntersWhateverI := by
  unfold Obligations.NmiEntersWhateverI
  exact fun s => ⟨_, rfl, interruptService_effect nmiVector s (by decide) (by decide)⟩

theorem irqService_of_set {s : State} (h : getFlag s.p .i = true) : irqService s = s := if_pos h

theorem irqService_of_clear {s : State} (h : getFlag s.p .i = false) :
    irqService s = charge 7 (enterInterrupt s.pc (interruptImage s.p) irqVector s) :=
  if_neg (Bool.eq_false_iff.mp h)

/-- An IRQ asked of a machine that is not faulted is the IRQ service, with the request taken off the list. -/
theorem step_irq_of_not_faulted {s : State} {rest : List HostInput} (hf : s.faulted = false)
    (hi : s.inputs = .irq :: rest) : step s = .next (irqService { s with inputs := rest }) := by
  rw [step_of_inputs hi]
  exact if_neg (Bool.eq_false_iff.mp hf)

/-- Settles O52: with I clear the step is the service through the IRQ's vector, whose reads and pushes do not look at
what is listed. -/
theorem irqIsDroppedOrEntered : Obligations.IrqIsDroppedOrEntered := by
  unfold Obligations.IrqIsDroppedOrEntered
  intro s rest hf hi
  rw [step_irq_of_not_faulted hf hi]
  refine ⟨fun hset => ?dropped, fun hclear => ?entered⟩
  case dropped => exact congrArg _ (irqService_of_set hset)
  case entered =>
    obtain ⟨hframe, hpc, hcart, hflag, hkept, hpushed⟩ :=
      interruptService_effect irqVector { s with inputs := rest } (by decide) (by decide)
    simp only [read8_inputs] at hpc hcart
    exact ⟨_, congrArg _ (irqService_of_clear hclear), hframe, hpc, hcart, hflag, hkept, hpushed.of_inputs⟩

end Sys2Proof.Machine
end

section
/-! PROOFS. The OAM DMA and the PPU's registers (61_ppu_oam R166 to R175, R197; 20_memory R45, R47). -/

namespace Sys2Proof.Machine

/-! ## The OAM DMA -/

/-- The state after the first `n` bytes of an OAM DMA. -/
def dmaAfter (base : Word) (s : State) (n : Nat) : State := (List.range n).foldl (dmaByte base) s

theorem dmaAfter_zero (base : Word) (s : State) : dmaAfter base s 0 = s := rfl

theorem dmaAfter_succ (base : Word) (s : State) (n : Nat) :
    dmaAfter base s (n + 1) = dmaByte base (dmaAfter base s n) n := by
  rw [dmaAfter, List.range_succ, List.foldl_append]
  rfl

theorem write8_dma_eq (d : Byte) (s : State) : write8 0x4014 d s = charge 512 (dmaAfter (mkWord d 0) s 256) := rfl

/-- The copy leaves the cycle count and the OAM address. -/
theorem dmaAfter_kept (base : Word) (s : State) (n : Nat) :
    (dmaAfter base s n).cycles = s.cycles ∧ (dmaAfter base s n).ppu.oamaddr = s.ppu.oamaddr := by
  induction n with
  | zero => exact ⟨rfl, rfl⟩
  | succ n ih =>
    have f := read8_frame (base + BitVec.ofNat 16 n) (dmaAfter base s n)
    rw [dmaAfter_succ]
    exact ⟨f.cycles.trans ih.1, f.oamaddr.trans ih.2⟩

/-- The addresses of page `d`. -/
theorem pageAddr_eq (d : Byte) (i : Nat) : mkWord d 0 + BitVec.ofNat 16 i = BitVec.ofNat 16 (256 * d.toNat + i) := by
  have hd : mkWord d 0 = BitVec.ofNat 16 (256 * d.toNat) := by revert d; decide
  rw [hd, BitVec.ofNat_add]

theorem exec_sta_dma (s : State) : exec (.sta (.abs 0x4014)) s = .next (write8 0x4014 s.a s) := rfl

/-- Settles O43: the copy is a fold of single reads, each put into OAM before the next; none of them changes the cycle
count or the OAM address, and on a page of memory proper none changes anything but OAM. -/
theorem oamDmaCopiesThePage : Obligations.OamDmaCopiesThePage := by
  unfold Obligations.OamDmaCopiesThePage
  refine ⟨fun d s => ⟨dmaAfter (mkWord d 0) s, dmaAfter_zero _ s, fun i _ => ?read, ?charged, ?addr⟩, exec_sta_dma,
    fun s hw hp => ?plain⟩
  case read =>
    rw [← pageAddr_eq]
    exact dmaAfter_succ _ s i
  case charged =>
    rw [write8_dma_eq, charge, (dmaAfter_kept _ s 256).1]
    rfl
  case addr =>
    rw [write8_dma_eq, charge_ppu]
    exact (dmaAfter_kept _ s 256).2
  case plain =>
    simp only [← pageAddr_eq] at hp ⊢
    obtain ⟨o, e, -, hget, -⟩ := dmaFold_plain s (mkWord s.a 0) 256 (Nat.le_refl _) hw hp
    have e' : write8 0x4014 s.a s = charge 512 { s with ppu := { s.ppu with oam := o } } := congrArg (charge 512) e
    exact ⟨_, exec_sta_dma s, by rw [e']; rfl, by rw [e']; exact hget⟩

/-! ## The registers at any of their mirrors -/

section
variable {a r : Word}

theorem read8_register (h : 0x2000 ≤ a.toNat) (h' : a.toNat ≤ 0x3FFF) (hr : r.toNat = 0x2000 + a.toNat % 8)
    (s : State) : read8 a s = ppuRegRead r s := by
  rw [read8_ppu h h', ppuRegAddr_eq hr]

theorem write8_register (h : 0x2000 ≤ a.toNat) (h' : a.toNat ≤ 0x3FFF) (hr : r.toNat = 0x2000 + a.toNat % 8)
    (d : Byte) (s : State) : write8 a d s = ppuRegWrite r d s := by
  rw [write8_ppu h h', ppuRegAddr_eq hr]

end

/-! Bits beyond a word's width are 0, so a lemma about every bit of a word looks at those of its width one by one. -/

theorem clearVbl_bits (b : Byte) (i : Nat) : (b &&& 0x7F).getLsbD i = (b.getLsbD i && decide (i ≠ 7)) := by
  by_cases hi : i < 8
  · interval_cases i <;> simp
  · simp [BitVec.getLsbD_of_ge _ i (Nat.le_of_not_lt hi)]

/-- Settles O44: each register at its mirrors is one branch of `PpuRegRead`. -/
theorem ppuRegisterReads : Obligations.PpuRegisterReads := by
  unfold Obligations.PpuRegisterReads
  intro a s h h'
  have reg (r : Word) (hr : r.toNat = 0x2000 + a.toNat % 8) : read8 a s = ppuRegRead r s := read8_register h h' hr s
  refine ⟨fun hk => ⟨s.ppu.status &&& 0x7F, reg 0x2002 (by rw [hk]; rfl), clearVbl_bits _⟩,
    fun hk => reg 0x2004 (by rw [hk]; rfl), ?_⟩
  rintro (hk | hk | hk | hk | hk)
  · exact reg 0x2000 (by rw [hk]; rfl)
  · exact reg 0x2001 (by rw [hk]; rfl)
  · exact reg 0x2003 (by rw [hk]; rfl)
  · exact reg 0x2005 (by rw [hk]; rfl)
  · exact reg 0x2006 (by rw [hk]; rfl)

theorem ctrl0Write_t_bits (d : Byte) (p : Ppu) (i : Nat) :
    (ctrl0Write d p).t.getLsbD i =
      if i = 10 then d.getLsbD 0 else if i = 11 then d.getLsbD 1 else p.t.getLsbD i := by
  by_cases hi : i < 15
  · interval_cases i <;> simp
  · simp [show i ≠ 10 by omega, show i ≠ 11 by omega, BitVec.getLsbD_of_ge _ i (Nat.le_of_not_lt hi)]

/-- Settles O45: each register at its mirrors is one branch of `PpuRegWrite`. -/
theorem ppuControlAndOamWrites : Obligations.PpuControlAndOamWrites := by
  unfold Obligations.PpuControlAndOamWrites
  intro a d s h h'
  have reg (r : Word) (hr : r.toNat = 0x2000 + a.toNat % 8) : write8 a d s = ppuRegWrite r d s :=
    write8_register h h' hr d s
  refine ⟨fun hk => ⟨_, reg 0x2000 (by rw [hk]; rfl), ctrl0Write_t_bits d s.ppu⟩,
    fun hk => reg 0x2001 (by rw [hk]; rfl), fun hk => reg 0x2002 (by rw [hk]; rfl),
    fun hk => reg 0x2003 (by rw [hk]; rfl), fun hk => ⟨_, _, reg 0x2004 (by rw [hk]; rfl), ?addr, ?written, ?kept⟩⟩
  case addr => exact byte_succ_toNat s.ppu.oamaddr
  case written => exact fun hw => SparseMap.get_set_self hw
  case kept => exact fun i hi => SparseMap.get_set_ne hi

section
variable {p : Ppu}

theorem scrollWrite_first (hw : p.w = false) (d : Byte) :
    scrollWrite d p = { p with t := (p.t &&& 0x7FE0) ||| (d >>> 3).setWidth 15, x := d.setWidth 3, w := true } := by
  simp [scrollWrite, hw]

theorem scrollWrite_second (hw : p.w = true) (d : Byte) :
    scrollWrite d p =
      { p with
        t := (p.t &&& 0x0C1F) ||| ((d &&& 0x07).setWidth 15 <<< 12) ||| ((d >>> 3).setWidth 15 <<< 5)
        w := false } := by
  simp [scrollWrite, hw]

theorem scrollWrite_first_t_bits (hw : p.w = false) (d : Byte) (i : Nat) :
    (scrollWrite d p).t.getLsbD i = if i < 5 then d.getLsbD (i + 3) else p.t.getLsbD i := by
  rw [scrollWrite_first hw]
  by_cases hi : i < 15
  · interval_cases i <;> simp
  · simp [show ¬i < 5 by omega, BitVec.getLsbD_of_ge _ i (Nat.le_of_not_lt hi)]

theorem scrollWrite_first_x_bits (hw : p.w = false) (d : Byte) {i : Nat} (hi : i < 3) :
    (scrollWrite d p).x.getLsbD i = d.getLsbD i := by
  rw [scrollWrite_first hw, BitVec.getLsbD_setWidth, decide_eq_true hi, Bool.true_and]

theorem scrollWrite_second_t_bits (hw : p.w = true) (d : Byte) (i : Nat) :
    (scrollWrite d p).t.getLsbD i =
      if 5 ≤ i ∧ i < 10 then d.getLsbD (i - 2) else if 12 ≤ i ∧ i < 15 then d.getLsbD (i - 12) else p.t.getLsbD i := by
  rw [scrollWrite_second hw]
  by_cases hi : i < 15
  · interval_cases i <;> simp
  · simp [show ¬i < 10 by omega, hi, BitVec.getLsbD_of_ge _ i (Nat.le_of_not_lt hi)]

theorem addrWrite_first (hw : p.w = false) (d : Byte) :
    addrWrite d p = { p with t := (p.t &&& 0x00FF) ||| ((d &&& 0x3F).setWidth 15 <<< 8), w := true } := by
  simp [addrWrite, hw]

theorem addrWrite_second (hw : p.w = true) (d : Byte) :
    addrWrite d p =
      { p with t := (p.t &&& 0x7F00) ||| d.setWidth 15, v := (p.t &&& 0x7F00) ||| d.setWidth 15, w := false } := by
  simp [addrWrite, hw]

theorem addrWrite_first_t_bits (hw : p.w = false) (d : Byte) (i : Nat) :
    (addrWrite d p).t.getLsbD i =
      if 8 ≤ i ∧ i < 14 then d.getLsbD (i - 8) else if i = 14 then false else p.t.getLsbD i := by
  rw [addrWrite_first hw]
  by_cases hi : i < 15
  · interval_cases i <;> simp
  · simp [show ¬i < 14 by omega, BitVec.getLsbD_of_ge _ i (Nat.le_of_not_lt hi)]

theorem addrWrite_second_t_bits (hw : p.w = true) (d : Byte) (i : Nat) :
    (addrWrite d p).t.getLsbD i = if i < 8 then d.getLsbD i else p.t.getLsbD i := by
  rw [addrWrite_second hw]
  by_cases hi : i < 15
  · interval_cases i <;> simp
  · simp [show ¬i < 8 by omega, BitVec.getLsbD_of_ge _ i (Nat.le_of_not_lt hi)]

theorem addrWrite_first_w (hw : p.w = false) (d : Byte) : (addrWrite d p).w = true := by
  rw [addrWrite_first hw]

/-- The two halves of an address, as a number (R173 twice). -/
theorem addrWrite_twice_toNat (hw : p.w = false) (d lo : Byte) :
    (addrWrite lo (addrWrite d p)).t.toNat = (256 * d.toNat + lo.toNat) % 0x4000 := by
  have e : (addrWrite lo (addrWrite d p)).t = ((mkWord d lo).setWidth 14).setWidth 15 := by
    refine BitVec.eq_of_getLsbD_eq fun i hi => ?_
    rw [addrWrite_second_t_bits (addrWrite_first_w hw d), addrWrite_first_t_bits hw, mkWord, BitVec.getLsbD_setWidth,
      BitVec.getLsbD_setWidth, BitVec.getLsbD_append]
    interval_cases i <;> simp
  rw [e, BitVec.toNat_setWidth, BitVec.toNat_setWidth, mkWord_toNat]
  omega

end

/-- Settles O46: both positions of the toggle, bit by bit. -/
theorem scrollWritesFillT : Obligations.ScrollWritesFillT := by
  unfold Obligations.ScrollWritesFillT
  intro a d s h h' hk
  have e : write8 a d s = { s with ppu := scrollWrite d s.ppu } :=
    write8_register (r := 0x2005) h h' (by rw [hk]; rfl) d s
  refine ⟨fun hw => ⟨_, _, ?first, scrollWrite_first_t_bits hw d, fun i hi => scrollWrite_first_x_bits hw d hi⟩,
    fun hw => ⟨_, ?second, scrollWrite_second_t_bits hw d⟩⟩
  case first => rw [e, scrollWrite_first hw]
  case second => rw [e, scrollWrite_second hw]

/-- Settles O47: both positions of the toggle, bit by bit, and the one after the other. -/
theorem addressWritesFillTAndV : Obligations.AddressWritesFillTAndV := by
  unfold Obligations.AddressWritesFillTAndV
  intro a d s h h' hk
  have e (b : Byte) (u : State) : write8 a b u = { u with ppu := addrWrite b u.ppu } :=
    write8_register (r := 0x2006) h h' (by rw [hk]; rfl) b u
  simp only [e]
  refine ⟨fun hw => ⟨_, ?first, addrWrite_first_t_bits hw d⟩, fun hw => ⟨_, ?second, addrWrite_second_t_bits hw d⟩,
    fun hw lo => ⟨_, ?both, addrWrite_twice_toNat hw d lo⟩⟩
  case first => rw [addrWrite_first hw]
  case second => rw [addrWrite_second hw]
  case both => rw [addrWrite_first hw, addrWrite_second rfl]

/-! ## The data port -/

/-- v advances by 1 or 32 (R174, R175). -/
theorem bumpV_toNat (p : Ppu) :
    (p.v + p.inc).toNat = (p.v.toNat + if p.ctrl0.getLsbD 2 then 32 else 1) % 0x8000 := by
  rw [BitVec.toNat_add, Ppu.inc, apply_ite BitVec.toNat]
  rfl

theorem vramAddr_eq (v : BitVec 15) : vramAddr v = BitVec.ofNat 14 (v.toNat % 0x4000) :=
  BitVec.eq_of_toNat_eq (by simp [vramAddr])

theorem vramAddr_toNat (v : BitVec 15) : (vramAddr v).toNat = v.toNat % 0x4000 := BitVec.toNat_setWidth 14 v

section
variable {a : PpuAddr}

/-! A VRAM write in each of the three regions of the PPU's address space (R176). -/

theorem vramWrite_chr (h : a.toNat < 0x2000) (d : Byte) (s : State) :
    vramWrite a d s = { s with cart := cartChrWrite s.cart a d } := if_pos h

theorem vramWrite_nt (h : 0x2000 ≤ a.toNat) (h' : a.toNat < 0x3F00) (d : Byte) (s : State) :
    vramWrite a d s = { s with ppu := { s.ppu with nt := s.ppu.nt.set (ntKey s.cart a) d } } := by
  rw [vramWrite, if_neg (Nat.not_lt.mpr h), if_pos h']

theorem vramWrite_palette (h : 0x3F00 ≤ a.toNat) (d : Byte) (s : State) :
    vramWrite a d s = { s with ppu := { s.ppu with palette := s.ppu.palette.set (palIndex a) d } } := by
  rw [vramWrite, if_neg (by omega), if_neg (Nat.not_lt.mpr h)]

end

/-- Settles O48: the write of VRAM in its region, and then the advance of v. -/
theorem dataPortWrites : Obligations.DataPortWrites := by
  unfold Obligations.DataPortWrites
  intro a d s h h' hk
  have e : write8 a d s = ppuDataWrite d s := write8_register (r := 0x2007) h h' (by rw [hk]; rfl) d s
  refine ⟨s.ppu.v + s.ppu.inc, bumpV_toNat s.ppu, ?_⟩
  intro adr
  have hadr : adr = (vramAddr s.ppu.v).toNat := (vramAddr_toNat s.ppu.v).symm
  rw [hadr, BitVec.ofNat_toNat, BitVec.setWidth_eq, e, ppuDataWrite]
  refine ⟨fun hr prg chr mir hc => ?fixture, fun hr m hc => ?mapper, fun hr hr' => ?nametable, fun hr => ?palette⟩
  case fixture => rw [vramWrite_chr hr, hc]; rfl
  case mapper => rw [vramWrite_chr hr, hc]; rfl
  case nametable => rw [vramWrite_nt hr hr']; rfl
  case palette => rw [vramWrite_palette hr]; rfl

theorem vramPeek_palette {a : PpuAddr} (h : 0x3F00 ≤ a.toNat) (s : State) :
    vramPeek s a = s.ppu.palette.get (palIndex a) := by
  rw [vramPeek, if_neg (by omega), if_neg (Nat.not_lt.mpr h)]

/-- A read of the data port in the palette (R175): at once, the latch as before. -/
theorem ppuDataRead_palette {s : State} (h : 0x3F00 ≤ (vramAddr s.ppu.v).toNat) :
    ppuDataRead s =
      (vramPeek s (vramAddr s.ppu.v), { s with ppu := { s.ppu with v := s.ppu.v + s.ppu.inc } }) := by
  rw [ppuDataRead, if_pos h, vramPeek_palette h]
  rfl

/-- A read of the data port below the palette (R175): the latch, which is refilled. -/
theorem ppuDataRead_latch {s : State} (h : (vramAddr s.ppu.v).toNat < 0x3F00) :
    ppuDataRead s =
      (s.ppu.latch,
        { s with
          cart := (vramRead (vramAddr s.ppu.v) s).2.cart
          ppu := { s.ppu with v := s.ppu.v + s.ppu.inc, latch := vramPeek s (vramAddr s.ppu.v) } }) := by
  rw [ppuDataRead, if_neg (Nat.not_le.mpr h), vramRead]
  split <;> rfl

theorem vramRead_cart_chr {a : PpuAddr} (h : a.toNat < 0x2000) (s : State) :
    (vramRead a s).2.cart = cartAfterChrRead s.cart a := by
  rw [vramRead, if_pos h]

/-- A VRAM read changes the cartridge only if it reads CHR of a mapper (20_memory R49). -/
theorem vramRead_cart_kept {a : PpuAddr} {s : State} (h : 0x2000 ≤ a.toNat ∨ s.cart.isFixture = true) :
    (vramRead a s).2.cart = s.cart := by
  rw [vramRead]
  split
  · exact cartAfterChrRead_fixture (h.resolve_left (by omega)) a
  · rfl

/-- Settles O49: the two kinds of reads; what becomes of the cartridge is the VRAM read's. -/
theorem dataPortReads : Obligations.DataPortReads := by
  unfold Obligations.DataPortReads
  intro a s h h' hk
  have e : read8 a s = ppuDataRead s := read8_register (r := 0x2007) h h' (by rw [hk]; rfl) s
  refine ⟨s.ppu.v + s.ppu.inc, bumpV_toNat s.ppu, ?_⟩
  rw [← vramAddr_eq, e]
  refine ⟨ppuDataRead_palette, fun hr => ⟨_, ppuDataRead_latch hr, vramRead_cart_kept, fun m hr' hc => ?_⟩⟩
  rw [vramRead_cart_chr hr', hc]
  rfl

/-! ## The PPU's address space -/

/-- The palette's mirrors (R176): every 32 bytes, and the sprite palettes' first entries are the background's. -/
theorem palIndex_eq (a : PpuAddr) : palIndex a = if a.toNat % 4 = 0 then a.toNat % 16 else a.toNat % 32 := by
  simp only [palIndex, List.mem_cons, List.not_mem_nil, or_false]
  split <;> split <;> omega

theorem ntAddr_mod (a : PpuAddr) : (ntAddr a).toNat % 4096 = a.toNat % 4096 := by
  unfold ntAddr
  split
  · rw [BitVec.toNat_sub]
    simp only [BitVec.ofNat_eq_ofNat, BitVec.toNat_ofNat]
    omega
  · rfl

/-- The key of a nametable byte by the address's number: the physical nametable and the offset (R176). -/
theorem ntKey_eq (c : Cart) (a : PpuAddr) :
    ntKey c a = 1024 * (mirror c (BitVec.ofNat 2 (a.toNat / 1024 % 4))).toNat + a.toNat % 1024 := by
  have hm := ntAddr_mod a
  have hn : (ntAddr a).extractLsb' 10 2 = BitVec.ofNat 2 (a.toNat / 1024 % 4) := by
    refine BitVec.eq_of_toNat_eq ?_
    rw [BitVec.extractLsb'_toNat, BitVec.toNat_ofNat, Nat.shiftRight_eq_div_pow]
    omega
  rw [ntKey, hn]
  omega

theorem vramPeek_chr {a : PpuAddr} (h : a.toNat < 0x2000) (s : State) : vramPeek s a = cartChrPeek s.cart a := if_pos h

theorem vramPeek_nt {a : PpuAddr} (h : 0x2000 ≤ a.toNat) (h' : a.toNat < 0x3F00) (s : State) :
    vramPeek s a = s.ppu.nt.get (ntKey s.cart a) := by
  rw [vramPeek, if_neg (Nat.not_lt.mpr h), if_pos h']

/-- 0x3000-0x3EFF repeats 0x2000-0x2EFF (R176). -/
theorem vramPeek_nt_mirror {a : PpuAddr} (h : 0x2000 ≤ a.toNat) (h' : a.toNat < 0x2F00) (s : State) :
    vramPeek s (a + 0x1000) = vramPeek s a := by
  have ha : (a + 0x1000).toNat = a.toNat + 4096 := by
    rw [BitVec.toNat_add_of_lt] <;> simp only [BitVec.ofNat_eq_ofNat, BitVec.toNat_ofNat]
    omega
  rw [vramPeek_nt (by omega) (by omega), vramPeek_nt h (by omega), ntKey_eq, ntKey_eq, ha,
    show (a.toNat + 4096) / 1024 % 4 = a.toNat / 1024 % 4 by omega,
    show (a.toNat + 4096) % 1024 = a.toNat % 1024 by omega]

/-- The byte of memory behind a PPU address: CHR, the nametables or the palette, and the key there (R176). -/
def vramCell (c : Cart) (a : PpuAddr) : Nat × Nat :=
  if a.toNat < 0x2000 then (0, a.toNat)
  else if a.toNat < 0x3F00 then (1, ntKey c a)
  else (2, palIndex a)

/-- Read after write in one of the banks of the PPU's address space. -/
theorem get_set_cell {m : Memory} {size : Nat} (hw : Memory.wf size m = true) (bank i j : Nat) (d : Byte) :
    (m.set i d).get j = if (bank, j) = (bank, i) then d else m.get j := by
  rw [Memory.get, SparseMap.get_set hw]
  simp only [Prod.mk.injEq, true_and]

/-- Read after write in the PPU's address space, over a fixture cartridge (R176, 20_memory R49). -/
theorem vramPeek_vramWrite {s : State} (hf : s.cart.isFixture = true) (hs : Inv s) (a b : PpuAddr) (d : Byte) :
    vramPeek (vramWrite a d s) b = if vramCell s.cart b = vramCell s.cart a then d else vramPeek s b := by
  obtain ⟨prg, chr, mir, hc⟩ := (isFixture_iff _).mp hf
  have hchr : Memory.wf 0x2000 chr = true := by
    have k := hs.cart
    rw [hc, Cart.wf, Bool.and_eq_true] at k
    exact k.2
  by_cases ha : a.toNat < 0x2000
  · rw [vramWrite_chr ha]
    simp only [vramPeek, vramCell, ha, hc, ↓reduceIte]
    split
    · exact get_set_cell hchr 0 ..
    · split <;> exact (if_neg (by simp)).symm
  · by_cases ha' : a.toNat < 0x3F00
    · rw [vramWrite_nt (Nat.not_lt.mp ha) ha']
      simp only [vramPeek, vramCell, ha, ha', ↓reduceIte]
      split
      · exact (if_neg (by simp)).symm
      · split
        · exact get_set_cell hs.ppu.nt 1 ..
        · exact (if_neg (by simp)).symm
    · rw [vramWrite_palette (Nat.not_lt.mp ha')]
      simp only [vramPeek, vramCell, ha, ha', ↓reduceIte]
      split
      · exact (if_neg (by simp)).symm
      · split
        · exact (if_neg (by simp)).symm
        · exact get_set_cell hs.ppu.palette 2 ..

/-- Settles O50: the mirrors are those of the keys, and a write changes the byte of one cell. -/
theorem vramMirrors : Obligations.VramMirrors := by
  unfold Obligations.VramMirrors
  intro s a
  refine ⟨fun h => ?palette, fun h h' => ?nametable, fun h h' => vramPeek_nt_mirror h h' s,
    fun prg chr mir hc => ⟨fun h => ?chr, ?kinds⟩, fun hf hs d b hb => ?changed, fun hf hs d => ?readBack⟩
  case palette => rw [vramPeek_palette h, palIndex_eq]
  case nametable => rw [vramPeek_nt h h', ntKey_eq]
  case chr => rw [vramPeek_chr h, hc]; rfl
  case kinds =>
    rw [hc]
    cases mir <;> rfl
  case changed =>
    rw [vramPeek_vramWrite hf hs] at hb ⊢
    split at hb
    · exact if_pos ‹_›
    · exact absurd rfl hb
  case readBack => rw [vramPeek_vramWrite hf hs, if_pos rfl]

end Sys2Proof.Machine
end

section
/-! PROOFS. The scroll state machine (61_ppu_oam R180 to R182). -/

namespace Sys2Proof.Machine

theorem horizontalCopy_bits (v t : BitVec 15) (i : Nat) :
    (horizontalCopy v t).getLsbD i = if i < 5 ∨ i = 10 then t.getLsbD i else v.getLsbD i := by
  by_cases hi : i < 15
  · interval_cases i <;> simp [horizontalCopy]
  · simp [show ¬i < 5 by omega, show i ≠ 10 by omega, BitVec.getLsbD_of_ge _ i (Nat.le_of_not_lt hi)]

/-! ## The advance in x -/

theorem fx_succ_eq_zero_iff (fx : BitVec 3) : fx + 1 = 0 ↔ fx.toNat = 7 := by
  revert fx; decide

theorem advanceX_within {fx : BitVec 3} (h : fx.toNat ≠ 7) (v : BitVec 15) : advanceX fx v = (fx + 1, v) :=
  if_neg (mt (fx_succ_eq_zero_iff fx).mp h)

theorem coarseX_toNat (v : BitVec 15) : (v.extractLsb' 0 5).toNat = v.toNat % 32 := BitVec.extractLsb'_toNat ..

/-- Two addresses have the same coarse-x when their low 5 bits agree. -/
theorem coarseX_eq_iff (v w : BitVec 15) :
    v.toNat % 32 = w.toNat % 32 ↔ ∀ i, i < 5 → v.getLsbD i = w.getLsbD i := by
  rw [← coarseX_toNat, ← coarseX_toNat, BitVec.toNat_inj]
  refine ⟨fun h i hi => ?_, fun h => BitVec.eq_of_getLsbD_eq fun i hi => ?_⟩
  · have := congrArg (BitVec.getLsbD · i) h
    simpa [BitVec.getLsbD_extractLsb', hi] using this
  · simp [hi, h i hi]

/-- At the wrap of fine-x within a nametable, coarse-x steps by 1 (R181). -/
theorem advanceX_step {fx : BitVec 3} (h : fx.toNat = 7) {v : BitVec 15} (hv : v.toNat % 32 ≠ 31) :
    advanceX fx v = (0, v + 1) := by
  have hc : v.extractLsb' 0 5 ≠ 31 := fun e => hv (by rw [← coarseX_toNat, e]; rfl)
  rw [advanceX, if_pos ((fx_succ_eq_zero_iff fx).mpr h), if_neg hc]

/-- At the wrap of coarse-x, nametable bit 10 flips (R181). -/
theorem advanceX_wrap {fx : BitVec 3} (h : fx.toNat = 7) {v : BitVec 15} (hv : v.toNat % 32 = 31) :
    advanceX fx v = (0, (v &&& 0x7FE0) ^^^ 0x0400) := by
  have hc : v.extractLsb' 0 5 = 31 := BitVec.eq_of_toNat_eq ((coarseX_toNat v).trans hv)
  rw [advanceX, if_pos ((fx_succ_eq_zero_iff fx).mpr h), if_pos hc]

theorem wrapX_bits (v : BitVec 15) (i : Nat) :
    ((v &&& 0x7FE0) ^^^ 0x0400).getLsbD i = (decide (5 ≤ i) && (v.getLsbD i ^^ decide (i = 10))) := by
  by_cases hi : i < 15
  · interval_cases i <;> simp
  · simp [show i ≠ 10 by omega, BitVec.getLsbD_of_ge _ i (Nat.le_of_not_lt hi)]

/-- The bits above coarse-x after a step of it. -/
theorem succ_high_bits {v : BitVec 15} (hv : v.toNat % 32 ≠ 31) {i : Nat} (hi : 5 ≤ i) :
    (v + 1).getLsbD i = v.getLsbD i := by
  have hd : (v + 1).toNat / 2 ^ 5 = v.toNat / 2 ^ 5 := by
    have := v.isLt
    rw [BitVec.toNat_add]
    simp only [BitVec.ofNat_eq_ofNat, BitVec.toNat_ofNat]
    omega
  obtain ⟨j, rfl⟩ := Nat.exists_eq_add_of_le' hi
  rw [BitVec.getLsbD, BitVec.getLsbD, ← Nat.testBit_div_two_pow, hd, Nat.testBit_div_two_pow]

/-- An advance at the wrap of fine-x: coarse-x steps modulo 32, and the bits above it stay but for bit 10 (R181). -/
theorem advanceX_carry {fx : BitVec 3} (h : fx.toNat = 7) (v : BitVec 15) :
    (advanceX fx v).1 = 0 ∧ (advanceX fx v).2.toNat % 32 = (v.toNat % 32 + 1) % 32 ∧
      ∀ i, 5 ≤ i → (advanceX fx v).2.getLsbD i = (v.getLsbD i ^^ decide (i = 10 ∧ v.toNat % 32 = 31)) := by
  by_cases hv : v.toNat % 32 = 31
  · rw [advanceX_wrap h hv]
    refine ⟨rfl, ?_, fun i hi => ?_⟩
    · rw [hv]
      exact (coarseX_eq_iff _ 0).mpr fun i hi => by
        rw [wrapX_bits, decide_eq_false (by omega), Bool.false_and, BitVec.ofNat_eq_ofNat, BitVec.getLsbD_zero]
    · rw [wrapX_bits, decide_eq_true hi, Bool.true_and]
      simp only [hv, and_true]
  · rw [advanceX_step h hv]
    refine ⟨rfl, ?_, fun i hi => ?_⟩
    · rw [BitVec.toNat_add]
      simp only [BitVec.ofNat_eq_ofNat, BitVec.toNat_ofNat]
      omega
    · rw [succ_high_bits hv hi, decide_eq_false (fun k => hv k.2), Bool.xor_false]

/-- Where a pixel lies in a row of two nametables: bit 10, coarse-x and fine-x as one number of 9 bits. -/
def scrollX (fx : BitVec 3) (v : BitVec 15) : Nat := 256 * (v.getLsbD 10).toNat + 8 * (v.toNat % 32) + fx.toNat

/-- An advance is one pixel to the right, modulo 512 (R181). -/
theorem scrollX_advanceX (fx : BitVec 3) (v : BitVec 15) :
    scrollX (advanceX fx v).1 (advanceX fx v).2 = (scrollX fx v + 1) % 512 := by
  have hb := Bool.toNat_lt (v.getLsbD 10)
  by_cases h : fx.toNat = 7
  · obtain ⟨hfx, hcx, hbits⟩ := advanceX_carry h v
    rw [scrollX, hfx, hcx, hbits 10 (by omega), scrollX, h]
    by_cases hv : v.toNat % 32 = 31
    · simp only [hv, and_self, decide_true]
      cases v.getLsbD 10 <;> rfl
    · simp only [hv, and_false, decide_false, Bool.xor_false, BitVec.ofNat_eq_ofNat, BitVec.toNat_ofNat]
      omega
  · have hf : (fx + 1).toNat = fx.toNat + 1 := by
      rw [BitVec.toNat_add]
      simp only [BitVec.ofNat_eq_ofNat, BitVec.toNat_ofNat]
      omega
    rw [advanceX_within h]
    simp only [scrollX, hf]
    omega

/-- The bits of v that no advance in x changes. -/
theorem advanceX_high_bits (fx : BitVec 3) (v : BitVec 15) {i : Nat} (hi : 5 ≤ i) (h10 : i ≠ 10) :
    (advanceX fx v).2.getLsbD i = v.getLsbD i := by
  by_cases h : fx.toNat = 7
  · simp [(advanceX_carry h v).2.2 i hi, h10]
  · rw [advanceX_within h]

/-- After `n` advances: `n` pixels to the right. -/
theorem advanceXTimes_spec (n : Nat) (fx : BitVec 3) (v : BitVec 15) :
    scrollX (advanceXTimes n fx v).1 (advanceXTimes n fx v).2 = (scrollX fx v + n) % 512 ∧
      ∀ i, 5 ≤ i → i ≠ 10 → (advanceXTimes n fx v).2.getLsbD i = v.getLsbD i := by
  induction n generalizing fx v with
  | zero =>
    have hb := Bool.toNat_lt (v.getLsbD 10)
    have hf := fx.isLt
    refine ⟨?_, fun _ _ _ => rfl⟩
    simp only [advanceXTimes, scrollX]
    omega
  | succ n ih =>
    obtain ⟨hx, hbits⟩ := ih (advanceX fx v).1 (advanceX fx v).2
    refine ⟨?_, fun i hi h10 => (hbits i hi h10).trans (advanceX_high_bits fx v hi h10)⟩
    rw [advanceXTimes, hx, scrollX_advanceX]
    omega

/-- The place in the row gives fine-x, coarse-x and bit 10 back. -/
theorem eq_of_scrollX {p q : BitVec 3 × BitVec 15} (h : scrollX p.1 p.2 = scrollX q.1 q.2)
    (hbits : ∀ i, 5 ≤ i → i ≠ 10 → p.2.getLsbD i = q.2.getLsbD i) : p = q := by
  obtain ⟨fx, v⟩ := p
  obtain ⟨gx, w⟩ := q
  have hf := fx.isLt
  have hg := gx.isLt
  dsimp only [scrollX] at h hbits
  have hfx : fx = gx := BitVec.eq_of_toNat_eq (by omega)
  have hcx : v.toNat % 32 = w.toNat % 32 := by omega
  have h10 : v.getLsbD 10 = w.getLsbD 10 := by
    revert h
    cases v.getLsbD 10 <;> cases w.getLsbD 10 <;> simp <;> omega
  refine Prod.ext hfx (BitVec.eq_of_getLsbD_eq fun i _ => ?_)
  by_cases hi : i < 5
  · exact (coarseX_eq_iff v w).mp hcx i hi
  · by_cases e : i = 10
    · exact e ▸ h10
    · exact hbits i (Nat.le_of_not_lt hi) e

theorem flipX_bits (v : BitVec 15) {i : Nat} (h : i ≠ 10) : (v ^^^ 0x0400).getLsbD i = v.getLsbD i := by
  by_cases hi : i < 15
  · interval_cases i <;> simp_all
  · simp [BitVec.getLsbD_of_ge _ i (Nat.le_of_not_lt hi)]

/-- The other nametable is 256 pixels to the right. -/
theorem scrollX_flip (fx : BitVec 3) (v : BitVec 15) : scrollX fx (v ^^^ 0x0400) = (scrollX fx v + 256) % 512 := by
  have hcx : (v ^^^ 0x0400).toNat % 32 = v.toNat % 32 := (coarseX_eq_iff _ v).mpr fun i hi => flipX_bits v (by omega)
  have h10 : (v ^^^ 0x0400).getLsbD 10 = !v.getLsbD 10 := by simp
  have hf := fx.isLt
  rw [scrollX, scrollX, hcx, h10]
  cases v.getLsbD 10 <;> simp only [Bool.not_true, Bool.not_false, Bool.toNat_true, Bool.toNat_false] <;> omega

/-- A line's 256 advances come back to the same place of the other nametable (R181). -/
theorem advanceXTimes_line (fx : BitVec 3) (v : BitVec 15) : advanceXTimes 256 fx v = (fx, v ^^^ 0x0400) := by
  obtain ⟨hx, hbits⟩ := advanceXTimes_spec 256 fx v
  exact eq_of_scrollX (hx.trans (scrollX_flip fx v).symm) fun i hi h10 =>
    (hbits i hi h10).trans (flipX_bits v h10).symm

/-! ## The advance in y -/

/-- The fields of a scroll address as numbers. -/
theorem coarseY_toNat (v : BitVec 15) : (v.extractLsb' 5 5).toNat = v.toNat / 32 % 32 := by
  rw [BitVec.extractLsb'_toNat, Nat.shiftRight_eq_div_pow]

theorem fineY_toNat (v : BitVec 15) : (v.extractLsb' 12 3).toNat = v.toNat / 4096 := by
  have := v.isLt
  rw [BitVec.extractLsb'_toNat, Nat.shiftRight_eq_div_pow]
  omega

/-- Within a tile row, the advance steps fine-y (R182). -/
theorem advanceY_within {v : BitVec 15} (h : v.toNat / 4096 < 7) : (advanceY v).toNat = v.toNat + 4096 := by
  have hy : v.extractLsb' 12 3 < 7 := by
    rw [BitVec.lt_def, fineY_toNat]
    exact h
  rw [advanceY, if_pos hy, BitVec.toNat_add]
  simp only [BitVec.ofNat_eq_ofNat, BitVec.toNat_ofNat]
  omega

/-- Coarse-y after a row of tiles (R182). -/
def nextCoarseY (y : BitVec 5) : BitVec 5 := if y = 29 then 0 else if y = 31 then 0 else y + 1

theorem nextCoarseY_toNat (y : BitVec 5) :
    (nextCoarseY y).toNat = if y.toNat = 29 ∨ y.toNat = 31 then 0 else y.toNat + 1 := by
  revert y; decide

/-- At the wrap of fine-y, coarse-y steps, and bit 11 flips after row 29 (R182). -/
theorem advanceY_wrap {v : BitVec 15} (h : v.toNat / 4096 = 7) :
    advanceY v =
      ((if v.extractLsb' 5 5 = 29 then (v &&& 0x0FFF) ^^^ 0x0800 else v &&& 0x0FFF) &&& 0x7C1F) |||
        ((nextCoarseY (v.extractLsb' 5 5)).setWidth 15 <<< 5) := by
  have hy : ¬v.extractLsb' 12 3 < 7 := by
    rw [BitVec.lt_def, fineY_toNat, h]
    decide
  have h0 : (v &&& 0x0FFF).extractLsb' 5 5 = v.extractLsb' 5 5 := by
    refine BitVec.eq_of_getLsbD_eq fun i hi => ?_
    interval_cases i <;> simp
  rw [advanceY, if_neg hy]
  simp only [h0]
  rfl

/-- The same, bit by bit. -/
theorem advanceY_wrap_bits {v : BitVec 15} (h : v.toNat / 4096 = 7) (i : Nat) :
    (advanceY v).getLsbD i =
      if i < 5 ∨ i = 10 then v.getLsbD i
      else if i < 10 then (nextCoarseY (v.extractLsb' 5 5)).getLsbD (i - 5)
      else if i = 11 then (v.getLsbD 11 ^^ decide (v.extractLsb' 5 5 = 29))
      else false := by
  rw [advanceY_wrap h]
  generalize nextCoarseY (v.extractLsb' 5 5) = y
  by_cases hi : i < 15
  · by_cases h29 : v.extractLsb' 5 5 = 29
    · simp only [h29, if_true, decide_true]
      interval_cases i <;> simp
    · simp only [h29, if_false, decide_false]
      interval_cases i <;> simp
  · have hge (x : BitVec 15) : x.getLsbD i = false := BitVec.getLsbD_of_ge x i (Nat.le_of_not_lt hi)
    simp only [hge, show ¬i < 10 by omega, show i ≠ 11 by omega, ite_self, if_false]

/-- Settles O51: in x, an advance is one pixel in a row of 512; in y, bit by bit. -/
theorem scrollAdvances : Obligations.ScrollAdvances := by
  unfold Obligations.ScrollAdvances
  intro v t fx
  refine ⟨horizontalCopy_bits v t, fun h => advanceX_within h v, fun h => advanceX_carry h v, advanceXTimes_line fx v,
    advanceY_within, fun h => ⟨?fineY, ?coarseY, ?coarseX, ?bit10, ?bit11⟩⟩
  case fineY =>
    have hz : (advanceY v).extractLsb' 12 3 = 0 := by
      refine BitVec.eq_of_getLsbD_eq fun i hi => ?_
      rw [BitVec.getLsbD_extractLsb', advanceY_wrap_bits h]
      interval_cases i <;> simp
    rw [← fineY_toNat, hz]
    rfl
  case coarseY =>
    have hc : (advanceY v).extractLsb' 5 5 = nextCoarseY (v.extractLsb' 5 5) := by
      refine BitVec.eq_of_getLsbD_eq fun i hi => ?_
      rw [BitVec.getLsbD_extractLsb', advanceY_wrap_bits h]
      interval_cases i <;> simp
    rw [← coarseY_toNat, hc, nextCoarseY_toNat, coarseY_toNat]
  case coarseX =>
    exact (coarseX_eq_iff _ v).mpr fun i hi => by rw [advanceY_wrap_bits h, if_pos (.inl hi)]
  case bit10 => exact advanceY_wrap_bits h 10
  case bit11 =>
    have hy : (v.extractLsb' 5 5 = 29) = (v.toNat / 32 % 32 = 29) := by
      rw [← coarseY_toNat, ← BitVec.toNat_inj]
      rfl
    rw [advanceY_wrap_bits h 11]
    simp only [hy]
    rfl

end Sys2Proof.Machine
end

section
/-! PROOFS. The frame as steps: its beginning, the end of a visible line, VBlank, and the end of the frame (61_ppu_oam
R193 to R195, 70_reset_and_hazards R206). -/

namespace Sys2Proof.Machine

/-! ## The beginning -/

theorem rendering_iff (p : Ppu) :
    p.rendering = true ↔ p.ctrl1.getLsbD 3 = true ∨ p.ctrl1.getLsbD 4 = true := Bool.or_eq_true_iff

theorem frameStart_status_bits (b : Byte) (i : Nat) : (b &&& 0x1F).getLsbD i = (b.getLsbD i && decide (i < 5)) := by
  by_cases hi : i < 8
  · interval_cases i <;> simp
  · simp [BitVec.getLsbD_of_ge _ i (Nat.le_of_not_lt hi)]

/-- Settles O54: the call is admitted, since no frame is in progress, and `beginFrame` writes these fields. -/
theorem frameBeginsAsStated : Obligations.FrameBeginsAsStated := by
  unfold Obligations.FrameBeginsAsStated
  intro s rest hp hi
  refine ⟨s.ppu.status &&& 0x1F, ?_, frameStart_status_bits s.ppu.status⟩
  have hstep : step s = .next (beginFrame { s with inputs := rest }) := by
    rw [step_of_inputs hi]
    exact if_pos hp
  simp only [hstep, beginFrame, frameStart, rendering_iff]

/-! ## The end of a visible line -/

/-- Drawing a line writes the buffers, the status and v. -/
theorem drawScanline_eq (line : Nat) (s : State) :
    drawScanline line s = { s with
      ppu := { s.ppu with
        fb := (drawScanline line s).ppu.fb, info := (drawScanline line s).ppu.info
        status := (drawScanline line s).ppu.status, v := (drawScanline line s).ppu.v } } := rfl

/-- The end of a visible line: its drawing, and the start of the next budget. -/
theorem endVisible_eq (line : Nat) (s : State) :
    endVisible line s = { drawScanline line s with
      phase := if line < 239 then .visible (line + 1) s.cycles else .postRender s.cycles
      ppu := { (drawScanline line s).ppu with scanline := if line < 239 then line + 1 else s.ppu.scanline } } := by
  unfold endVisible
  split <;> rfl

theorem spriteStatus_bits (st : Byte) (s0 ovf : Bool) {i : Nat} (h5 : i ≠ 5) (h6 : i ≠ 6) :
    (spriteStatus st s0 ovf).getLsbD i = st.getLsbD i := by
  by_cases hi : i < 8
  · cases s0 <;> cases ovf <;> interval_cases i <;> simp_all [spriteStatus]
  · simp [BitVec.getLsbD_of_ge _ i (Nat.le_of_not_lt hi)]

/-- Drawing a line leaves the rows of the others. -/
theorem drawScanline_other {line l : Nat} (h : l ≠ line) (s : State) (sx : Nat) :
    lastFrame (drawScanline line s) l sx = lastFrame s l sx ∧ infoAt (drawScanline line s) l sx = infoAt s l sx := by
  simp only [lastFrame, infoAt, drawScanline, SparseMap.get_set_ne h, and_self]

/-- The background's 256 pixels move v to the other nametable (R181, R186). -/
theorem lineEndV_eq (p : Ppu) :
    lineEndV p = if p.bgEnabled then lineStartV p ^^^ 0x0400 else lineStartV p := by
  rw [lineEndV, advanceXTimes_line]

theorem drawScanline_v (line : Nat) (s : State) :
    (drawScanline line s).ppu.v = if s.ppu.rendering then advanceY (lineEndV s.ppu) else lineEndV s.ppu := rfl

/-- Settles O55: the step is `endVisible`, which writes what `drawScanline` does. -/
theorem visibleLineEndsWithItsDrawing : Obligations.VisibleLineEndsWithItsDrawing := by
  unfold Obligations.VisibleLineEndsWithItsDrawing
  intro s line start hg hp hr
  have e : endVisible line (afterInput s) = { drawScanline line s with
      inputs := s.inputs.tail
      phase := if line < 239 then .visible (line + 1) s.cycles else .postRender s.cycles
      ppu := { (drawScanline line s).ppu with scanline := if line < 239 then line + 1 else s.ppu.scanline } } := by
    rw [endVisible_eq, afterInput, drawScanline_inputs]
  refine ⟨_, ((hg.budget_over hr).1 line start hp).trans (congrArg _ e), ?_, rfl, rfl, rfl, rfl,
    fun i h5 h6 => spriteStatus_bits _ _ _ h5 h6, fun l sx h => drawScanline_other h s sx, ?_⟩
  · rw [drawScanline_eq]
  · show (drawScanline line s).ppu.v = _
    rw [drawScanline_v, lineEndV_eq]
    rfl

/-! ## VBlank and the end of the frame -/

theorem setVbl_status_bits (b : Byte) (i : Nat) : (b ||| 0x80).getLsbD i = (b.getLsbD i || decide (i = 7)) := by
  by_cases hi : i < 8
  · interval_cases i <;> simp
  · simp [show i ≠ 7 by omega, BitVec.getLsbD_of_ge _ i (Nat.le_of_not_lt hi)]

theorem nmiService_cycles (s : State) : (nmiService s).cycles = s.cycles + 7 :=
  congrArg State.cycles (interruptService_effect nmiVector s (by decide) (by decide)).1

theorem enterVblank_of_disabled {s : State} (h : s.ppu.ctrl0.getLsbD 7 = false) :
    enterVblank s = { s with ppu := s.ppu.setVbl true, phase := .vblank s.cycles } := by
  have hn : (s.ppu.setVbl true).nmiEnabled = false := h
  simp only [enterVblank, hn, Bool.false_and, Bool.false_eq_true, if_false]

theorem enterVblank_of_enabled {s : State} (h : s.ppu.ctrl0.getLsbD 7 = true) (hf : s.faulted = false) :
    enterVblank s = { nmiService { s with ppu := s.ppu.setVbl true } with phase := .vblank (s.cycles + 7) } := by
  have hn : (s.ppu.setVbl true).nmiEnabled = true := h
  simp only [enterVblank, hn, hf, Bool.not_false, Bool.and_self, if_true, nmiService_cycles]

/-- Settles O56: the steps are `enterVblank` and `endFrame`; the NMI's service charges its 7 cycles. -/
theorem vblankBeginsAndEnds : Obligations.VblankBeginsAndEnds := by
  unfold Obligations.VblankBeginsAndEnds
  intro s start hg hr
  obtain ⟨-, hpost, hvblank⟩ := hg.budget_over hr
  refine ⟨fun hp => ⟨s.ppu.status ||| 0x80, setVbl_status_bits _, fun hn => ?_, fun hn hf => ?_⟩,
    fun hp => ⟨s.ppu.status &&& 0x7F, clearVbl_bits _, hvblank start hp⟩⟩
  · rw [hpost start hp, enterVblank_of_disabled (s := afterInput s) hn]
    rfl
  · rw [hpost start hp, enterVblank_of_enabled (s := afterInput s) hn hf]
    rfl

end Sys2Proof.Machine
end

section
/-! PROOFS. Pixels: colours, the background and the sprites of a line (61_ppu_oam R177, R178, R183 to R192). -/

namespace Sys2Proof.Machine

/-! ## Colours -/

/-- The colour of a palette index by numbers (R177, R178). -/
theorem colorOf_eq (s : State) (i : Nat) :
    colorOf s i =
      (let rgb := Config.masterPalette (BitVec.ofNat 6 (((colourPalette s).get i).toNat % 64))
      { r := rgb.r, g := rgb.g, b := rgb.b, a := 0xFF }) := by
  have low (b : Byte) : b.setWidth 6 = BitVec.ofNat 6 (b.toNat % 64) := BitVec.eq_of_toNat_eq (by simp)
  rw [colorOf, low]

/-! ## The background -/

theorem nametable_toNat (v : BitVec 15) : (v.extractLsb' 10 2).toNat = v.toNat / 1024 % 4 := by
  rw [BitVec.extractLsb'_toNat, Nat.shiftRight_eq_div_pow]

/-- The tile index by the scroll address's number (R186). -/
theorem bgTile_eq (s : State) (v : BitVec 15) :
    bgTile s v =
      vramPeek s (BitVec.ofNat 14
        (0x2000 + 0x400 * (v.toNat / 1024 % 4) + 32 * (v.toNat / 32 % 32) + v.toNat % 32)) := by
  rw [bgTile, nametable_toNat, coarseY_toNat, coarseX_toNat]

/-- The background's 2-bit value as a number (R183, R186). -/
theorem bgValue_toNat (s : State) (fx : BitVec 3) (v : BitVec 15) :
    (bgValue s fx v).toNat =
      (let table := if s.ppu.ctrl0.getLsbD 4 then 0x1000 else 0x0000
      let tile := (bgTile s v).toNat
      let fy := v.toNat / 4096
      (vramPeek s (BitVec.ofNat 14 (table + 16 * tile + fy))).toNat / 2 ^ (7 - fx.toNat) % 2 +
        2 * ((vramPeek s (BitVec.ofNat 14 (table + 16 * tile + 8 + fy))).toNat / 2 ^ (7 - fx.toNat) % 2)) := by
  rw [bgValue, tilePixel_toNat, patternBase_add, patternBase_add, fineY_toNat]
  simp only [Nat.add_assoc]

theorem attrShift_eq (cx cy : BitVec 5) :
    attrShift cx cy = 4 * (cy.toNat / 2 % 2) + 2 * (cx.toNat / 2 % 2) := by
  revert cx cy; decide

/-- The palette bits of a scroll address as a number (R185). -/
theorem attrMsb_toNat (s : State) (v : BitVec 15) :
    (attrMsb s (v.extractLsb' 10 2) (v.extractLsb' 0 5) (v.extractLsb' 5 5)).toNat =
      (let cx := v.toNat % 32
      let cy := v.toNat / 32 % 32
      (vramPeek s (BitVec.ofNat 14
        (0x2000 + 0x400 * (v.toNat / 1024 % 4) + 0x3C0 + 8 * (cy / 4) + cx / 4))).toNat /
          2 ^ (4 * (cy / 2 % 2) + 2 * (cx / 2 % 2)) % 4) := by
  rw [attrMsb, attrAddr, attrShift_eq, BitVec.toNat_and, BitVec.toNat_ushiftRight, Nat.shiftRight_eq_div_pow,
    nametable_toNat, coarseY_toNat, coarseX_toNat]
  exact Nat.and_two_pow_sub_one_eq_mod _ 2

/-- A byte below 4 is one of the four. -/
theorem eq_setWidth_of_lt_four {b : Byte} (h : b.toNat < 4) : b = (b.setWidth 2).setWidth 8 :=
  BitVec.eq_of_toNat_eq (by simp; omega)

/-- The palette index of a background pixel (R186). -/
theorem bgIndex_toNat {m p : Byte} (hm : m.toNat < 4) (hp : p.toNat < 4) :
    ((m <<< 2) ||| p).toNat = 4 * m.toNat + p.toNat := by
  have key : ∀ m p : BitVec 2, ((m.setWidth 8 <<< 2) ||| p.setWidth 8 : Byte).toNat =
      4 * (m.setWidth 8).toNat + (p.setWidth 8).toNat := by decide
  rw [eq_setWidth_of_lt_four hm, eq_setWidth_of_lt_four hp]
  exact key _ _

/-- The palette index of a sprite pixel (R191). -/
theorem spriteIndex_toNat (attr : Byte) {p : Byte} (hp : p.toNat < 4) :
    (0x10 ||| ((attr &&& 3) <<< 2) ||| p).toNat = 16 + 4 * (attr.toNat % 4) + p.toNat := by
  have key : ∀ m p : BitVec 2, (0x10 ||| (m.setWidth 8 <<< 2) ||| p.setWidth 8 : Byte).toNat =
      16 + 4 * (m.setWidth 8).toNat + (p.setWidth 8).toNat := by decide
  have hm : (attr &&& 3).toNat = attr.toNat % 4 := Nat.and_two_pow_sub_one_eq_mod _ 2
  have hm4 : (attr &&& 3).toNat < 4 := by omega
  rw [← hm, eq_setWidth_of_lt_four hm4, eq_setWidth_of_lt_four hp]
  exact key _ _

theorem eq_zero_iff_toNat (b : Byte) : b = 0 ↔ b.toNat = 0 := BitVec.toNat_inj.symm

theorem bgDot_of_clear {s : State} {sx : Nat} {fx : BitVec 3} {v : BitVec 15}
    (h : (sx < 8 ∧ s.ppu.ctrl1.getLsbD 1 = false) ∨ (bgValue s fx v).toNat = 0) : bgDot s sx fx v = blankDot s := by
  rw [bgDot]
  split
  · rfl
  · rw [if_pos ((eq_zero_iff_toNat _).mpr (h.resolve_left ‹_›))]

theorem bgDot_of_opaque {s : State} {sx : Nat} {fx : BitVec 3} {v : BitVec 15}
    (h : ¬((sx < 8 ∧ s.ppu.ctrl1.getLsbD 1 = false) ∨ (bgValue s fx v).toNat = 0)) :
    bgDot s sx fx v =
      { px := colorOf s
          (4 * (attrMsb s (v.extractLsb' 10 2) (v.extractLsb' 0 5) (v.extractLsb' 5 5)).toNat + (bgValue s fx v).toNat)
        info := 1 } := by
  obtain ⟨hclip, hval⟩ := not_or.mp h
  have hm : (attrMsb s (v.extractLsb' 10 2) (v.extractLsb' 0 5) (v.extractLsb' 5 5)).toNat < 4 := by
    rw [attrMsb_toNat]
    exact Nat.mod_lt _ (by decide)
  have hp : (bgValue s fx v).toNat < 4 := by
    rw [bgValue_toNat]
    dsimp only
    omega
  rw [bgDot, if_neg hclip, if_neg (mt (eq_zero_iff_toNat _).mp hval), bgIndex_toNat hm hp]

/-- With the background on, a column of the line's background is the dot that v and fine-x select there (R186). -/
theorem lineBackground_getElem? {s : State} (hb : s.ppu.bgEnabled = true) {sx : Nat} (h : sx < 256) :
    (lineBackground s).dots[sx]? =
      (let at' := advanceXTimes sx s.ppu.x (horizontalCopy s.ppu.v s.ppu.t)
      some (bgDot s sx at'.1 at'.2)) := by
  have hv : lineStartV s.ppu = horizontalCopy s.ppu.v s.ppu.t := by rw [lineStartV, Ppu.rendering, hb]; rfl
  have hl : sx < (bgDots s 256 0 s.ppu.x (horizontalCopy s.ppu.v s.ppu.t)).length := by rwa [bgDots_length]
  have e : (lineBackground s).dots = bgDots s 256 0 s.ppu.x (horizontalCopy s.ppu.v s.ppu.t) := by
    rw [← hv]
    exact if_pos hb
  rw [e, List.getElem?_eq_getElem hl, bgDots_getElem, Nat.zero_add]

theorem lineSprites_dots_off {s : State} (hs : s.ppu.spritesEnabled = false) (line : Nat) :
    (lineSprites s line).1.dots = (lineBackground s).dots := by
  rw [lineSprites, if_neg (Bool.eq_false_iff.mp hs)]

/-- Settles O58: without sprites, a column of the line is the background's dot there, whose value and palette bits are
the numbers that the rules give. -/
theorem backgroundPixels : Obligations.BackgroundPixels := by
  unfold Obligations.BackgroundPixels
  refine ⟨fun s i _ => colorOf_eq s i, fun s line sx hf hi hb hs hsx => ?_⟩
  intro at' fx v cx cy n fy tile table low high p attr msb t
  have hd : (lineSprites s line).1.dots[sx]? = some (bgDot s sx at'.1 at'.2) := by
    rw [lineSprites_dots_off hs]
    exact lineBackground_getElem? hb hsx
  obtain ⟨hpx, hinfo⟩ := drawScanline_dot hf hi line hd
  have hp : (bgValue s at'.1 at'.2).toNat = p := by
    rw [bgValue_toNat, bgTile_eq]
  have hmsb : (attrMsb s (at'.2.extractLsb' 10 2) (at'.2.extractLsb' 0 5) (at'.2.extractLsb' 5 5)).toNat = msb :=
    attrMsb_toNat s at'.2
  rw [hpx, hinfo, ← hp, ← hmsb]
  split
  · rw [bgDot_of_clear ‹_›]
    exact ⟨rfl, rfl⟩
  · rw [bgDot_of_opaque ‹_›]
    exact ⟨rfl, rfl⟩

/-! ## Sprites -/

section
variable {s : State} {i row c : Nat} {sp : Sprite} {b : LineBuf}

theorem spritePixel_of_none (h : b.dots[sp.x.toNat + c]? = none) :
    spritePixel s i sp (spriteTile s sp row) b c = b := by
  unfold spritePixel
  simp only [h, ite_self]

/-- One pixel of a sprite where the line has a dot: nothing where it has no value or the dot is a sprite's (R191). -/
theorem spritePixel_of_some {d : Dot} (hc : c < 8) (h : b.dots[sp.x.toNat + c]? = some d) :
    spritePixel s i sp (spriteTile s sp row) b c =
      (let p := spriteValue s sp row (sp.x.toNat + c)
      if p = 0 ∨ d.info.getLsbD 1 = true then b
      else
        { dots := b.dots.set (sp.x.toNat + c)
            (spriteDot (colorOf s (0x10 ||| ((sp.attr &&& 3) <<< 2) ||| p).toNat) (sp.attr.getLsbD 5) d)
          s0 := b.s0 || (decide (i = 0) && d.info.getLsbD 0) }) := by
  rw [spriteValue_at s sp row hc]
  unfold spritePixel
  simp only [h]
  by_cases hclip : sp.x.toNat + c < 8 ∧ s.ppu.ctrl1.getLsbD 2 = false
  · simp only [hclip, if_true, true_or, and_self]
  · simp only [hclip, if_false, ite_or]

/-- A sprite changes nothing where it has no value (R191). -/
theorem spritePixel_of_zero (hc : c < 8) (h : spriteValue s sp row (sp.x.toNat + c) = 0) :
    spritePixel s i sp (spriteTile s sp row) b c = b := by
  cases hd : b.dots[sp.x.toNat + c]? with
  | none => exact spritePixel_of_none hd
  | some d =>
    rw [spritePixel_of_some hc hd]
    exact if_pos (.inl h)

/-- The value of a sprite at its own column, by the numbers of the rules (R183, R189, R190). -/
theorem spriteValue_at_toNat (s : State) (sp : Sprite) (hc : c < 8)
    (hrow : row < if s.ppu.ctrl0.getLsbD 5 then 16 else 8) :
    (spriteValue s sp row (sp.x.toNat + c)).toNat =
      if sp.x.toNat + c < 8 ∧ s.ppu.ctrl1.getLsbD 2 = false then 0
      else
        (let tall := s.ppu.ctrl0.getLsbD 5
        let r := if sp.attr.toNat / 128 = 1 then (if tall then 16 else 8) - 1 - row else row
        let table := if (if tall then decide (sp.tile.toNat % 2 = 1) else s.ppu.ctrl0.getLsbD 3) then 0x1000 else 0x0000
        let n := if tall then sp.tile.toNat / 2 * 2 + r / 8 else sp.tile.toNat
        let col := if sp.attr.toNat / 64 % 2 = 1 then 7 - c else c
        (vramPeek s (BitVec.ofNat 14 (table + 16 * n + r % 8))).toNat / 2 ^ (7 - col) % 2 +
          2 * ((vramPeek s (BitVec.ofNat 14 (table + 16 * n + 8 + r % 8))).toNat / 2 ^ (7 - col) % 2)) := by
  obtain ⟨-, -, h6, -⟩ := byte_bits sp.attr
  rw [spriteValue_at s sp row hc, apply_ite BitVec.toNat, spriteTile_pixel_toNat s sp _ hrow, h6]
  simp only [decide_eq_true_eq]
  rfl

end

/-- A sprite's dot by the numbers of the rules (R191). -/
theorem spriteDot_eq (s : State) (attr : Byte) {p : Byte} (hp : p.toNat < 4) (d : Dot) :
    spriteDot (colorOf s (0x10 ||| ((attr &&& 3) <<< 2) ||| p).toNat) (attr.getLsbD 5) d =
      { px := if attr.toNat / 32 % 2 = 1 ∧ d.info.getLsbD 0 = true then d.px
          else colorOf s (16 + 4 * (attr.toNat % 4) + p.toNat)
        info := d.info ||| 2 } := by
  obtain ⟨-, h5, -, -⟩ := byte_bits attr
  rw [spriteDot, spriteIndex_toNat attr hp, h5]
  simp only [Bool.and_eq_true, decide_eq_true_eq]

/-- Settles O59: off the edge the line has no dot, and a clipped or transparent pixel has no value; elsewhere the dot is
the sprite's unless another sprite has it. -/
theorem spritePixels : Obligations.SpritePixels := by
  unfold Obligations.SpritePixels
  intro s i row c sp b hlen hc hrow tall attr r table tile col low high p sx b'
  have hval : (spriteValue s sp row sx).toNat = if sx < 8 ∧ s.ppu.ctrl1.getLsbD 2 = false then 0 else p :=
    spriteValue_at_toNat s sp hc hrow
  have hzero (h : (spriteValue s sp row sx).toNat = 0) : b' = b :=
    spritePixel_of_zero hc ((eq_zero_iff_toNat _).mpr h)
  refine ⟨?nothing, fun d hd hclip hp => ?dot⟩
  case nothing =>
    rintro (h | h | h)
    · exact spritePixel_of_none (List.getElem?_eq_none (hlen.trans_le h))
    · exact hzero (by rw [hval, if_pos h])
    · exact hzero (by rw [hval, h, ite_self])
  case dot =>
    rw [if_neg hclip] at hval
    have hv : spriteValue s sp row sx ≠ 0 := fun e => hp (by rw [← hval, e]; rfl)
    have hp4 : (spriteValue s sp row sx).toNat < 4 := by omega
    have e : b' = _ := spritePixel_of_some hc hd
    refine ⟨fun h1 => e.trans (if_pos (.inr h1)), fun h1 => ?_⟩
    have h1' : ¬(spriteValue s sp row sx = 0 ∨ d.info.getLsbD 1 = true) :=
      not_or.mpr ⟨hv, Bool.eq_false_iff.mp h1⟩
    rw [e.trans (if_neg h1'), spriteDot_eq s sp.attr hp4, hval]
    refine ⟨List.getElem?_set_self (List.getElem?_eq_some_iff.mp hd).1,
      fun k hk => List.getElem?_set_ne (Ne.symm hk), ?_⟩
    simp only [Bool.decide_and, Bool.decide_eq_true]

/-! ## A line with sprites -/

theorem spriteInRange_of_mem {s : State} {line i : Nat} (h : i ∈ drawnSprites s line) : spriteInRange s line i = true :=
  (List.mem_filter.mp (List.mem_of_mem_take h)).2

theorem spriteValueOn_ne_zero_iff {s : State} {line i : Nat} (h : i ∈ drawnSprites s line) (sx : Nat) :
    spriteValueOn s line i sx ≠ 0 ↔ spriteValueAt s line i sx ≠ 0 := by
  rw [← spriteValueOn_toNat (spriteInRange_of_mem h), ne_eq, ne_eq, eq_zero_iff_toNat]

theorem spriteValueAt_lt (s : State) (line i sx : Nat) : spriteValueAt s line i sx < 4 := by
  unfold spriteValueAt
  dsimp only
  split
  · decide
  · omega

/-- The sprite that owns a column, by the numbers of the rules. -/
theorem find?_spriteValueOn (s : State) (line sx : Nat) :
    (drawnSprites s line).find? (fun i => decide (spriteValueOn s line i sx ≠ 0)) =
      (drawnSprites s line).find? fun i => decide (spriteValueAt s line i sx ≠ 0) :=
  List.find?_congr fun _ hi => decide_eq_decide.mpr (spriteValueOn_ne_zero_iff hi sx)

/-- A dot of the background is no sprite's, and its bit 0 says that it is opaque (R186, R187). -/
theorem background_info_bits {s : State} {k : Nat} {d : Dot} (h : (lineBackground s).dots[k]? = some d) :
    d.info.getLsbD 1 = false ∧ (d.info.getLsbD 0 = true ↔ d.info = 1) := by
  rcases lineBackground_info h with e | e <;> rw [e] <;> decide

section
variable {s : State} {line sx : Nat} {d : Dot}

/-- With the sprites on, a column of the line is the background's dot with the drawn sprites over it. -/
theorem lineSprites_getElem? (hs : s.ppu.spritesEnabled = true) (line : Nat)
    (h : (lineBackground s).dots[sx]? = some d) :
    (lineSprites s line).1.dots[sx]? =
      some ((drawnSprites s line).foldl (fun d i => spriteOver s (spriteAt s i) (spriteValueOn s line i sx) d) d) := by
  simp only [lineSprites, hs, if_true, renderSprites_eq, drawOn_fold_dots, h, Option.map_some]

/-- A column that no sprite owns. -/
theorem drawnOver_of_none (h : (lineBackground s).dots[sx]? = some d)
    (ho : ((drawnSprites s line).find? fun i => decide (spriteValueAt s line i sx ≠ 0)) = none) :
    (drawnSprites s line).foldl (fun d i => spriteOver s (spriteAt s i) (spriteValueOn s line i sx) d) d = d := by
  rw [spriteOver_fold, if_neg (Bool.eq_false_iff.mp (background_info_bits h).1), find?_spriteValueOn, ho]

/-- A column that sprite i owns (R191). -/
theorem drawnOver_of_some {i : Nat} (h : (lineBackground s).dots[sx]? = some d)
    (ho : ((drawnSprites s line).find? fun i => decide (spriteValueAt s line i sx ≠ 0)) = some i) :
    (drawnSprites s line).foldl (fun d i => spriteOver s (spriteAt s i) (spriteValueOn s line i sx) d) d =
      (let attr := (s.ppu.oam.get (4 * i + 2)).toNat
      { px := if attr / 32 % 2 = 1 ∧ d.info = 1 then d.px
          else colorOf s (16 + 4 * (attr % 4) + spriteValueAt s line i sx)
        info := d.info ||| 2 }) := by
  obtain ⟨h1, h0⟩ := background_info_bits h
  have hm := List.mem_of_find?_eq_some ho
  have hat : spriteValueAt s line i sx ≠ 0 := by simpa using List.find?_some ho
  have hv := (spriteValueOn_ne_zero_iff hm sx).mpr hat
  have hn := spriteValueOn_toNat (spriteInRange_of_mem hm) sx
  have h4 : (spriteValueOn s line i sx).toNat < 4 := hn.trans_lt (spriteValueAt_lt s line i sx)
  rw [spriteOver_fold, if_neg (Bool.eq_false_iff.mp h1), find?_spriteValueOn, ho]
  dsimp only
  rw [spriteOver, if_neg (not_or.mpr ⟨hv, Bool.eq_false_iff.mp h1⟩), spriteDot_eq s _ h4, hn]
  simp only [h0]
  rfl

end

/-- The state with the sprites' enable bit cleared. -/
def spritesOff (s : State) : State := { s with ppu := { s.ppu with ctrl1 := s.ppu.ctrl1 &&& 0xEF } }

theorem spritesOff_bits (s : State) {i : Nat} (h : i ≠ 4) :
    (spritesOff s).ppu.ctrl1.getLsbD i = s.ppu.ctrl1.getLsbD i := by
  show (s.ppu.ctrl1 &&& 0xEF).getLsbD i = _
  by_cases hi : i < 8
  · interval_cases i <;> simp_all
  · simp [BitVec.getLsbD_of_ge _ i (Nat.le_of_not_lt hi)]

theorem spritesOff_spritesEnabled (s : State) : (spritesOff s).ppu.spritesEnabled = false := by
  simp [spritesOff, Ppu.spritesEnabled]

/-- The background does not look at the sprites' enable bit (R186, R187). -/
theorem lineBackground_spritesOff (s : State) : (lineBackground (spritesOff s)).dots = (lineBackground s).dots := by
  have h3 : (spritesOff s).ppu.bgEnabled = s.ppu.bgEnabled := spritesOff_bits s (by decide)
  have h1 : (spritesOff s).ppu.ctrl1.getLsbD 1 = s.ppu.ctrl1.getLsbD 1 := spritesOff_bits s (by decide)
  have hc (v : BitVec 15) : backgroundLine (spritesOff s) v = backgroundLine s v :=
    backgroundLine_congr (s := s) (u := spritesOff s) rfl h3 h1 (fun _ => rfl) (fun _ => rfl) rfl v
  rw [lineBackground, lineBackground, hc]
  cases hb : s.ppu.bgEnabled with
  | true => simp only [lineStartV, Ppu.rendering, h3, hb, Bool.true_or, if_true]; rfl
  | false => simp only [backgroundLine, hb, Bool.false_eq_true, if_false]

/-- A line drawn with the sprites off shows the background. -/
theorem drawScanline_spritesOff {s : State} (hf : fbWf s.ppu.fb = true) (hi : infoWf s.ppu.info = true) (line : Nat)
    {sx : Nat} {d : Dot} (h : (lineBackground s).dots[sx]? = some d) :
    lastFrame (drawScanline line (spritesOff s)) line sx = d.px ∧
      infoAt (drawScanline line (spritesOff s)) line sx = d.info := by
  refine drawScanline_dot (s := spritesOff s) hf hi line ?_
  rw [lineSprites_dots_off (spritesOff_spritesEnabled s), lineBackground_spritesOff, h]

theorem exists_background_dot (s : State) {sx : Nat} (h : sx < 256) : ∃ d, (lineBackground s).dots[sx]? = some d :=
  ⟨_, List.getElem?_eq_getElem (h.trans_eq (lineBackground_ok s).length.symm)⟩

/-- With the background off, its dots are the universal colour (R187). -/
theorem lineBackground_getElem?_off {s : State} (hb : s.ppu.bgEnabled = false) {sx : Nat} (h : sx < 256) :
    (lineBackground s).dots[sx]? = some (blankDot s) := by
  have e : (lineBackground s).dots = List.replicate 256 (blankDot s) := if_neg (Bool.eq_false_iff.mp hb)
  rw [e, List.getElem?_replicate, if_pos h]

/-- Settles O60: a column is its background dot with the drawn sprites over it, and the line with the sprites off shows
those dots. -/
theorem spritesAreDrawnInOrder : Obligations.SpritesAreDrawnInOrder := by
  unfold Obligations.SpritesAreDrawnInOrder
  intro s line hf hi hs t u
  have hu {sx : Nat} {d : Dot} (h : (lineBackground s).dots[sx]? = some d) :
      lastFrame u line sx = d.px ∧ infoAt u line sx = d.info := drawScanline_spritesOff hf hi line h
  refine ⟨fun sx hsx => ⟨fun hb => hu (lineBackground_getElem?_off hb hsx), ?column⟩, ?hit⟩
  case column =>
    obtain ⟨d, hd⟩ := exists_background_dot s hsx
    obtain ⟨hpx, hinfo⟩ := hu hd
    obtain ⟨tpx, tinfo⟩ := drawScanline_dot hf hi line (lineSprites_getElem? hs line hd)
    split
    · rename_i ho
      rw [drawnOver_of_none hd ho] at tpx tinfo
      exact ⟨tpx.trans hpx.symm, tinfo.trans hinfo.symm⟩
    · rename_i i ho
      rw [drawnOver_of_some hd ho] at tpx tinfo
      rw [hpx, hinfo]
      exact ⟨tinfo, tpx⟩
  case hit =>
    rw [drawScanline_hit, lineSprites_s0_on hs]
    refine or_congr_right (and_congr_right fun h0 => ⟨?_, ?_⟩)
    · rintro ⟨sx, d, hd, hv, -, hb⟩
      refine ⟨sx, ?_, (spriteValueOn_ne_zero_iff h0 sx).mp hv, (hu hd).2.trans ((background_info_bits hd).2.mp hb)⟩
      exact (List.getElem?_eq_some_iff.mp hd).1.trans_eq (lineBackground_ok s).length
    · rintro ⟨sx, hsx, hv, hb⟩
      obtain ⟨d, hd⟩ := exists_background_dot s hsx
      obtain ⟨h1, h0'⟩ := background_info_bits hd
      exact ⟨sx, d, hd, (spriteValueOn_ne_zero_iff h0 sx).mpr hv, h1, h0'.mpr ((hu hd).2.symm.trans hb)⟩

end Sys2Proof.Machine
end

section
/-! PROOFS. The host's reset (70_reset_and_hazards R198, 60_exceptions R155, R200): registers at fixed values, PC from
the reset vector through the bus, and the memories as they were. -/

namespace Sys2Proof.Machine

/-- A read of cartridge space looks at the cartridge alone, and changes no more than that (20_memory R49). -/
theorem read8_cart_congr {a : Word} {s t : State} (h : 0x4020 ≤ a.toNat) (hc : t.cart = s.cart) :
    read8 a t = ((read8 a s).1, { t with cart := (read8 a s).2.cart }) := by
  have same : { t with cart := s.cart } = t := by rw [← hc]
  rw [read8_cart h, read8_cart h]
  cases hs : s.cart with
  | fixture prg chr mir =>
    simp only [cartCpuRead, hc, hs]
    rw [← hs, same]
  | mapper m => simp only [cartCpuRead, hc, hs]

/-- A vector in cartridge space depends on the cartridge alone (20_memory R49, R50). -/
theorem read16_cart_congr {a : Word} {s t : State} (h : 0x4020 ≤ a.toNat) (h' : 0x4020 ≤ (a + 1).toNat)
    (hc : t.cart = s.cart) : read16 a t = ((read16 a s).1, { t with cart := (read16 a s).2.cart }) := by
  have second : read8 (a + 1) { t with cart := (read8 a s).2.cart } = _ := read8_cart_congr (s := (read8 a s).2) h' rfl
  simp only [read16, readPair, read8_cart_congr h hc, second]

/-- A jump through a vector in cartridge space sets PC, and changes no more than that and the cartridge (R50). -/
theorem jumpVector_cart_congr {vector : Word} {s t : State} (h : 0x4020 ≤ vector.toNat)
    (h' : 0x4020 ≤ (vector + 1).toNat) (hc : t.cart = s.cart) :
    jumpVector vector t = { t with pc := (read16 vector s).1, cart := (read16 vector s).2.cart } := by
  rw [jumpVector, read16_cart_congr h h' hc]

/-- A reset in closed form, its vector read from a machine with the same cartridge. -/
theorem resetService_eq {s t : State} (hc : t.cart = s.cart) :
    resetService t = { t with
      a := 0, x := 0, y := 0, p := 0, sp := 0xFD, cycles := 7, ppu := t.ppu.afterReset, faulted := false
      pc := (read16 resetVector s).1, cart := (read16 resetVector s).2.cart } := by
  rw [resetService, jumpVector_cart_congr (vector := resetVector) (s := s) (by decide) (by decide)]
  · rfl
  · exact hc

/-- A reset asked between frames is the reset service, with the request taken off the list. -/
theorem step_reset_of_idle {s : State} {rest : List HostInput} (hp : s.phase = .idle) (hi : s.inputs = .reset :: rest) :
    step s = .next (resetService { s with inputs := rest }) := by
  rw [step_of_inputs hi]
  exact if_pos hp

/-- A frame buffer with nothing listed is zero everywhere (10_state R34, R38). -/
theorem lastFrame_of_nil {s : State} (h : s.ppu.fb = []) (line sx : Nat) :
    lastFrame s line sx = { r := 0, g := 0, b := 0, a := 0 } := by
  rw [lastFrame, h]
  rfl

/-- An info plane with nothing listed is zero everywhere (10_state R34, R38). -/
theorem infoAt_of_nil {s : State} (h : s.ppu.info = []) (line sx : Nat) : infoAt s line sx = 0 := by
  rw [infoAt, h]
  rfl

/-- Settles O1: the step is the reset service, whose vector reads do not look at what is listed. -/
theorem hostResetLeavesTheStatedState : Obligations.HostResetLeavesTheStatedState := by
  unfold Obligations.HostResetLeavesTheStatedState
  intro s rest hp hi
  rw [step_reset_of_idle hp hi, resetService_eq (s := s) (t := { s with inputs := rest }) rfl]
  exact ⟨_, rfl, rfl, rfl, rfl, rfl, rfl, rfl, rfl, rfl, rfl, rfl,
    fun line sx => ⟨lastFrame_of_nil rfl line sx, infoAt_of_nil rfl line sx⟩, rfl, rfl, hp, rfl, rfl⟩

end Sys2Proof.Machine
end
